-- ==== Sys2Proof/Word.lean ====
section
/-!
DEFINITION. The plain data words of the block: the 32-bit word of the command stream and of the
control registers, the byte of sample memory, and the 32-bit pattern of a binary32 number
(spec 00_scope R13, R14). The arithmetic of binary32 is in Machine/Float.lean.
-/

namespace Sys2Proof

/-- A word of the command stream, of the response stream or of a control register (R60, R61, `u32`). -/
abbrev Word := BitVec 32

/-- A byte of sample memory or an 8-bit operand (`u8`). -/
abbrev Byte := BitVec 8

/-- An `f32` (R14), held as its 32-bit pattern: `bits(x)` is the field, `f32_of_bits` the constructor. -/
structure F32 where
  bits : BitVec 32
deriving DecidableEq, Repr, Inhabited

end Sys2Proof
end

