-- ==== Sys2Proof/Config.lean ====
section
/-!
DEFINITION. The parameters of the block (spec 00_scope R10, R11, R17): the numbers the spec fixes, the launch
record that carries the parameters it leaves open, and the free values, opaque constants without a
body of which nothing can be proved. How a free value is read so that the property R17 grants it
holds (and nothing else) is in Machine/Params.lean.
-/

namespace Sys2Proof

/-! ## Numbers the spec fixes (R11) -/

/-- `FRAME_RATE`, engine frames per second. -/
def Config.frameRate : Nat := 60

/-- `TRACK_MAX`, the largest legal `trackLimit`. -/
def Config.trackMax : Nat := 16

/-- `PAN_CGB_THRESH`, the pan magnitude from which a CGB voice is hard left or right. -/
def Config.panCgbThresh : Int := 22

/-- `REV_DIV`, the divisor of `engineRev` in the NORMAL reverb gain. -/
def Config.revDiv : Nat := 256

/-- `NOISE_RATE`, the default of `NoiseRate` at every pitch, in Hz (R11, R207). -/
def Config.noiseRateDefault : Nat := 65536

/-- `SINC_TAPS`, the taps of the sinc resampler. -/
def Config.sincTaps : Nat := 16

/-- `MIXRATE[0..13]` in Hz (R10). -/
def Config.mixRateTable : List Word :=
  [5734, 7884, 10512, 13379, 15768, 18157, 21024, 26758, 31536, 36314, 40137, 42048, 44100, 48000]

/-! ## The launch record -/

/-- `CGB_ENV_RATE`, envelope steps per frame of a CGB voice: 4, or the alternative 1 (R11, R132). -/
inductive CgbEnvRate where
  | four
  | one
deriving DecidableEq, Repr

/-- One tap `(d, M)` of a GS1, GS2 or MGAT reverb (R285). -/
structure Tap where
  delay : Nat
  ll : F32
  lr : F32
  rl : F32
  rr : F32
deriving DecidableEq, Repr

/-- One value of `RevTaps(revType, engineRev)`, a partial function on a finite domain kept as its rows (R285). -/
structure RevRow where
  revType : BitVec 3
  engineRev : BitVec 7
  taps : List Tap
deriving DecidableEq, Repr

/-- What a launch says of `SincKernel` or `BlepKernel` (R11), a function `(fpos, phaseInc) -> 16 × binary32`: its coefficients
at the arguments in `rows` (the first row of an argument counts), and at every other argument; `none` in
`others` leaves those free. P-SINC fixes the coefficients at (+0.0, 1.0) whatever stands here (R17). -/
structure KernelChoice where
  rows : List ((F32 × F32) × Vector F32 16)
  others : Option (Vector F32 16)
deriving DecidableEq, Repr

/-- A kernel of which a launch says nothing. -/
def KernelChoice.free : KernelChoice where
  rows := []
  others := none

/-- A kernel with the same coefficients at every argument but the one P-SINC fixes. -/
def KernelChoice.const (coef : Vector F32 16) : KernelChoice where
  rows := []
  others := some coef

/-- The configuration record of a launch (R10, R11, R361): the open parameters, each given or left open by whoever
launches the block, and constant for the run. A parameter that is a function is kept as its rows, argument and
value, of which the first of an argument counts. `none` in `pcmGain`, `sqRate0`, `waveRate0` leaves the
parameter open (its value is then a free value), as does an argument without a row in `exp2`; a pitch without a
row in `noiseRate` has the spec's default rate (R207); `none` in `blep` is the spec's default, `SincKernel`;
`none` in `poolMax` is an unbounded pool; `none` in `mixRate14`, `mixRate15` is an absent table entry. -/
structure Launch where
  mixRate14 : Option Word
  mixRate15 : Option Word
  cgbEnvRate : CgbEnvRate
  fastRel : Byte
  poolMax : Option Nat
  romSize : Nat
  pcmGain : Option (Vector F32 16)
  sqRate0 : Option F32
  waveRate0 : Option F32
  exp2 : List (F32 × F32)
  noiseRate : List (BitVec 16 × F32)
  sinc : KernelChoice
  blep : Option KernelChoice
  revTaps : List RevRow
deriving DecidableEq, Repr

/-! ## Free values -/

/-- The four binary32 operations (R14). -/
inductive FpOp where
  | add
  | sub
  | mul
  | div
deriving DecidableEq, Repr

/-- The bit pattern of a NaN result, which IEEE 754 leaves open: sign and payload are taken from it. -/
opaque Config.nanFree : FpOp → F32 → F32 → Word

/-- `Exp2` where the launch leaves it open, open but for P-EXP2 (R17). -/
opaque Config.exp2Free : F32 → Word

/-- `SincKernel(fpos, phaseInc)[k]`, open but for P-SINC (R17). -/
opaque Config.sincFree : F32 → F32 → Nat → Word

/-- `BlepKernel(fpos, phaseInc)[k]`, open but for P-SINC (R17). -/
opaque Config.blepFree : F32 → F32 → Nat → Word

/-- `PcmGain(v)`, open but for P-PCMGAIN (R17). -/
opaque Config.pcmGainFree : BitVec 4 → Word

/-- `SQ_RATE0` where the launch leaves it open (R193). -/
opaque Config.sqRate0Free : Word

/-- `WAVE_RATE0` where the launch leaves it open (R199). -/
opaque Config.waveRate0Free : Word

end Sys2Proof
end

