-- ==== Sys2Proof/Syntax.lean ====
section
/-!
DEFINITION. The fifteen commands of the block (spec 30_encoding R100), one constructor per row of
spec/opcode_table.json, with their operand fields (R91 to R97, R102). A reserved field of an operand
word is kept, because the machine itself tests it (R109), after the configured check (R340).
-/

namespace Sys2Proof

/-- NOTEON.SQ `f[1:0]`, the four duty patterns in the order of their codes (R102). -/
inductive Duty where
  | duty12
  | duty25
  | duty50
  | duty75
deriving DecidableEq, Repr

/-- NOTEON.SQ `f[2]`: which of the two square kinds (R102). -/
inductive SqUnit where
  | sq1
  | sq2
deriving DecidableEq, Repr

/-- NOTEON.NOISE `f[0]` (R102). -/
inductive NoisePattern where
  | fine
  | rough
deriving DecidableEq, Repr

/-- Operand word ADSR (R92). -/
structure Adsr where
  att : Byte
  dec : Byte
  sus : Byte
  rel : Byte
deriving DecidableEq, Repr

/-- Operand word PP (R93): initial pitch, priority, and the reserved bits 31:24. -/
structure PitchPrio where
  rsvd : BitVec 8
  prio : Byte
  pitch : BitVec 16
deriving DecidableEq, Repr

/-- Operand word PITCH of SETPITCH (R94) with its reserved bits 31:16. -/
structure PitchWord where
  rsvd : BitVec 16
  pitch : BitVec 16
deriving DecidableEq, Repr

/-- The commands (R100). The CONFIG and POLY operands of CFG are whole words, since they have exactly
the layouts of the control registers they are written to (R97). -/
inductive Instr where
  /-- NOP (R240). -/
  | nop
  /-- CFG (R241). -/
  | cfg (config poly : Word)
  /-- RESET (R242). -/
  | reset
  /-- NOTEON.PCM (R170). -/
  | noteonPcm (trk : BitVec 4) (loopEnabled : Bool) (key vel : Byte) (adsr : Adsr) (pp : PitchPrio)
      (base midc loopPos endPos : Word)
  /-- NOTEON.SQ, written NOTEON.SQ1 or NOTEON.SQ2 by its unit bit (R190). -/
  | noteonSq (trk : BitVec 4) (unit : SqUnit) (duty : Duty) (key vel : Byte) (adsr : Adsr) (pp : PitchPrio)
  /-- NOTEON.WAVE (R196). -/
  | noteonWave (trk : BitVec 4) (key vel : Byte) (adsr : Adsr) (pp : PitchPrio) (waddr : Word)
  /-- NOTEON.NOISE (R201). -/
  | noteonNoise (trk : BitVec 4) (pattern : NoisePattern) (key vel : Byte) (adsr : Adsr) (pp : PitchPrio)
  /-- SETPITCH (R175). -/
  | setpitch (trk : BitVec 4) (anykey : Bool) (key : Byte) (pitch : PitchWord)
  /-- SETVOL (R250). -/
  | setvol (trk : BitVec 4) (vol pan : Byte)
  /-- RELEASE (R131). -/
  | release (trk : BitVec 4) (fast anykey : Bool) (key : Byte)
  /-- TRKFINE (R259). -/
  | trkfine (trk : BitVec 4) (fine : Bool)
  /-- PROCESS (R244). -/
  | process
  /-- ENDED (R260). -/
  | ended
  /-- GETBUF (R261). -/
  | getbuf
  /-- RDREG (R262). -/
  | rdreg (reg : Byte)
deriving DecidableEq, Repr

end Sys2Proof
end

