-- ==== Sys2Proof/Machine/State.lean ====
section
/-!
DEFINITION. The state of the block (spec 10_state), the reasons a step can stop, and the state after hardware
reset (R65, R360).
-/

namespace Sys2Proof.Machine

/-! ## Voices -/

/-- The envelope phase `eState` (R46). -/
inductive EState where
  | init
  | atk
  | dec
  | sus
  | rel
  | dead
deriving DecidableEq, Repr

/-- The three pan positions of a CGB voice (R48). -/
inductive Pan where
  | left
  | centre
  | right
deriving DecidableEq, Repr

/-- The five kinds of voice (R45, R189). -/
inductive Kind where
  | pcm
  | sq1
  | sq2
  | wave
  | noise
deriving DecidableEq, Repr

/-- The fields only a PCM voice has (R49). -/
structure PcmData where
  base : Word
  midCfreq : F32
  loopEnabled : Bool
  loopPos : Word
  endPos : Word
  eos : Bool
deriving DecidableEq, Repr

/-- The fields a voice has by its kind (R49 to R52). The `lfsr` of a noise voice is `x_ipos`, recomputed from `ipos` as
R52 allows (DESIGN CHOICE, safe, log 16). -/
inductive Source where
  | pcm (d : PcmData)
  | square (unit : SqUnit) (duty : Duty)
  | wave (wavebuf : Vector F32 32)
  | noise (pattern : NoisePattern)
deriving DecidableEq, Repr

/-- A voice record (R45 to R52). -/
structure Voice where
  /-- identity (R45) -/
  source : Source
  track : BitVec 4
  key : BitVec 7
  vel : BitVec 7
  prio : Byte
  adsr : Adsr
  /-- envelope (R46) -/
  eState : EState
  envLevel : Byte
  fromEnvLevel : Byte
  envPeak : Byte
  envInterStep : BitVec 2
  fastRelease : Bool
  /-- position and pitch (R47) -/
  pitch : BitVec 16
  phaseInc : F32
  ipos : Word
  fpos : F32
  /-- volumes (R48) -/
  volL : F32
  volR : F32
  fromVolL : F32
  fromVolR : F32
  curL : F32
  curR : F32
  stepL : F32
  stepR : F32
  pan : Pan
  fromPan : Pan
deriving DecidableEq, Repr

/-! ## Reverb lines, frames, sample memory -/

/-- A track's reverb delay line `rev[t]` and its index `revPos[t]` (R56). -/
structure RevLine where
  line : List (F32 × F32)
  pos : Nat
deriving DecidableEq, Repr

/-- One frame of the audio stream (R62): the tracks' buffers in ascending order, then the master buffer, each
interleaved with the left sample at the even index (R55). -/
structure Frame where
  out : List (List F32)
  master : List F32
deriving DecidableEq, Repr

/-- Sample memory (R63): the bytes that differ from what an unlisted address reads as, by rising address. -/
abbrev Memory := List Host.Cell

/-! ## The state -/

/-- The state of the block (R20): command pointer, control registers, voice pool, reverb lines, and the streams at its
boundary. The last three fields are the inputs of a launch (R361): the command stream, which the host
extends, and sample memory and the launch record, which nothing changes. -/
structure State where
  /-- the command pointer (R22) -/
  cp : Nat
  /-- CR[0] CONFIG (R30) -/
  config : Word
  /-- CR[1] POLY (R31) -/
  poly : Word
  /-- CR[2] MIXRATE (R32) -/
  mixRate : Word
  /-- CR[3] BUFCNT (R33) -/
  bufCnt : Word
  /-- CR[4] STATUS as stored: bit 3 ENDED is computed on read and stored as 0 (R34) -/
  status : Word
  /-- CR[5] ERRCAUSE (R35) -/
  errCause : Word
  /-- CR[6] ERRINFO (R36) -/
  errInfo : Word
  /-- CR[7] TRKFINE (R37) -/
  trkFine : Word
  /-- CR[8] TRKERR (R38) -/
  trkErr : Word
  /-- CR[16 + t] TRKCTL[t] (R40) -/
  trkCtl : Vector Word 16
  /-- the voice pool, oldest first (R44) -/
  pool : List Voice
  /-- the reverb delay lines by track; none before CFG (R56) -/
  rev : List RevLine
  /-- the response stream (R61) -/
  responses : List Word
  /-- the audio stream (R62) -/
  audio : List Frame
  /-- the command stream (R60) -/
  cmd : List Word
  /-- sample memory (R63) -/
  mem : Memory
  /-- the launch record (R11, R361) -/
  launch : Launch
deriving DecidableEq, Repr

/-! ## Stops -/

/-- Why a step has no next state. -/
inductive Fault where
  /-- STATUS.HALT is 1 and the pipeline has no step (R337, R340, R372 a). Raised by the step itself. Safe: the spec gives
  no further behaviour but hardware reset. -/
  | halted
  /-- The command stream holds no word at `cp`: the pipeline waits, and a finite stream is then drained (R113, R372 b).
  Raised by the step itself. Safe: nothing happens until the host appends words. -/
  | noCommand
  /-- The command stream ends inside the command at `cp`: stuck, not final (R113, R372 c). Raised by the step itself.
  Safe: nothing happens until the host appends words. -/
  | starved
  /-- PROCESS in a state whose pool holds a PCM voice that reaches outside sample memory, an address that does not
  exist (R72, R76). Raised by PROCESS. Safe: no run from reset reaches such a state. -/
  | sampleOutsideMemory
deriving DecidableEq, Repr

/-- Why an instruction has no meaning. -/
inductive Refusal where
  /-- The instruction has no meaning in the model yet. Raised by a dispatch arm only (none does so now). Safe. -/
  | notModelled (mnemonic : String)
deriving DecidableEq, Repr

/-! ## Reset -/

/-- The launch record of `State.reset`: the defaults of R11, every parameter without a default left open or absent, and
all of the u32 address space as sample memory (DESIGN CHOICE, unsafe, log 2). -/
def resetLaunch : Launch where
  mixRate14 := none
  mixRate15 := none
  cgbEnvRate := .four
  fastRel := 0
  poolMax := none
  romSize := 2 ^ 32
  pcmGain := none
  sqRate0 := none
  waveRate0 := none
  exp2 := []
  noiseRate := []
  sinc := .free
  blep := none
  revTaps := []

/-- The block after hardware reset (R65, R360). The launch inputs are not the reset's (R361): no command word, no
listed byte of sample memory, the default launch record (DESIGN CHOICE, unsafe, log 2). -/
def State.reset : State where
  cp := 0
  config := 0
  poly := 0
  mixRate := 0
  bufCnt := 0
  status := 0
  errCause := 0
  errInfo := 0
  trkFine := 0x0000FFFF
  trkErr := 0
  trkCtl := Vector.replicate 16 0
  pool := []
  rev := []
  responses := []
  audio := []
  cmd := []
  mem := []
  launch := resetLaunch

end Sys2Proof.Machine
end

