-- ==== Sys2Proof/Machine/Flags.lean ====
section
/-!
DEFINITION. The flags of the block: the stored bits of STATUS (spec 10_state R34), the per-track bit vectors
(R37, R38), and the codes of the errors (60_exceptions R331, R332). The block has no arithmetic condition codes (R23).
-/

namespace Sys2Proof.Machine

/-! ## Single bits of a word -/

/-- `w` with bit `i` set. -/
def setBit (w : Word) (i : Nat) : Word := w ||| (1#32 <<< i)

/-- `w` with bit `i` cleared. -/
def clearBit (w : Word) (i : Nat) : Word := w &&& ~~~(1#32 <<< i)

/-- `w` with bit `i` equal to `b`. -/
def assignBit (w : Word) (i : Nat) (b : Bool) : Word := if b then setBit w i else clearBit w i

/-! ## STATUS (R34) -/

/-- STATUS.CONFIGURED, bit 0. -/
def State.configured (s : State) : Bool := s.status.getLsbD 0

/-- STATUS.HALT, bit 1. -/
def State.halt (s : State) : Bool := s.status.getLsbD 1

/-- STATUS.DROP, bit 2. -/
def State.drop (s : State) : Bool := s.status.getLsbD 2

/-- STATUS.DATAERR, bit 4. -/
def State.dataErr (s : State) : Bool := s.status.getLsbD 4

def statusConfiguredBit : Nat := 0
def statusHaltBit : Nat := 1
def statusDropBit : Nat := 2
def statusEndedBit : Nat := 3
def statusDataErrBit : Nat := 4

/-! ## Error kinds and sub-causes (R331, R332) -/

/-- The error kinds the block raises (R331; StackOverflow, code 3, is the host's and never raised). -/
inductive ErrKind where
  | config
  | data
  | resource
  | logic
deriving DecidableEq, Repr

/-- The code of a kind (R331). -/
def ErrKind.code : ErrKind → Nat
  | .config => 1
  | .data => 2
  | .resource => 4
  | .logic => 5

/-- Fatal kinds halt the pipeline (R331, R337). -/
def ErrKind.fatal : ErrKind → Bool
  | .config => true
  | .data => false
  | .resource => false
  | .logic => true

/-- The sub-causes (R332). -/
inductive ErrSub where
  | cfgRsvd
  | badFreq
  | badRev
  | badResamp
  | badTracks
  | blockSmall
  | noRevParam
  | keyVel
  | volPan
  | smpRange
  | loopInv
  | midc
  | phase
  | wavRange
  | poly
  | poolFull
  | illOp
  | rsvd
  | notCfg
  | reCfg
  | badTrk
  | badReg
deriving DecidableEq, Repr

/-- The code of a sub-cause (R332). -/
def ErrSub.code : ErrSub → Nat
  | .cfgRsvd => 0x01
  | .badFreq => 0x02
  | .badRev => 0x03
  | .badResamp => 0x04
  | .badTracks => 0x05
  | .blockSmall => 0x06
  | .noRevParam => 0x07
  | .keyVel => 0x10
  | .volPan => 0x11
  | .smpRange => 0x12
  | .loopInv => 0x13
  | .midc => 0x14
  | .phase => 0x15
  | .wavRange => 0x16
  | .poly => 0x20
  | .poolFull => 0x21
  | .illOp => 0x30
  | .rsvd => 0x31
  | .notCfg => 0x32
  | .reCfg => 0x33
  | .badTrk => 0x34
  | .badReg => 0x35

/-- The kind of a sub-cause (R332). -/
def ErrSub.kind : ErrSub → ErrKind
  | .cfgRsvd | .badFreq | .badRev | .badResamp | .badTracks | .blockSmall | .noRevParam => .config
  | .keyVel | .volPan | .smpRange | .loopInv | .midc | .phase | .wavRange => .data
  | .poly | .poolFull => .resource
  | .illOp | .rsvd | .notCfg | .reCfg | .badTrk | .badReg => .logic

/-- ERRCAUSE: kind in bits 3:0, sub-cause in 11:4, track in 15:12 (R35, R333); the track is 0 for the kinds that charge
none (R332). -/
def errCauseWord (e : ErrSub) (trk : BitVec 4) : Word :=
  BitVec.ofNat 32 (e.kind.code + e.code * 2 ^ 4 + (if e.kind.fatal then 0 else trk.toNat) * 2 ^ 12)

end Sys2Proof.Machine
end

