-- ==== Sys2Proof/Machine/Operands.lean ====
section
/-!
DEFINITION. Operand forms: the fields of the CONFIG, POLY and TRKCTL words (spec 10_state R30, R31, R40), the signed
readings (30_encoding R98), and the selection of voices by track and key (R104).
-/

namespace Sys2Proof.Machine

/-! ## CONFIG (R30) -/

def cfgPcmVol (c : Word) : BitVec 4 := c.extractLsb' 0 4
def cfgEngineRev (c : Word) : BitVec 7 := c.extractLsb' 4 7
def cfgEngineFreq (c : Word) : BitVec 4 := c.extractLsb' 11 4
def cfgRevType (c : Word) : BitVec 3 := c.extractLsb' 15 3
def cfgResamp (c : Word) : BitVec 2 := c.extractLsb' 18 2
def cfgTrackLimit (c : Word) : BitVec 5 := c.extractLsb' 20 5
def cfgReserved (c : Word) : BitVec 7 := c.extractLsb' 25 7

/-- The codes of `revType` (R30). -/
def revNormal : BitVec 3 := 0
def revGs1 : BitVec 3 := 1
def revGs2 : BitVec 3 := 2
def revMgat : BitVec 3 := 3
def revNone : BitVec 3 := 4

/-- `revType` is GS1, GS2 or MGAT, the variants that `RevTaps` describes (R285). -/
def revUsesTaps (t : BitVec 3) : Bool := t == revGs1 || t == revGs2 || t == revMgat

/-- The codes of `resamp` (R30). -/
def resampNearest : BitVec 2 := 0
def resampLinear : BitVec 2 := 1
def resampSinc : BitVec 2 := 2

/-- POLY `polyphonyLimit` (R31). -/
def polyLimit (p : Word) : Nat := (p.extractLsb' 0 16).toNat

def polyReserved (p : Word) : BitVec 16 := p.extractLsb' 16 16

/-- The number of tracks, `CONFIG.trackLimit` (R30). -/
def State.trackLimit (s : State) : Nat := (cfgTrackLimit s.config).toNat

/-- `B = BUFCNT` (R33). -/
def State.blockSamples (s : State) : Nat := s.bufCnt.toNat

/-- `sb(q) = floor(q × B / 4)` (R12). -/
def subBound (b q : Nat) : Nat := q * b / 4

/-! ## TRKCTL (R40) -/

def ctlVol (w : Word) : BitVec 7 := w.extractLsb' 0 7

/-- Bits 15:8 read as `s8`. -/
def ctlPan (w : Word) : Int := (w.extractLsb' 8 8).toInt

/-- TRKCTL[t] (R40). -/
def State.trkCtlOf (s : State) (t : BitVec 4) : Word := s.trkCtl.get t.toFin

/-- The word SETVOL writes: `(b << 8) | a` (R250). -/
def trkCtlWord (vol pan : Byte) : Word := (pan.setWidth 32 <<< 8) ||| vol.setWidth 32

/-! ## Operand checks -/

/-- A key, velocity or volume operand above 127 (R98). -/
def above127 (a : Byte) : Bool := 127 < a.toNat

/-- A pan operand outside −64..63 (R98, R250). -/
def panIllegal (b : Byte) : Bool := b.toInt < -64 || 63 < b.toInt

/-- `pitch` as `s16` (R93, R94). -/
def s16 (p : BitVec 16) : Int := p.toInt

/-- A legal key or velocity operand as its seven bits (R45). -/
def low7 (a : Byte) : BitVec 7 := a.setWidth 7

/-! ## Voice selection (R104) -/

/-- The voices SETPITCH and RELEASE act on: of the track, not DEAD, and of the key unless `anykey`. -/
def Voice.selected (v : Voice) (trk : BitVec 4) (anykey : Bool) (key : Byte) : Bool :=
  v.track == trk && v.eState != .dead && (anykey || v.key.setWidth 8 == key)

end Sys2Proof.Machine
end

