-- ==== Sys2Proof/Machine/Ops.lean ====
section
/-!
DEFINITION. The shared operations over memory and registers: reading sample memory (spec 20_memory R72), reading
a control register (45_stream_generator R262), responding (10_state R61), taking an error (60_exceptions R333 to R339)
and the checks that precede a command's effect (R340). There is no return from an error (R342).
-/

namespace Sys2Proof.Machine

/-! ## Sample memory -/

/-- What a byte that no entry lists reads as (DESIGN CHOICE, unsafe, log 3). -/
def unlistedByte : Byte := 0

/-- The canonical form: addresses strictly rising, no entry equal to what an unlisted address reads as. -/
abbrev Memory.wf (m : Memory) : Prop :=
  m.Pairwise (fun x y => x.1 < y.1) ∧ ∀ c ∈ m, c.2 ≠ unlistedByte

/-- The byte at an address. -/
def Memory.read : Memory → Nat → Byte
  | [], _ => unlistedByte
  | (k, x) :: m, a => if k = a then x else Memory.read m a

/-- The memory with one byte changed, in canonical form. The block never writes (R71): this is how a launch's sample
memory is laid out. -/
def Memory.write : Memory → Nat → Byte → Memory
  | [], a, b => if b = unlistedByte then [] else [(a, b)]
  | (k, x) :: m, a, b =>
    if a < k then (if b = unlistedByte then (k, x) :: m else (a, b) :: (k, x) :: m)
    else if a = k then (if b = unlistedByte then m else (a, b) :: m)
    else (k, x) :: Memory.write m a b

/-- Consecutive bytes laid out from an address on. -/
def Memory.load (m : Memory) (a : Nat) : List Byte → Memory
  | [] => m
  | b :: bs => Memory.load (Memory.write m a b) (a + 1) bs

/-- `MemRead(addr, 1)` for `addr < ROM_SIZE` (R72). -/
def State.memRead (s : State) (addr : Nat) : Byte := Memory.read s.mem addr

/-- The host's one action during a run: words appended to the command stream (R84). -/
def State.appendWords (s : State) (ws : List Word) : State := { s with cmd := s.cmd ++ ws }

/-! ## Registers and responses -/

/-- The number of live voices (R39). -/
def State.voiceCount (s : State) : Nat := s.pool.countP (fun v => v.eState != .dead)

/-- The kind of a voice (R45). -/
def Voice.kind (v : Voice) : Kind :=
  match v.source with
  | .pcm _ => .pcm
  | .square .sq1 _ => .sq1
  | .square .sq2 _ => .sq2
  | .wave _ => .wave
  | .noise _ => .noise

def Voice.isPcm (v : Voice) : Bool := v.kind == .pcm

/-- The number of live PCM voices (R39, R225). -/
def State.pcmCount (s : State) : Nat := s.pool.countP (fun v => v.isPcm && v.eState != .dead)

/-- `Ended` (R260): every track below `trackLimit` is FINE and no voice is live. -/
def State.ended (s : State) : Bool :=
  (List.range s.trackLimit).all (fun t => s.trkFine.getLsbD t) && s.voiceCount == 0

/-- STATUS as read: bit 3 is `Ended`, and 0 while not configured (R34). -/
def State.statusRead (s : State) : Word :=
  if s.configured && s.ended then setBit s.status statusEndedBit else s.status

/-- `CR[n]` as RDREG reads it; none for a register that does not exist (R41, R262). VOICECNT and PCMCNT are the low 32 bits
of the counts (DEDUCED, safe, log 14). -/
def State.readCR (s : State) (n : Nat) : Option Word :=
  match n with
  | 0 => some s.config
  | 1 => some s.poly
  | 2 => some s.mixRate
  | 3 => some s.bufCnt
  | 4 => some s.statusRead
  | 5 => some s.errCause
  | 6 => some s.errInfo
  | 7 => some s.trkFine
  | 8 => some s.trkErr
  | 9 => some (BitVec.ofNat 32 s.voiceCount)
  | 10 => some (BitVec.ofNat 32 s.pcmCount)
  | m => if h : 16 ≤ m ∧ m < 32 then some (s.trkCtl.get ⟨m - 16, by omega⟩) else none

/-- `cp <- cp + n` (R112). -/
def State.advance (s : State) (n : Nat) : State := { s with cp := s.cp + n }

/-- `respond(w)` (R15, R61). -/
def State.respond (s : State) (w : Word) : State := { s with responses := s.responses ++ [w] }

/-! ## Taking an error -/

/-- The common entry of every error kind: the cause, and the `cp` at which the command began (R333). -/
def State.recordError (s : State) (e : ErrSub) (trk : BitVec 4) : State :=
  { s with errCause := errCauseWord e trk, errInfo := BitVec.ofNat 32 s.cp }

/-- Taking an error at a command of `n` words charged to track `trk`. Fatal kinds set HALT and leave `cp` (R337); a
DataError ends the track and goes on (R338); ResourceExhaustion sets DROP, and the command that
dropped its note completes by itself (R227, R339). -/
def State.takeError (s : State) (e : ErrSub) (trk : BitVec 4) (n : Nat) : State :=
  match e.kind with
  | .config => { s.recordError e trk with status := setBit s.status statusHaltBit }
  | .logic => { s.recordError e trk with status := setBit s.status statusHaltBit }
  | .data =>
    { s.recordError e trk with
        status := setBit s.status statusDataErrBit
        trkErr := setBit s.trkErr trk.toNat
        trkFine := setBit s.trkFine trk.toNat
        cp := s.cp + n }
  | .resource => { s.recordError e trk with status := setBit s.status statusDropBit }

/-! ## Checks before the effect -/

/-- The first check that fails, in the order given (R340). -/
def firstError : List (Bool × ErrSub) → Option ErrSub
  | [] => none
  | (failed, e) :: rest => if failed then some e else firstError rest

/-- A command of `n` words: the first failing check is taken as its error, else its effect happens (R340). -/
def guarded (s : State) (trk : BitVec 4) (n : Nat) (checks : List (Bool × ErrSub)) (effect : State → State) :
    Host.Outcome State Fault Refusal :=
  match firstError checks with
  | some e => .next (s.takeError e trk n)
  | none => .next (effect s)

/-- The configured check of every command but NOP, CFG and RDREG (R336). -/
def needConfigured (s : State) : List (Bool × ErrSub) := [(!s.configured, .notCfg)]

/-- `trk ≥ trackLimit` (R340, 6). -/
def needTrack (s : State) (trk : BitVec 4) : List (Bool × ErrSub) :=
  [(decide (s.trackLimit ≤ trk.toNat), .badTrk)]

/-- Reserved bits of an operand word, outside CFG (R109). -/
def needZero (reserved : Bool) : List (Bool × ErrSub) := [(!reserved, .rsvd)]

end Sys2Proof.Machine
end

