-- ==== Sys2Proof/Machine/Float.lean ====
section
/-!
DEFINITION. IEEE 754 binary32 arithmetic (spec 00_scope R14): round to nearest, ties to even, one rounding per operation,
no fusion, subnormals kept. Every finite number is a multiple of `2^-149`; a magnitude is counted in that
unit, so each operation computes its exact result as a fraction of naturals and rounds it once.
-/

namespace Sys2Proof

/-! ## Fields and classes -/

/-- The sign bit. -/
def F32.sign (x : F32) : Bool := x.bits.getLsbD 31

/-- The biased exponent field. -/
def F32.expo (x : F32) : Nat := (x.bits.extractLsb' 23 8).toNat

/-- The fraction field. -/
def F32.frac (x : F32) : Nat := (x.bits.extractLsb' 0 23).toNat

/-- `isfinite(x)`: neither an infinity nor a NaN (R14). -/
def F32.isFinite (x : F32) : Bool := x.expo != 255

def F32.isNaN (x : F32) : Bool := x.expo == 255 && x.frac != 0

def F32.isInf (x : F32) : Bool := x.expo == 255 && x.frac == 0

/-- The magnitude of a finite number in units of `2^-149`. -/
def F32.mag (x : F32) : Nat :=
  if x.expo = 0 then x.frac else (x.frac + 2 ^ 23) * 2 ^ (x.expo - 1)

def F32.isZero (x : F32) : Bool := x.isFinite && x.mag == 0

/-- `x > 0` for a finite `x`. -/
def F32.isPosFinite (x : F32) : Bool := x.isFinite && !x.sign && x.mag != 0

/-- The exact value of a finite number in units of `2^-149`. -/
def F32.scaled (x : F32) : Int := if x.sign then -(x.mag : Int) else x.mag

/-! ## Rounding -/

/-- The pattern with this sign and these 31 magnitude bits. -/
def F32.pack (sign : Bool) (m : Nat) : F32 := ⟨BitVec.ofNat 32 ((if sign then 2 ^ 31 else 0) + m)⟩

/-- The magnitude bits of infinity. -/
def F32.infBits : Nat := 0x7F800000

def F32.inf (sign : Bool) : F32 := F32.pack sign F32.infBits

/-- `num / den` rounded to the nearest natural, ties to even. -/
def roundNearest (num den : Nat) : Nat :=
  let q := num / den
  let r := num % den
  if den < 2 * r ∨ (den = 2 * r ∧ q % 2 = 1) then q + 1 else q

/-- How many low-order units of `2^-149` a number of this whole magnitude cannot hold: its 24-bit significand is
counted in units of `2^(ulpShift)`. -/
def ulpShift (whole : Nat) : Nat := Nat.log2 whole - 23

/-- The magnitude bits of `num / den` units of `2^-149`, rounded to nearest even, infinity on overflow. The exponent field
and the significand add up, so a carry out of the significand moves to the next exponent by itself. -/
def roundMag (num den : Nat) : Nat :=
  let k := ulpShift (num / den)
  min (k * 2 ^ 23 + roundNearest num (den * 2 ^ k)) F32.infBits

/-- `f32` of the rational with this sign and a magnitude of `num / den` units of `2^-149`. -/
def F32.round (sign : Bool) (num den : Nat) : F32 := F32.pack sign (roundMag num den)

/-! ## Operations -/

/-- The NaN an operation delivers: a quiet NaN, whose sign and payload IEEE 754 leaves open (DEDUCED, safe,
log 4). -/
def F32.nanResult (op : FpOp) (x y : F32) : F32 :=
  ⟨(Config.nanFree op x y &&& 0x803FFFFF#32) ||| 0x7FC00000#32⟩

def F32.neg (x : F32) : F32 := ⟨x.bits ^^^ 0x80000000#32⟩

/-- `x + y` where neither is a NaN, `nan` standing for the result of opposite infinities. An exact zero is `+0.0` unless
both operands are negative. -/
def F32.sum (x y nan : F32) : F32 :=
  if x.isInf then (if y.isInf && (x.sign != y.sign) then nan else x)
  else if y.isInf then y
  else
    let t := x.scaled + y.scaled
    if t = 0 then F32.pack (x.sign && y.sign) 0 else F32.round (t < 0) t.natAbs 1

/-- `+.` of R14. -/
def F32.add (x y : F32) : F32 :=
  if x.isNaN || y.isNaN then F32.nanResult .add x y else F32.sum x y (F32.nanResult .add x y)

/-- `−.` of R14. -/
def F32.sub (x y : F32) : F32 :=
  if x.isNaN || y.isNaN then F32.nanResult .sub x y else F32.sum x y.neg (F32.nanResult .sub x y)

/-- `×.` of R14. -/
def F32.mul (x y : F32) : F32 :=
  let s := x.sign != y.sign
  if x.isNaN || y.isNaN then F32.nanResult .mul x y
  else if x.isInf || y.isInf then
    (if x.isZero || y.isZero then F32.nanResult .mul x y else F32.inf s)
  else F32.round s (x.mag * y.mag) (2 ^ 149)

/-- `/.` of R14. -/
def F32.div (x y : F32) : F32 :=
  let s := x.sign != y.sign
  if x.isNaN || y.isNaN then F32.nanResult .div x y
  else if x.isInf then (if y.isInf then F32.nanResult .div x y else F32.inf s)
  else if y.isInf then F32.pack s 0
  else if y.mag = 0 then (if x.mag = 0 then F32.nanResult .div x y else F32.inf s)
  else F32.round s (x.mag * 2 ^ 149) y.mag

/-! ## Integers -/

/-- `f32(z)` of an integer (R14). -/
def F32.ofInt (z : Int) : F32 := F32.round (z < 0) (z.natAbs * 2 ^ 149) 1

/-- `f32(n)` of a natural (R14). -/
def F32.ofNat (n : Nat) : F32 := F32.round false (n * 2 ^ 149) 1

/-- `floor(x)` of a finite `x ≥ 0`, as a natural. -/
def F32.floorNat (x : F32) : Nat := if x.sign then 0 else x.mag / 2 ^ 149

/-! ## Constants -/

def F32.zero : F32 := ⟨0x00000000#32⟩

def F32.one : F32 := ⟨0x3F800000#32⟩

def F32.two : F32 := ⟨0x40000000#32⟩

def F32.half : F32 := ⟨0x3F000000#32⟩

def F32.negOne : F32 := ⟨0xBF800000#32⟩

def F32.negHalf : F32 := ⟨0xBF000000#32⟩

end Sys2Proof
end

