-- ==== Sys2Proof/Machine/Params.lean ====
section
/-!
DEFINITION. The open parameters of the block as the machine uses them (spec 00_scope R10, R11, R17; 46_reverb R285):
the launch record's value where it gives one, else the free value of Config read so that exactly the
property R17 grants holds of it. The readings below are onto the patterns that have the property, so
they leave every other choice open.
-/

namespace Sys2Proof

/-! ## Reading a free word as a number with a property -/

/-- Some positive finite number; every one of them is the reading of some word. -/
def F32.posFiniteOf (w : Word) : F32 := ⟨BitVec.ofNat 32 (w.toNat % 0x7F7FFFFF + 1)⟩

/-- These magnitude bits with the sign bit of a free word where they are zero, and no sign otherwise. -/
def F32.withZeroSign (w : Word) (m : Nat) : F32 := F32.pack (w.getLsbD 31 && m == 0) m

/-- Some finite number `≥ 0`, a zero of either sign among them; every one of them is the reading of some word. -/
def F32.nonnegFiniteOf (w : Word) : F32 := F32.withZeroSign w (w.toNat % 2 ^ 31 % 0x7F800000)

/-- Some finite number; every one of them is the reading of some word. -/
def F32.finiteOf (w : Word) : F32 := F32.pack (w.getLsbD 31) (w.toNat % 2 ^ 31 % 0x7F800000)

/-- Some number that is not negative, a zero of either sign, an infinity and a NaN among them. -/
def F32.unsignedOf (w : Word) : F32 := F32.withZeroSign w (w.toNat % 2 ^ 31)

/-! ## Exp2 -/

/-- `x` is finite and `|x| ≤ 64`, the range of P-EXP2 (R17). -/
def F32.inExp2Range (x : F32) : Bool := x.isFinite && x.mag ≤ 64 * 2 ^ 149

/-- `Exp2(x)` where the launch leaves it open: positive and finite for `|x| ≤ 64` (R17), and nothing else is known of it. -/
def exp2Open (x : F32) : F32 :=
  if x.inExp2Range then F32.posFiniteOf (Config.exp2Free x) else ⟨Config.exp2Free x⟩

/-- `Exp2` (R11), with P-EXP2 (R17): 1, 2 and 1/2 at 0, 1 and −1; elsewhere what the launch states, else free (DESIGN
CHOICE, safe, log 5). -/
def exp2 (p : Launch) (x : F32) : F32 :=
  if x.isZero then F32.one
  else if x = F32.one then F32.two
  else if x = F32.negOne then F32.half
  else (p.exp2.lookup x).getD (exp2Open x)

/-! ## Kernels -/

/-- The unit impulse at tap 7, which P-SINC fixes at (+0.0, 1.0) (R17). -/
def unitImpulse (k : Nat) : F32 := if k = 7 then F32.one else F32.zero

/-- Coefficient `k` of a kernel at `(fpos, phaseInc)`, with P-SINC (R17): the unit impulse at (+0.0, 1.0), finite at
finite arguments. -/
def kernelCoef (choice : KernelChoice) (free : F32 → F32 → Nat → Word) (fpos phaseInc : F32) (k : Nat) : F32 :=
  if fpos = F32.zero ∧ phaseInc = F32.one then unitImpulse k
  else
    match (choice.rows.lookup (fpos, phaseInc)).or choice.others with
    | some coef => coef.toList.getD k F32.zero
    | none =>
      if fpos.isFinite && phaseInc.isFinite then F32.finiteOf (free fpos phaseInc k) else ⟨free fpos phaseInc k⟩

/-- `SincKernel(fpos, phaseInc)[k]` (R11). -/
def sincKernel (p : Launch) (fpos phaseInc : F32) (k : Nat) : F32 :=
  kernelCoef p.sinc Config.sincFree fpos phaseInc k

/-- `BlepKernel(fpos, phaseInc)[k]`, by default `SincKernel` (R11, R158). -/
def blepKernel (p : Launch) (fpos phaseInc : F32) (k : Nat) : F32 :=
  match p.blep with
  | none => sincKernel p fpos phaseInc k
  | some choice => kernelCoef choice Config.blepFree fpos phaseInc k

/-! ## Numbers -/

/-- `PcmGain(v)` (R11), with P-PCMGAIN where it is free (R17). -/
def pcmGain (p : Launch) (v : BitVec 4) : F32 :=
  match p.pcmGain with
  | some table => table.toList.getD v.toNat F32.zero
  | none => F32.nonnegFiniteOf (Config.pcmGainFree v)

/-- `SQ_RATE0` (R193); where it is free it is not negative, since R47 keeps `phaseInc ≥ 0` (DEDUCED, safe,
log 8). -/
def sqRate0 (p : Launch) : F32 := p.sqRate0.getD (F32.unsignedOf Config.sqRate0Free)

/-- `WAVE_RATE0` (R199), read as `SQ_RATE0`. -/
def waveRate0 (p : Launch) : F32 := p.waveRate0.getD (F32.unsignedOf Config.waveRate0Free)

/-- `f32(NoiseRate(pitch))` in Hz: what the launch states for the pitch, else 65536 (R11, R207; DESIGN CHOICE, safe,
log 13). -/
def noiseRate (p : Launch) (pitch : BitVec 16) : F32 :=
  (p.noiseRate.lookup pitch).getD (F32.ofNat Config.noiseRateDefault)

/-- `CGB_ENV_RATE = 4` (R132). -/
def Launch.cgbFour (p : Launch) : Bool := p.cgbEnvRate == .four

/-! ## Tables -/

/-- `MIXRATE[engineFreq]`; none where the table has no entry (R10). -/
def mixRateOf (p : Launch) (engineFreq : BitVec 4) : Option Word :=
  if engineFreq = 14 then p.mixRate14
  else if engineFreq = 15 then p.mixRate15
  else Config.mixRateTable[engineFreq.toNat]?

/-- `B = floor(mixRate / FRAME_RATE)` (R12). -/
def blockSamplesOf (mixRate : Word) : Nat := mixRate.toNat / Config.frameRate

/-- A legal tap of a delay line of `d` entries: `1 ≤ d_k ≤ D`, finite matrix entries (R285). -/
def Tap.legal (t : Tap) (d : Nat) : Bool :=
  1 ≤ t.delay && t.delay ≤ d && t.ll.isFinite && t.lr.isFinite && t.rl.isFinite && t.rr.isFinite

/-- A legal number of taps: 2 for GS1 and GS2, at least 1 for MGAT (R285; the codes are those of R30). -/
def RevRow.countLegal (r : RevRow) : Bool :=
  if r.revType = 1 ∨ r.revType = 2 then r.taps.length == 2 else !r.taps.isEmpty

/-- A legal value of `RevTaps`: a legal number of taps, each legal (R285). -/
def RevRow.legal (r : RevRow) (d : Nat) : Bool := r.countLegal && r.taps.all (·.legal d)

/-- `RevTaps(revType, engineRev)` for a line of `d` entries; none where it is not given (R285). -/
def revTapsOf (p : Launch) (revType : BitVec 3) (engineRev : BitVec 7) (d : Nat) : Option (List Tap) :=
  (p.revTaps.find? fun r => r.revType == revType && r.engineRev == engineRev && r.legal d).map (·.taps)

end Sys2Proof
end

