-- ==== Sys2Proof/Machine/Envelope.lean ====
section
/-!
DEFINITION. The ADSR envelope engine (spec 40_envelope R120 to R134) and the conversion of an envelope level into stereo
volumes (45_stream_generator R251, R252).
-/

namespace Sys2Proof.Machine

/-! ## The order of the phases (R46) -/

/-- The place of a phase in the order INIT < ATK < DEC < SUS < REL < DEAD. -/
def EState.rank : EState → Nat
  | .init => 0
  | .atk => 1
  | .dec => 2
  | .sus => 3
  | .rel => 4
  | .dead => 5

/-- Before REL: the phases `Release` takes to REL (R130). -/
def EState.beforeRel (e : EState) : Bool := e.rank < EState.rel.rank

/-! ## One envelope step -/

/-- `(level × factor) >> 8` (R140): the product is at most 65025 and formed exactly. -/
def scaleLevel (level factor : Byte) : Byte := BitVec.ofNat 8 (level.toNat * factor.toNat / 256)

/-- `min(level + att, 255)` (R123, R140). -/
def attackLevel (level att : Byte) : Byte := BitVec.ofNat 8 (min (level.toNat + att.toNat) 255)

/-- `max((level × dec) >> 8, sus)` (R124). -/
def decayLevel (level dec sus : Byte) : Byte := BitVec.ofNat 8 (max (level.toNat * dec.toNat / 256) sus.toNat)

/-- The release factor: `FAST_REL` under `fastRelease`, else `rel` (R126). -/
def releaseRate (p : Launch) (v : Voice) : Byte := if v.fastRelease then p.fastRel else v.adsr.rel

/-- Arm INIT (R122). -/
def stepInit (v : Voice) : Voice :=
  { v with
      envLevel := 0
      envPeak := if v.adsr.att.toNat < 255 then v.adsr.att else 255
      eState := .atk }

/-- Arm ATK (R123). -/
def stepAtk (v : Voice) : Voice :=
  if v.adsr.att = 255 then { v with envLevel := 255, fromEnvLevel := 255, eState := .dec }
  else
    let l := attackLevel v.envLevel v.adsr.att
    { v with envLevel := l, eState := if l = 255 then .dec else .atk }

/-- Arm DEC (R124). -/
def stepDec (v : Voice) : Voice :=
  let l := decayLevel v.envLevel v.adsr.dec v.adsr.sus
  { v with envLevel := l, eState := if l.toNat ≤ v.adsr.sus.toNat then .sus else .dec }

/-- Arm SUS (R125). -/
def stepSus (v : Voice) : Voice :=
  if v.adsr.sus = 0 then { v with envLevel := 0, eState := .dead } else { v with envLevel := v.adsr.sus }

/-- Arm REL (R126). -/
def stepRel (p : Launch) (v : Voice) : Voice :=
  let l := scaleLevel v.envLevel (releaseRate p v)
  { v with envLevel := l, eState := if l = 0 then .dead else .rel }

/-- `StepEnvelope(v)` (R120): one arm, chosen by the phase at the call. -/
def stepEnvelope (p : Launch) (v : Voice) : Voice :=
  match v.eState with
  | .init => stepInit v
  | .atk => stepAtk v
  | .dec => stepDec v
  | .sus => stepSus v
  | .rel => stepRel p v
  | .dead => v

/-- The bit `instant` that `StepEnvelope(v)` returns: 1 only from arm ATK with `att = 255` (R120, R123). -/
def stepInstant (v : Voice) : Bool := v.eState == .atk && v.adsr.att == 255

/-- `Release(v, fast)` (R130). -/
def releaseVoice (fast : Bool) (v : Voice) : Voice :=
  if v.eState.beforeRel then { v with eState := .rel, fastRelease := fast }
  else if v.eState = .rel ∧ fast = true then { v with fastRelease := true }
  else v

/-! ## Volumes -/

/-- The gain of a PCM voice before panning (R251). -/
def pcmLevel (s : State) (v : Voice) : F32 :=
  let a := (F32.ofNat v.envLevel.toNat).div (F32.ofNat 255)
  let vel := (F32.ofNat v.vel.toNat).div (F32.ofNat 127)
  let vol := (F32.ofNat (ctlVol (s.trkCtlOf v.track)).toNat).div (F32.ofNat 127)
  ((a.mul vel).mul vol).mul (pcmGain s.launch (cfgPcmVol s.config))

/-- `DeriveVol` of a PCM voice, `(volL, volR)` (R251). -/
def derivePcmVol (s : State) (v : Voice) : F32 × F32 :=
  let g := pcmLevel s v
  let p := ctlPan (s.trkCtlOf v.track)
  (g.mul ((F32.ofInt (64 - p)).div (F32.ofNat 128)), g.mul ((F32.ofInt (64 + p)).div (F32.ofNat 128)))

/-- `volLut[16]` (43_cgb_channels R209). -/
def volLut : List Nat := [0, 0, 1, 1, 2, 2, 3, 3, 4, 4, 5, 5, 6, 6, 7, 7]

/-- The 4-bit volume index of a CGB voice: `(vol × vel) >> 10` (R252). -/
def cgbVolIndex (vol vel : Nat) : Nat := vol * vel / 1024

/-- The pan position of a CGB voice (R252). -/
def cgbPan (p : Int) : Pan :=
  if p ≤ -Config.panCgbThresh then .left else if Config.panCgbThresh ≤ p then .right else .centre

/-- The amplitude of a CGB voice (R252). -/
def cgbLevel (s : State) (v : Voice) : F32 :=
  let v4 := cgbVolIndex (ctlVol (s.trkCtlOf v.track)).toNat v.vel.toNat
  let peak := (F32.ofNat (volLut.getD v4 0)).div (F32.ofNat 7)
  peak.mul ((F32.ofNat v.envLevel.toNat).div (F32.ofNat 255))

/-- `DeriveVol` of a CGB voice: its new pan position and `(volL, volR)` (R252). -/
def deriveCgbVol (s : State) (v : Voice) : Pan × F32 × F32 :=
  let a := cgbLevel s v
  let pan := cgbPan (ctlPan (s.trkCtlOf v.track))
  (pan, if pan = .right then F32.zero else a, if pan = .left then F32.zero else a)

/-- `(v.volL, v.volR) <- DeriveVol(v)`, which also sets `v.pan` of a CGB voice (R133). -/
def setVolumes (s : State) (v : Voice) : Voice :=
  if v.isPcm then
    let d := derivePcmVol s v
    { v with volL := d.1, volR := d.2 }
  else
    let d := deriveCgbVol s v
    { v with pan := d.1, volL := d.2.1, volR := d.2.2 }

/-! ## TickEnvelope -/

/-- Whether a tick advances the state machine (R132, R133). -/
def tickAdvances (s : State) (v : Voice) : Bool :=
  v.envInterStep == 0 || (!v.isPcm && s.launch.cgbFour)

/-- The length in samples of the voice's interpolation interval that begins at sub-block `q` (R133, R134). -/
def rampLength (s : State) (q : Nat) (v : Voice) : Nat :=
  if v.isPcm || !s.launch.cgbFour then s.blockSamples
  else subBound s.blockSamples (q + 1) - subBound s.blockSamples q

/-- The start of an interval: the old targets become the `from` values (R133). -/
def latchFrom (v : Voice) : Voice :=
  { v with
      fromEnvLevel := v.envLevel
      fromVolL := v.volL
      fromVolR := v.volR
      fromPan := if v.isPcm then v.fromPan else v.pan }

/-- An instantaneous attack has no ramp: the new volumes are also the `from` volumes (R133). -/
def applyInstant (instant : Bool) (v : Voice) : Voice :=
  if instant then { v with fromVolL := v.volL, fromVolR := v.volR } else v

/-- The ramp over `n` samples from the `from` volumes to the targets (R133). -/
def startRamp (n : Nat) (v : Voice) : Voice :=
  { v with
      stepL := (v.volL.sub v.fromVolL).div (F32.ofNat n)
      stepR := (v.volR.sub v.fromVolR).div (F32.ofNat n)
      curL := v.fromVolL
      curR := v.fromVolR }

/-- An advancing tick, but for the count (R133). -/
def tickAdvance (s : State) (q : Nat) (v : Voice) : Voice :=
  let v1 := latchFrom v
  let v2 := setVolumes s (stepEnvelope s.launch v1)
  startRamp (rampLength s q v) (applyInstant (stepInstant v1) v2)

/-- `TickEnvelope(v, q)` (R133). -/
def tickEnvelope (s : State) (q : Nat) (v : Voice) : Voice :=
  let v1 := if tickAdvances s v then tickAdvance s q v else v
  { v1 with envInterStep := v1.envInterStep + 1 }

end Sys2Proof.Machine
end

