-- ==== Sys2Proof/Machine/Resampler.lean ====
section
/-!
DEFINITION. The sources of the voices (spec 42_pcm_channel R171 to R173; 43_cgb_channels R191, R192, R197, R198, R202 to
R205), the resampler over them (41_resampler R150 to R162), and the pitch laws (42_pcm_channel R174; 43_cgb_channels
R193, R199, R207).
-/

namespace Sys2Proof.Machine

/-! ## PCM (R171 to R173) -/

/-- The length in samples, as a number. -/
def PcmData.len (d : PcmData) : Nat := d.endPos.toNat

/-- `looping(v)` (R173). -/
def PcmData.looping (d : PcmData) : Bool := d.loopEnabled && decide (d.loopPos.toNat < d.endPos.toNat)

/-- The loop length `L = endPos − loopPos` (R172). -/
def PcmData.loopLen (d : PcmData) : Nat := d.endPos.toNat - d.loopPos.toNat

/-- `f32(s8(byte)) /. 128` (R171). -/
def sampleValue (b : Byte) : F32 := (F32.ofInt b.toInt).div (F32.ofNat 128)

/-- `smp_v(k)` (R171). -/
def pcmSample (s : State) (d : PcmData) (k : Nat) : F32 := sampleValue (s.memRead (d.base.toNat + k))

/-- `src_v(k)` of a PCM voice (R172). -/
def pcmSrc (s : State) (d : PcmData) (k : Int) : F32 :=
  if k < 0 then F32.zero
  else
    let n := k.toNat
    if n < d.len then pcmSample s d n
    else if d.looping then pcmSample s d (d.loopPos.toNat + (n - d.len) % d.loopLen)
    else F32.zero

/-- `Wrap_v` of a PCM voice (R173). -/
def pcmWrap (d : PcmData) (i : Nat) : Nat :=
  if i < d.len then i
  else if d.looping then d.loopPos.toNat + (i - d.len) % d.loopLen
  else d.len

/-! ## Square (R191, R192) -/

/-- The duty patterns, `true` for `+`, index 0 first (R191). -/
def dutyPattern : Duty → List Bool
  | .duty12 => [true, false, false, false, false, false, false, false]
  | .duty25 => [true, true, false, false, false, false, false, false]
  | .duty50 => [true, true, true, true, false, false, false, false]
  | .duty75 => [true, true, true, true, true, true, false, false]

/-- `+0.5` or `−0.5` (R192, R205). -/
def halfLevel (b : Bool) : F32 := if b then F32.half else F32.negHalf

/-- `src_v(k)` of a square voice (R192). -/
def squareSrc (duty : Duty) (k : Int) : F32 := halfLevel ((dutyPattern duty).getD (k % 8).toNat false)

/-! ## Wave (R197, R198) -/

/-- `f32(2n − 15) /. 15` (R197). -/
def nibbleValue (n : BitVec 4) : F32 := (F32.ofInt (2 * (n.toNat : Int) - 15)).div (F32.ofNat 15)

/-- Nibble `i` of the waveform at `waddr`, the high nibble of a byte first (20_memory R74). -/
def waveNibble (s : State) (waddr : Word) (i : Nat) : BitVec 4 :=
  let byte := s.memRead (waddr.toNat + i / 2)
  if i % 2 = 0 then byte.extractLsb' 4 4 else byte.extractLsb' 0 4

/-- `Unpack(waddr)` (R197). -/
def unpackWave (s : State) (waddr : Word) : Vector F32 32 :=
  Vector.ofFn fun i : Fin 32 => nibbleValue (waveNibble s waddr i)

/-- `src_v(k)` of a wave voice (R198). -/
def waveSrc (buf : Vector F32 32) (k : Int) : F32 := buf.get ⟨(k % 32).toNat, by omega⟩

/-! ## Noise (R202 to R205) -/

/-- The width of the LFSR (R202). -/
def lfsrWidth : NoisePattern → Nat
  | .fine => 15
  | .rough => 7

/-- The seed, all ones (R202). -/
def lfsrSeed (p : NoisePattern) : BitVec 15 := BitVec.ofNat 15 (2 ^ lfsrWidth p - 1)

/-- `LfsrStep` (R203, R204): a right shift, the feedback bit 0 xor bit 1 entering at the top bit. -/
def lfsrStep (p : NoisePattern) (x : BitVec 15) : BitVec 15 :=
  (x >>> 1) ||| ((BitVec.ofBool (x.getLsbD 0 ^^ x.getLsbD 1)).setWidth 15 <<< (lfsrWidth p - 1))

/-- `x_j`, the state after `j` steps from a state (R205). -/
def lfsrIter (p : NoisePattern) : Nat → BitVec 15 → BitVec 15
  | 0, x => x
  | j + 1, x => lfsrIter p j (lfsrStep p x)

/-- The period of the sequence (R205, R206). -/
def lfsrPeriod : NoisePattern → Nat
  | .fine => 32767
  | .rough => 127

/-- `x_j` from the seed (R205). -/
def lfsrAt (p : NoisePattern) (j : Nat) : BitVec 15 := lfsrIter p j (lfsrSeed p)

/-- `src_v(k)` of a noise voice (R205). -/
def noiseSrc (p : NoisePattern) (k : Int) : F32 :=
  halfLevel ((lfsrAt p (k % (lfsrPeriod p : Int)).toNat).getLsbD 0)

/-- The architectural register `lfsr` of a noise voice, `x_ipos` (10_state R52, R205). -/
def Voice.lfsr (v : Voice) : Option (BitVec 15) :=
  match v.source with
  | .pcm _ => none
  | .square _ _ => none
  | .wave _ => none
  | .noise p => some (lfsrAt p v.ipos.toNat)

/-! ## The source and the wrap of a voice -/

/-- `src_v(k)` (R152). -/
def Voice.src (s : State) (v : Voice) (k : Int) : F32 :=
  match v.source with
  | .pcm d => pcmSrc s d k
  | .square _ duty => squareSrc duty k
  | .wave buf => waveSrc buf k
  | .noise p => noiseSrc p k

/-- `Wrap_v(i)` (R160, R173). -/
def Voice.wrap (v : Voice) (i : Nat) : Nat :=
  match v.source with
  | .pcm d => pcmWrap d i
  | .square _ _ => i % 8
  | .wave _ => i % 32
  | .noise p => i % lfsrPeriod p

/-! ## The variants (R155 to R157) -/

/-- The index of the current source sample as an integer. -/
def Voice.index (v : Voice) : Int := v.ipos.toNat

/-- Nearest (R155). -/
def resampleNearest (s : State) (v : Voice) : F32 := v.src s v.index

/-- Linear (R156). -/
def resampleLinear (s : State) (v : Voice) : F32 :=
  let a := v.src s v.index
  let b := v.src s (v.index + 1)
  a.add ((b.sub a).mul v.fpos)

/-- Sinc, with the kernel's coefficients at `(fpos, phaseInc)` (R157). -/
def resampleSinc (s : State) (kernel : F32 → F32 → Nat → F32) (v : Voice) : F32 :=
  (List.range Config.sincTaps).foldl
    (fun acc k => acc.add ((kernel v.fpos v.phaseInc k).mul (v.src s (v.index - 7 + (k : Int))))) F32.zero

/-- The variant CONFIG.resamp selects; code 3 is refused by CFG (R154, R30). -/
def resampleConfigured (s : State) (v : Voice) : F32 :=
  if cfgResamp s.config = resampNearest then resampleNearest s v
  else if cfgResamp s.config = resampLinear then resampleLinear s v
  else resampleSinc s (sincKernel s.launch) v

/-- `Resample(v)` (R154, R159). -/
def resample (s : State) (v : Voice) : F32 :=
  match v.source with
  | .pcm _ => resampleConfigured s v
  | .square _ _ => resampleSinc s (blepKernel s.launch) v
  | .wave _ => resampleConfigured s v
  | .noise _ => resampleSinc s (sincKernel s.launch) v

/-- `Advance(v)` (R160). -/
def advanceVoice (v : Voice) : Voice :=
  let t := v.fpos.add v.phaseInc
  let c := t.floorNat
  { v with
      fpos := t.sub (F32.ofNat c)
      ipos := BitVec.ofNat 32 (v.wrap (v.ipos.toNat + c)) }

/-! ## Pitch laws -/

/-- `(rate ×. Exp2(f32(pitch) /. 1200)) /. f32(mixRate)`, the shape of the laws of R174, R193 and R199. -/
def pitchedInc (s : State) (rate : F32) (pitch : BitVec 16) : F32 :=
  (rate.mul (exp2 s.launch ((F32.ofInt (s16 pitch)).div (F32.ofNat 1200)))).div (F32.ofNat s.mixRate.toNat)

/-- `PcmPhaseInc(midCfreq, pitch)` (R174). -/
def pcmPhaseInc (s : State) (midCfreq : F32) (pitch : BitVec 16) : F32 := pitchedInc s midCfreq pitch

/-- `SqPhaseInc(pitch)` (R193). -/
def sqPhaseInc (s : State) (pitch : BitVec 16) : F32 := pitchedInc s (sqRate0 s.launch) pitch

/-- `WavePhaseInc(pitch)` (R199). -/
def wavePhaseInc (s : State) (pitch : BitVec 16) : F32 := pitchedInc s (waveRate0 s.launch) pitch

/-- `NoisePhaseInc(pitch)` (R207). -/
def noisePhaseInc (s : State) (pitch : BitVec 16) : F32 :=
  (noiseRate s.launch pitch).div (F32.ofNat s.mixRate.toNat)

/-- The `phaseInc` SETPITCH computes for a voice, by its kind (R175). -/
def Voice.phaseIncAt (s : State) (v : Voice) (pitch : BitVec 16) : F32 :=
  match v.source with
  | .pcm d => pcmPhaseInc s d.midCfreq pitch
  | .square _ _ => sqPhaseInc s pitch
  | .wave _ => wavePhaseInc s pitch
  | .noise _ => noisePhaseInc s pitch

end Sys2Proof.Machine
end

