-- ==== Sys2Proof/Machine/Alloc.lean ====
section
/-!
DEFINITION. Voice allocation (spec 44_voice_allocation R224 to R231): what the four NOTEON commands share.
-/

namespace Sys2Proof.Machine

/-- The record of a new voice (R231). -/
def newVoice (source : Source) (trk : BitVec 4) (key vel : Byte) (adsr : Adsr) (pp : PitchPrio) (phaseInc : F32) : Voice where
  source := source
  track := trk
  key := low7 key
  vel := low7 vel
  prio := pp.prio
  adsr := adsr
  eState := .init
  envLevel := 0
  fromEnvLevel := 0
  envPeak := 0
  envInterStep := 0
  fastRelease := false
  pitch := pp.pitch
  phaseInc := phaseInc
  ipos := 0
  fpos := F32.zero
  volL := F32.zero
  volR := F32.zero
  fromVolL := F32.zero
  fromVolR := F32.zero
  curL := F32.zero
  curR := F32.zero
  stepL := F32.zero
  stepR := F32.zero
  pan := .centre
  fromPan := .centre

/-- `CreateVoice`: the record goes to the end of the pool (R231). -/
def State.createVoice (s : State) (v : Voice) : State := { s with pool := s.pool ++ [v] }

/-- `CgbPreempt(trk, kind)` (R224). -/
def State.cgbPreempt (s : State) (trk : BitVec 4) (kind : Kind) : State :=
  { s with
      pool := s.pool.map fun v =>
        if v.track == trk && v.kind == kind && v.eState != .dead then releaseVoice true v else v }

/-- `DropNote(sub)` (R227). -/
def State.dropNote (s : State) (e : ErrSub) (trk : BitVec 4) : State := s.takeError e trk 0

/-- The pool holds fewer than `POOL_MAX` voices (R229). -/
def State.poolHasRoom (s : State) : Bool :=
  match s.launch.poolMax with
  | none => true
  | some m => decide (s.pool.length < m)

/-- `if PoolHasRoom(): CreateVoice(v)`, the note dropped otherwise (R229). -/
def State.placeVoice (s : State) (v : Voice) : State :=
  if s.poolHasRoom then s.createVoice v else s.dropNote .poolFull v.track

/-! ## The PCM polyphony budget (R225 to R228) -/

/-- A candidate for preemption by a PCM note of priority `prio` (R226). -/
def Voice.evictable (prio : Byte) (v : Voice) : Bool :=
  v.isPcm && v.eState != .dead && (v.eState == .rel || decide (v.prio.toNat ≤ prio.toNat))

/-- `x` comes before `y` by the first two tests of R228, whatever their places in the pool. -/
def Voice.goesBefore (x y : Voice) : Bool :=
  if x.eState == .rel && y.eState != .rel then true
  else if x.eState != .rel && y.eState == .rel then false
  else decide (x.prio.toNat < y.prio.toNat)

/-- The victim and its place in the pool: the first candidate under the order of R228, the older of two equals. -/
def findVictim (prio : Byte) : List Voice → Option (Nat × Voice)
  | [] => none
  | v :: vs =>
    match findVictim prio vs with
    | none => if v.evictable prio then some (0, v) else none
    | some (i, w) => if v.evictable prio && !w.goesBefore v then some (0, v) else some (i + 1, w)

/-- `PolyphonyAdmit(prio)` and what NOTEON.PCM does on its answer: the voice is created, in a free place or in the
victim's, or the note is dropped (R170, R226, R227, R229). -/
def State.admitPcm (s : State) (v : Voice) : State :=
  if s.pcmCount < polyLimit s.poly then s.placeVoice v
  else
    match findVictim v.prio s.pool with
    | none => s.dropNote .poly v.track
    | some (i, _) => { s with pool := s.pool.eraseIdx i }.createVoice v

/-- A CGB note: preemption first, then the voice if the pool has room (R190, R196, R201). -/
def State.admitCgb (s : State) (v : Voice) : State := (s.cgbPreempt v.track v.kind).placeVoice v

end Sys2Proof.Machine
end

