-- ==== Sys2Proof/Machine/Noteon.lean ====
section
/-!
DEFINITION. The four commands that start a voice (spec 42_pcm_channel R170; 43_cgb_channels R190, R196, R201).
-/

namespace Sys2Proof.Machine

/-- The decode checks the NOTEON commands share, in the order of R340: configured, reserved bits of PP, track. -/
def noteonDecode (s : State) (trk : BitVec 4) (pp : PitchPrio) : List (Bool × ErrSub) :=
  needConfigured s ++ needZero (pp.rsvd == 0) ++ needTrack s trk

/-- KEYVEL of the NOTEON commands (R98, R332). -/
def noteonKeyVel (key vel : Byte) : List (Bool × ErrSub) := [(above127 key || above127 vel, .keyVel)]

/-- The record of the sample a NOTEON.PCM names (R49, R95). -/
def pcmData (loopEnabled : Bool) (base midc loopPos endPos : Word) : PcmData where
  base := base
  midCfreq := ⟨midc⟩
  loopEnabled := loopEnabled
  loopPos := loopPos
  endPos := endPos
  eos := false

/-- NOTEON.PCM's value checks in their order (R170). -/
def pcmChecks (s : State) (loopEnabled : Bool) (pp : PitchPrio) (base midc loopPos endPos : Word) :
    List (Bool × ErrSub) :=
  [(!(F32.isPosFinite ⟨midc⟩), .midc),
   (loopEnabled && decide (endPos.toNat < loopPos.toNat), .loopInv),
   (decide (s.launch.romSize < base.toNat + endPos.toNat), .smpRange),
   (!(pcmPhaseInc s ⟨midc⟩ pp.pitch).isFinite, .phase)]

/-- NOTEON.PCM (R170). -/
def execNoteonPcm (trk : BitVec 4) (loopEnabled : Bool) (key vel : Byte) (adsr : Adsr) (pp : PitchPrio)
    (base midc loopPos endPos : Word) (s : State) : Host.Outcome State Fault Refusal :=
  guarded s trk 7
    (noteonDecode s trk pp ++ noteonKeyVel key vel ++ pcmChecks s loopEnabled pp base midc loopPos endPos) fun s =>
      (s.admitPcm (newVoice (.pcm (pcmData loopEnabled base midc loopPos endPos)) trk key vel adsr pp
        (pcmPhaseInc s ⟨midc⟩ pp.pitch))).advance 7

/-- NOTEON.SQ (R190). -/
def execNoteonSq (trk : BitVec 4) (unit : SqUnit) (duty : Duty) (key vel : Byte) (adsr : Adsr) (pp : PitchPrio)
    (s : State) : Host.Outcome State Fault Refusal :=
  guarded s trk 3
    (noteonDecode s trk pp ++ noteonKeyVel key vel ++ [(!(sqPhaseInc s pp.pitch).isFinite, .phase)]) fun s =>
      (s.admitCgb (newVoice (.square unit duty) trk key vel adsr pp (sqPhaseInc s pp.pitch))).advance 3

/-- NOTEON.WAVE (R196). -/
def execNoteonWave (trk : BitVec 4) (key vel : Byte) (adsr : Adsr) (pp : PitchPrio) (waddr : Word)
    (s : State) : Host.Outcome State Fault Refusal :=
  guarded s trk 4
    (noteonDecode s trk pp ++ noteonKeyVel key vel ++
      [(decide (s.launch.romSize < waddr.toNat + 16), .wavRange),
       (!(wavePhaseInc s pp.pitch).isFinite, .phase)]) fun s =>
      (s.admitCgb (newVoice (.wave (unpackWave s waddr)) trk key vel adsr pp (wavePhaseInc s pp.pitch))).advance 4

/-- NOTEON.NOISE (R201). -/
def execNoteonNoise (trk : BitVec 4) (pattern : NoisePattern) (key vel : Byte) (adsr : Adsr) (pp : PitchPrio)
    (s : State) : Host.Outcome State Fault Refusal :=
  guarded s trk 3
    (noteonDecode s trk pp ++ noteonKeyVel key vel ++ [(!(noisePhaseInc s pp.pitch).isFinite, .phase)]) fun s =>
      (s.admitCgb (newVoice (.noise pattern) trk key vel adsr pp (noisePhaseInc s pp.pitch))).advance 3

end Sys2Proof.Machine
end

