-- ==== Sys2Proof/Machine/Reverb.lean ====
section
/-!
DEFINITION. The reverb tail processor (spec 46_reverb R281 to R285): per track, a delay line of `D = B` stereo outputs.
-/

namespace Sys2Proof.Machine

/-- A stereo sample, left first (R55). -/
abbrev Stereo := F32 × F32

def silence : Stereo := (F32.zero, F32.zero)

/-- The entry of a delay line at an index. -/
def RevLine.entry (l : RevLine) (i : Nat) : Stereo := l.line.getD i silence

/-- The output `y` stored at `revPos`, and `revPos` moved on by one modulo `D` (R282). -/
def RevLine.push (l : RevLine) (d : Nat) (y : Stereo) : RevLine :=
  { line := l.line.set l.pos y, pos := (l.pos + 1) % d }

/-- The NORMAL gain `g = f32(engineRev) /. 256` (R283). -/
def normalGain (engineRev : BitVec 7) : F32 := (F32.ofNat engineRev.toNat).div (F32.ofNat Config.revDiv)

/-- One output sample of NORMAL (R283). -/
def normalSample (g : F32) (l : RevLine) (x : Stereo) : Stereo :=
  let e := l.entry l.pos
  (x.1.add (g.mul e.1), x.2.add (g.mul e.2))

/-- The entry `d_k` samples ago (R285). -/
def RevLine.delayed (l : RevLine) (d delay : Nat) : Stereo :=
  l.entry (((l.pos : Int) + d - delay) % (d : Int)).toNat

/-- What one tap adds (R285). -/
def tapSample (l : RevLine) (d : Nat) (acc : Stereo) (t : Tap) : Stereo :=
  let e := l.delayed d t.delay
  (acc.1.add ((t.ll.mul e.1).add (t.lr.mul e.2)), acc.2.add ((t.rl.mul e.1).add (t.rr.mul e.2)))

/-- One output sample of GS1, GS2 or MGAT: the taps in ascending order (R285). -/
def tapsSample (taps : List Tap) (d : Nat) (l : RevLine) (x : Stereo) : Stereo := taps.foldl (tapSample l d) x

/-- A variant run over a track's buffer in ascending order: outputs, and the line afterwards (R283, R285). -/
def runReverb (d : Nat) (sample : RevLine → Stereo → Stereo) : RevLine → List Stereo → List Stereo × RevLine
  | l, [] => ([], l)
  | l, x :: xs =>
    let y := sample l x
    let r := runReverb d sample (l.push d y) xs
    (y :: r.1, r.2)

/-- The taps of the configured variant. CFG has refused a variant whose taps are not given, so the empty list stands only
in states no run reaches (DESIGN CHOICE, safe, log 10). -/
def State.taps (s : State) : List Tap :=
  (revTapsOf s.launch (cfgRevType s.config) (cfgEngineRev s.config) s.blockSamples).getD []

/-- `Reverb(t, buf)` on a track's line (R281): NONE R284, NORMAL R283, GS1, GS2 and MGAT R285. -/
def reverb (s : State) (l : RevLine) (buf : List Stereo) : List Stereo × RevLine :=
  if cfgRevType s.config = revNone then (buf, l)
  else if cfgRevType s.config = revNormal then
    runReverb s.blockSamples (normalSample (normalGain (cfgEngineRev s.config))) l buf
  else runReverb s.blockSamples (tapsSample s.taps s.blockSamples) l buf

end Sys2Proof.Machine
end

