-- ==== Sys2Proof/Machine/Process.lean ====
section
/-!
DEFINITION. PROCESS, one frame (spec 45_stream_generator R244 to R249; 42_pcm_channel R178). The inputs that PROCESS
reads and does not change (sample memory, launch record, CONFIG, BUFCNT, TRKCTL) are taken from the state
it starts in.
-/

namespace Sys2Proof.Machine

/-! ## Rendering a voice -/

/-- A PCM voice at end of stream (R178). -/
def Voice.atEnd (v : Voice) : Bool :=
  match v.source with
  | .pcm d => !d.looping && decide (d.len ≤ v.ipos.toNat)
  | .square _ _ => false
  | .wave _ => false
  | .noise _ => false

/-- `eos` of a PCM voice; the other kinds have none (R49). -/
def Voice.eos (v : Voice) : Bool :=
  match v.source with
  | .pcm d => d.eos
  | .square _ _ => false
  | .wave _ => false
  | .noise _ => false

/-- `v.eos <- 1`. -/
def Voice.setEos (v : Voice) : Voice :=
  match v.source with
  | .pcm d => { v with source := .pcm { d with eos := true } }
  | .square _ _ => v
  | .wave _ => v
  | .noise _ => v

/-- What end of stream does to a voice, once (R178). -/
def endStream (v : Voice) : Voice := if v.atEnd && !v.eos then releaseVoice true v.setEos else v

/-- The source value of the next output sample (R246). -/
def outputValue (s : State) (v : Voice) : F32 := if v.atEnd then F32.zero else resample s v

/-- The volumes move one step along the ramp (R246). -/
def stepVolumes (v : Voice) : Voice := { v with curL := v.curL.add v.stepL, curR := v.curR.add v.stepR }

/-- What the voice adds to its track's buffer at the next output index (R246). -/
def contribution (s : State) (v : Voice) : Stereo :=
  let x := outputValue s v
  (x.mul v.curL, x.mul v.curR)

/-- The voice after one output sample (R246). -/
def afterSample (v : Voice) : Voice := advanceVoice (stepVolumes (endStream v))

/-- `Render(v, lo, hi)` for `n = hi − lo` output samples: what the voice adds at each index, and the voice after them
(R246). -/
def renderVoice (s : State) : Nat → Voice → List Stereo × Voice
  | 0, v => ([], v)
  | n + 1, v =>
    let r := renderVoice s n (afterSample v)
    (contribution s v :: r.1, r.2)

/-! ## Mixing -/

/-- `a +. b` on both sides. -/
def addStereo (a b : Stereo) : Stereo := (a.1.add b.1, a.2.add b.2)

/-- A buffer with contributions added from index `lo` on (R246). -/
def mixInto : Nat → List Stereo → List Stereo → List Stereo
  | _, _, [] => []
  | 0, [], b :: bs => b :: bs
  | 0, c :: cs, b :: bs => addStereo b c :: mixInto 0 cs bs
  | lo + 1, cs, b :: bs => b :: mixInto lo cs bs

/-- The rendering of the pool in pool order into the tracks' buffers, for `n` samples from index `lo` on (R245, R246). -/
def renderPool (s : State) (lo n : Nat) : List Voice → List (List Stereo) → List Voice × List (List Stereo)
  | [], bufs => ([], bufs)
  | v :: vs, bufs =>
    let r := renderVoice s n v
    let rest := renderPool s lo n vs (bufs.modify v.track.toNat (mixInto lo r.1))
    (r.2 :: rest.1, rest.2)

/-- Sub-block `q`: every voice is ticked, then every voice is rendered (R245). -/
def subBlock (s : State) (pb : List Voice × List (List Stereo)) (q : Nat) : List Voice × List (List Stereo) :=
  let lo := subBound s.blockSamples q
  renderPool s lo (subBound s.blockSamples (q + 1) - lo) (pb.1.map (tickEnvelope s q)) pb.2

/-- The zeroed buffers of the tracks (R245). -/
def zeroBuffers (s : State) : List (List Stereo) :=
  List.replicate s.trackLimit (List.replicate s.blockSamples silence)

/-- The four sub-blocks: the pool and the tracks' buffers before reverb (R245). -/
def produceFrame (s : State) : List Voice × List (List Stereo) :=
  [0, 1, 2, 3].foldl (subBlock s) (s.pool, zeroBuffers s)

/-- `MixMaster(out)`: the tracks summed in ascending order from `+0.0` (R248). -/
def mixMaster (b : Nat) (outs : List (List Stereo)) : List Stereo :=
  outs.foldl (fun m o => List.zipWith addStereo m o) (List.replicate b silence)

/-- A buffer as it stands in a frame: left at the even index, right at the odd (R55, R62). -/
def interleave (buf : List Stereo) : List F32 := buf.flatMap fun x => [x.1, x.2]

/-- The reverb of every track in ascending order: outputs and lines (R245, R281). -/
def reverbTracks (s : State) (bufs : List (List Stereo)) : List (List Stereo × RevLine) :=
  (List.range s.trackLimit).map fun t =>
    reverb s (s.rev.getD t { line := [], pos := 0 }) (bufs.getD t [])

/-- The frame of the tracks' outputs and their master (R249). -/
def frameOf (b : Nat) (outs : List (List Stereo)) : Frame :=
  { out := outs.map interleave, master := interleave (mixMaster b outs) }

/-- The body of PROCESS (R245) and its `cp <- cp + 1` (R244). -/
def processFrame (s : State) : State :=
  let pb := produceFrame s
  let rs := reverbTracks s pb.2
  { s with
      pool := pb.1.filter fun v => v.eState != .dead
      rev := rs.map (·.2)
      audio := s.audio ++ [frameOf s.blockSamples (rs.map (·.1))]
      cp := s.cp + 1 }

/-! ## The command -/

/-- Every sample a voice can read is inside sample memory (R72, R76). -/
def Voice.inMemory (s : State) (v : Voice) : Bool :=
  match v.source with
  | .pcm d => decide (d.base.toNat + d.endPos.toNat ≤ s.launch.romSize)
  | .square _ _ => true
  | .wave _ => true
  | .noise _ => true

/-- No voice of the pool reaches outside sample memory. -/
def State.samplesInMemory (s : State) : Bool := s.pool.all fun v => v.inMemory s

/-- PROCESS (R244). A state whose pool reaches outside sample memory, which no run reaches, stops (DESIGN CHOICE,
safe, log 9). -/
def execProcess (s : State) : Host.Outcome State Fault Refusal :=
  match firstError (needConfigured s) with
  | some e => .next (s.takeError e 0 1)
  | none => if s.samplesInMemory then .next (processFrame s) else .fault .sampleOutsideMemory

end Sys2Proof.Machine
end

