-- ==== Sys2Proof/Machine/System.lean ====
section
/-!
DEFINITION. The system commands (spec 45_stream_generator R240 to R242, R260 to R262; 60_exceptions R346): NOP, CFG, RESET, ENDED,
GETBUF, RDREG.
-/

namespace Sys2Proof.Machine

/-- NOP (R240). -/
def execNop (s : State) : Host.Outcome State Fault Refusal := .next (s.advance 1)

/-- The mix rate a CONFIG word selects, 0 where it selects none (R10). -/
def cfgMixRate (s : State) (c : Word) : Word := (mixRateOf s.launch (cfgEngineFreq c)).getD 0

/-- `B` under a CONFIG word (R12, R241). -/
def cfgBlock (s : State) (c : Word) : Nat := blockSamplesOf (cfgMixRate s c)

/-- The checks of CFG in their order (R241, R336, R340). -/
def cfgChecks (s : State) (c p : Word) : List (Bool × ErrSub) :=
  [(s.configured, .reCfg),
   (cfgReserved c != 0 || polyReserved p != 0, .cfgRsvd),
   ((mixRateOf s.launch (cfgEngineFreq c)).isNone, .badFreq),
   (decide (4 < (cfgRevType c).toNat), .badRev),
   (cfgResamp c == 3, .badResamp),
   (cfgTrackLimit c == 0 || decide (Config.trackMax < (cfgTrackLimit c).toNat), .badTracks),
   (decide (cfgBlock s c < 4), .blockSmall),
   (revUsesTaps (cfgRevType c) && (revTapsOf s.launch (cfgRevType c) (cfgEngineRev c) (cfgBlock s c)).isNone, .noRevParam)]

/-- A reverb line as CFG creates it: `B` entries `(+0.0, +0.0)`, index 0 (R56, R241). -/
def freshLine (b : Nat) : RevLine := { line := List.replicate b (F32.zero, F32.zero), pos := 0 }

/-- The effect of a successful CFG (R241). -/
def cfgEffect (c p : Word) (s : State) : State :=
  { s with
      config := c
      poly := p
      mixRate := cfgMixRate s c
      bufCnt := BitVec.ofNat 32 (cfgBlock s c)
      rev := List.replicate (cfgTrackLimit c).toNat (freshLine (cfgBlock s c))
      status := setBit s.status statusConfiguredBit
      cp := s.cp + 3 }

/-- CFG (R241). -/
def execCfg (config poly : Word) (s : State) : Host.Outcome State Fault Refusal :=
  guarded s 0 3 (cfgChecks s config poly) (cfgEffect config poly)

/-- RESET (R242). -/
def execReset (s : State) : Host.Outcome State Fault Refusal :=
  guarded s 0 1 (needConfigured s) fun s => { s with pool := [] }.advance 1

/-- ENDED (R260). -/
def execEnded (s : State) : Host.Outcome State Fault Refusal :=
  guarded s 0 1 (needConfigured s) fun s => (s.respond (if s.ended then 1 else 0)).advance 1

/-- GETBUF (R261). -/
def execGetbuf (s : State) : Host.Outcome State Fault Refusal :=
  guarded s 0 1 (needConfigured s) fun s => (s.respond s.bufCnt).advance 1

/-- RDREG (R262). -/
def execRdreg (reg : Byte) (s : State) : Host.Outcome State Fault Refusal :=
  guarded s 0 1 [((s.readCR reg.toNat).isNone, .badReg)] fun s =>
    (s.respond ((s.readCR reg.toNat).getD 0)).advance 1

end Sys2Proof.Machine
end

