-- ==== Sys2Proof/Machine/TrackCtl.lean ====
section
/-!
DEFINITION. The commands that act on a track and its voices (spec 42_pcm_channel R175; 45_stream_generator R250, R259;
40_envelope R131): SETPITCH, SETVOL, RELEASE, TRKFINE.
-/

namespace Sys2Proof.Machine

/-- KEYVEL of SETPITCH and RELEASE: a key above 127 that is to be compared (R104, R332). -/
def needKey (anykey : Bool) (key : Byte) : List (Bool × ErrSub) := [(!anykey && above127 key, .keyVel)]

/-- A voice under SETPITCH: unselected as it is, re-pitched, or none where the new `phaseInc` is not finite (R175). -/
def repitch (s : State) (trk : BitVec 4) (anykey : Bool) (key : Byte) (pitch : BitVec 16) (v : Voice) : Option Voice :=
  if v.selected trk anykey key then
    let ph := v.phaseIncAt s pitch
    if ph.isFinite then some { v with pitch := pitch, phaseInc := ph } else none
  else some v

/-- The loop of SETPITCH and what follows it: a voice that cannot be re-pitched is removed, and then one DataError PHASE is
taken for the track (R175). -/
def setpitchEffect (trk : BitVec 4) (anykey : Bool) (key : Byte) (pitch : BitVec 16) (s : State) : State :=
  let t := { s with pool := s.pool.filterMap (repitch s trk anykey key pitch) }
  if s.pool.any (fun v => (repitch s trk anykey key pitch v).isNone) then t.takeError .phase trk 2
  else t.advance 2

/-- SETPITCH (R175). -/
def execSetpitch (trk : BitVec 4) (anykey : Bool) (key : Byte) (pitch : PitchWord) (s : State) :
    Host.Outcome State Fault Refusal :=
  guarded s trk 2
    (needConfigured s ++ needZero (pitch.rsvd == 0) ++ needTrack s trk ++ needKey anykey key)
    (setpitchEffect trk anykey key pitch.pitch)

/-- TRKCTL[trk] written (R40). -/
def State.setTrkCtl (s : State) (trk : BitVec 4) (w : Word) : State :=
  { s with trkCtl := s.trkCtl.set trk.toNat w trk.isLt }

/-- SETVOL (R250). -/
def execSetvol (trk : BitVec 4) (vol pan : Byte) (s : State) : Host.Outcome State Fault Refusal :=
  guarded s trk 1
    (needConfigured s ++ needTrack s trk ++ [(above127 vol, .volPan), (panIllegal pan, .volPan)]) fun s =>
      (s.setTrkCtl trk (trkCtlWord vol pan)).advance 1

/-- The pool with the selected voices released (R131). -/
def releasePool (trk : BitVec 4) (fast anykey : Bool) (key : Byte) (pool : List Voice) : List Voice :=
  pool.map fun v => if v.selected trk anykey key then releaseVoice fast v else v

/-- RELEASE (R131). -/
def execRelease (trk : BitVec 4) (fast anykey : Bool) (key : Byte) (s : State) : Host.Outcome State Fault Refusal :=
  guarded s trk 1 (needConfigured s ++ needTrack s trk ++ needKey anykey key) fun s =>
    { s with pool := releasePool trk fast anykey key s.pool }.advance 1

/-- TRKFINE (R259). -/
def execTrkfine (trk : BitVec 4) (fine : Bool) (s : State) : Host.Outcome State Fault Refusal :=
  guarded s trk 1 (needConfigured s ++ needTrack s trk) fun s =>
    { s with trkFine := assignBit s.trkFine trk.toNat fine }.advance 1

end Sys2Proof.Machine
end

