-- ==== Sys2Proof/Machine/Dispatch.lean ====
section
/-!
DEFINITION. The dispatch: one arm per command, each one direct call of its meaning (spec 30_encoding R100).
-/

namespace Sys2Proof.Machine

def exec (i : Instr) (s : State) : Host.Outcome State Fault Refusal :=
  match i with
  | .nop => Sys2Proof.Machine.execNop s
  | .cfg config poly => Sys2Proof.Machine.execCfg config poly s
  | .reset => Sys2Proof.Machine.execReset s
  | .noteonPcm trk loopEnabled key vel adsr pp base midc loopPos endPos => Sys2Proof.Machine.execNoteonPcm trk loopEnabled key vel adsr pp base midc loopPos endPos s
  | .noteonSq trk unit duty key vel adsr pp => Sys2Proof.Machine.execNoteonSq trk unit duty key vel adsr pp s
  | .noteonWave trk key vel adsr pp waddr => Sys2Proof.Machine.execNoteonWave trk key vel adsr pp waddr s
  | .noteonNoise trk pattern key vel adsr pp => Sys2Proof.Machine.execNoteonNoise trk pattern key vel adsr pp s
  | .setpitch trk anykey key pitch => Sys2Proof.Machine.execSetpitch trk anykey key pitch s
  | .setvol trk vol pan => Sys2Proof.Machine.execSetvol trk vol pan s
  | .release trk fast anykey key => Sys2Proof.Machine.execRelease trk fast anykey key s
  | .trkfine trk fine => Sys2Proof.Machine.execTrkfine trk fine s
  | .process => Sys2Proof.Machine.execProcess s
  | .ended => Sys2Proof.Machine.execEnded s
  | .getbuf => Sys2Proof.Machine.execGetbuf s
  | .rdreg reg => Sys2Proof.Machine.execRdreg reg s

end Sys2Proof.Machine
end

