-- ==== Sys2Proof/Decode.lean ====
section
/-!
DEFINITION. The command formats (spec 30_encoding R90 to R102, R108, R113): the opcode table, the decoder from
the words of the command stream, and the encoder. The decoder is total and rejects by name.
-/

namespace Sys2Proof

/-! ## The opcode table -/

/-- The fifteen opcodes of R100. -/
inductive Opcode where
  | nop
  | cfg
  | reset
  | noteonPcm
  | noteonSq
  | noteonWave
  | noteonNoise
  | setpitch
  | setvol
  | release
  | trkfine
  | process
  | ended
  | getbuf
  | rdreg
deriving DecidableEq, Repr

/-- One row of the table of R100: the total length in words, and which headers select the row. -/
structure OpRow where
  opcode : Opcode
  words : Nat
  pattern : Word
  mask : Word
deriving DecidableEq, Repr

/-- The opcode table of R100, in its order. -/
def opTable : List OpRow :=
  [⟨.nop, 1, 0x00000000#32, 0xFFFFFFFF#32⟩,
   ⟨.cfg, 3, 0x01000000#32, 0xFFFFFFFF#32⟩,
   ⟨.reset, 1, 0x02000000#32, 0xFFFFFFFF#32⟩,
   ⟨.noteonPcm, 7, 0x10000000#32, 0xFF0E0000#32⟩,
   ⟨.noteonSq, 3, 0x11000000#32, 0xFF080000#32⟩,
   ⟨.noteonWave, 4, 0x12000000#32, 0xFF0F0000#32⟩,
   ⟨.noteonNoise, 3, 0x13000000#32, 0xFF0E0000#32⟩,
   ⟨.setpitch, 2, 0x20000000#32, 0xFF0E00FF#32⟩,
   ⟨.setvol, 1, 0x21000000#32, 0xFF0F0000#32⟩,
   ⟨.release, 1, 0x22000000#32, 0xFF0C00FF#32⟩,
   ⟨.trkfine, 1, 0x23000000#32, 0xFF0EFFFF#32⟩,
   ⟨.process, 1, 0x30000000#32, 0xFFFFFFFF#32⟩,
   ⟨.ended, 1, 0x31000000#32, 0xFFFFFFFF#32⟩,
   ⟨.getbuf, 1, 0x32000000#32, 0xFFFFFFFF#32⟩,
   ⟨.rdreg, 1, 0x33000000#32, 0xFFFFFF00#32⟩]

/-- A header `h` selects a row iff `h & mask = match` (R100). -/
def OpRow.selects (r : OpRow) (h : Word) : Bool := h &&& r.mask == r.pattern

/-- The row a header selects; none for an illegal command (R108). -/
def headerRow (h : Word) : Option OpRow := opTable.find? (·.selects h)

/-! ## Fields -/

/-- Header field `trk`, bits 23:20 (R91). -/
def headerTrk (h : Word) : BitVec 4 := h.extractLsb' 20 4

/-- Header flag `f[i]`, bit 16 + i (R91). -/
def headerFlag (h : Word) (i : Nat) : Bool := h.getLsbD (16 + i)

/-- Header field `a`, bits 15:8 (R91). -/
def headerA (h : Word) : Byte := h.extractLsb' 8 8

/-- Header field `b`, bits 7:0 (R91). -/
def headerB (h : Word) : Byte := h.extractLsb' 0 8

/-- Operand word ADSR (R92). -/
def Adsr.ofWord (w : Word) : Adsr :=
  ⟨w.extractLsb' 24 8, w.extractLsb' 16 8, w.extractLsb' 8 8, w.extractLsb' 0 8⟩

def Adsr.toWord (x : Adsr) : Word := x.att ++ x.dec ++ x.sus ++ x.rel

/-- Operand word PP (R93). -/
def PitchPrio.ofWord (w : Word) : PitchPrio :=
  ⟨w.extractLsb' 24 8, w.extractLsb' 16 8, w.extractLsb' 0 16⟩

def PitchPrio.toWord (x : PitchPrio) : Word := x.rsvd ++ x.prio ++ x.pitch

/-- Operand word PITCH (R94). -/
def PitchWord.ofWord (w : Word) : PitchWord := ⟨w.extractLsb' 16 16, w.extractLsb' 0 16⟩

def PitchWord.toWord (x : PitchWord) : Word := x.rsvd ++ x.pitch

/-- Codes 0 to 3 of `f[1:0]`, given as `f[1]` and `f[0]` (R102). -/
def Duty.ofFlags : Bool → Bool → Duty
  | false, false => .duty12
  | false, true => .duty25
  | true, false => .duty50
  | true, true => .duty75

def Duty.code : Duty → BitVec 2
  | .duty12 => 0
  | .duty25 => 1
  | .duty50 => 2
  | .duty75 => 3

def SqUnit.ofFlag : Bool → SqUnit
  | false => .sq1
  | true => .sq2

def SqUnit.code : SqUnit → BitVec 1
  | .sq1 => 0
  | .sq2 => 1

def NoisePattern.ofFlag : Bool → NoisePattern
  | false => .fine
  | true => .rough

def NoisePattern.code : NoisePattern → BitVec 1
  | .fine => 0
  | .rough => 1

/-! ## Decoding -/

/-- What the words from `cp` on decode to (R108, R113). -/
inductive Decoded where
  /-- A whole command and its length in words. -/
  | command (i : Instr) (words : Nat)
  /-- The header matches no row: an illegal command (R108). -/
  | illegal
  /-- A legal header whose operand words are not all present (R113). -/
  | truncated
  /-- There is no word at `cp` (R113). -/
  | empty
deriving DecidableEq, Repr

/-- The command of a row, from its header `h` and its operand words `ops` (R91 to R97, R100, R102). -/
def buildInstr (op : Opcode) (h : Word) (ops : List Word) : Instr :=
  let w (j : Nat) : Word := ops.getD j 0
  match op with
  | .nop => .nop
  | .cfg => .cfg (w 0) (w 1)
  | .reset => .reset
  | .noteonPcm => .noteonPcm (headerTrk h) (headerFlag h 0) (headerA h) (headerB h)
      (Adsr.ofWord (w 0)) (PitchPrio.ofWord (w 1)) (w 2) (w 3) (w 4) (w 5)
  | .noteonSq => .noteonSq (headerTrk h) (SqUnit.ofFlag (headerFlag h 2))
      (Duty.ofFlags (headerFlag h 1) (headerFlag h 0)) (headerA h) (headerB h)
      (Adsr.ofWord (w 0)) (PitchPrio.ofWord (w 1))
  | .noteonWave => .noteonWave (headerTrk h) (headerA h) (headerB h)
      (Adsr.ofWord (w 0)) (PitchPrio.ofWord (w 1)) (w 2)
  | .noteonNoise => .noteonNoise (headerTrk h) (NoisePattern.ofFlag (headerFlag h 0)) (headerA h) (headerB h)
      (Adsr.ofWord (w 0)) (PitchPrio.ofWord (w 1))
  | .setpitch => .setpitch (headerTrk h) (headerFlag h 0) (headerA h) (PitchWord.ofWord (w 0))
  | .setvol => .setvol (headerTrk h) (headerA h) (headerB h)
  | .release => .release (headerTrk h) (headerFlag h 1) (headerFlag h 0) (headerA h)
  | .trkfine => .trkfine (headerTrk h) (headerFlag h 0)
  | .process => .process
  | .ended => .ended
  | .getbuf => .getbuf
  | .rdreg => .rdreg (headerB h)

/-- Decoding of the words of the command stream from `cp` on: the header's row first, then whether all the
words of the command are present (R108, R113, R114). -/
def decode : List Word → Decoded
  | [] => .empty
  | h :: rest =>
    match headerRow h with
    | none => .illegal
    | some r =>
      if rest.length + 1 < r.words then .truncated
      else .command (buildInstr r.opcode h rest) r.words

/-! ## Encoding -/

/-- A header word from its five fields (R91). -/
def header (op : BitVec 8) (trk : BitVec 4) (f : BitVec 4) (a b : Byte) : Word := op ++ trk ++ f ++ a ++ b

/-- The words of a command (R91 to R97, R100, R102). -/
def encode : Instr → List Word
  | .nop => [header 0x00 0 0 0 0]
  | .cfg config poly => [header 0x01 0 0 0 0, config, poly]
  | .reset => [header 0x02 0 0 0 0]
  | .noteonPcm trk loopEnabled key vel adsr pp base midc loopPos endPos =>
      [header 0x10 trk (0#3 ++ BitVec.ofBool loopEnabled) key vel, adsr.toWord, pp.toWord, base, midc, loopPos, endPos]
  | .noteonSq trk unit duty key vel adsr pp =>
      [header 0x11 trk (0#1 ++ unit.code ++ duty.code) key vel, adsr.toWord, pp.toWord]
  | .noteonWave trk key vel adsr pp waddr =>
      [header 0x12 trk 0 key vel, adsr.toWord, pp.toWord, waddr]
  | .noteonNoise trk pattern key vel adsr pp =>
      [header 0x13 trk (0#3 ++ pattern.code) key vel, adsr.toWord, pp.toWord]
  | .setpitch trk anykey key pitch => [header 0x20 trk (0#3 ++ BitVec.ofBool anykey) key 0, pitch.toWord]
  | .setvol trk vol pan => [header 0x21 trk 0 vol pan]
  | .release trk fast anykey key =>
      [header 0x22 trk (0#2 ++ BitVec.ofBool fast ++ BitVec.ofBool anykey) key 0]
  | .trkfine trk fine => [header 0x23 trk (0#3 ++ BitVec.ofBool fine) 0 0]
  | .process => [header 0x30 0 0 0 0]
  | .ended => [header 0x31 0 0 0 0]
  | .getbuf => [header 0x32 0 0 0 0]
  | .rdreg reg => [header 0x33 0 0 0 reg]

/-- The opcode a command is encoded with (R100). -/
def Instr.opcode : Instr → Opcode
  | .nop => .nop
  | .cfg _ _ => .cfg
  | .reset => .reset
  | .noteonPcm _ _ _ _ _ _ _ _ _ _ => .noteonPcm
  | .noteonSq _ _ _ _ _ _ _ => .noteonSq
  | .noteonWave _ _ _ _ _ _ => .noteonWave
  | .noteonNoise _ _ _ _ _ _ => .noteonNoise
  | .setpitch _ _ _ _ => .setpitch
  | .setvol _ _ _ => .setvol
  | .release _ _ _ _ => .release
  | .trkfine _ _ => .trkfine
  | .process => .process
  | .ended => .ended
  | .getbuf => .getbuf
  | .rdreg _ => .rdreg

/-- The length in words of a command with this opcode (R90, R100). -/
def Opcode.words : Opcode → Nat
  | .nop | .reset | .setvol | .release | .trkfine | .process | .ended | .getbuf | .rdreg => 1
  | .setpitch => 2
  | .cfg | .noteonSq | .noteonNoise => 3
  | .noteonWave => 4
  | .noteonPcm => 7

/-! ## The host's numbering of a table word -/

/-- The seven words (the longest command) of an instruction whose bits are `w`, numbered from bit 0 of the
first word, with every bit from `nbits` on zero. -/
def tableWords (nbits w : Nat) : List Word :=
  (List.range 7).map fun j => BitVec.ofNat 32 ((w % 2 ^ nbits) >>> (32 * j))

/-- The instruction the decoder reads from an instruction whose bits are `w`. -/
def decodeTableWord (nbits w : Nat) : Option Instr :=
  match decode (tableWords nbits w) with
  | .command i _ => some i
  | .illegal => none
  | .truncated => none
  | .empty => none

end Sys2Proof
end

