-- ==== Sys2Proof/Machine/Fetch.lean ====
section
/-!
DEFINITION. Command fetch: the words of the command stream from `cp` on (spec 30_encoding R113; 20_memory R84).
-/

namespace Sys2Proof.Machine

/-- The words from `cp` on. -/
def State.fetchWords (s : State) : List Word := s.cmd.drop s.cp

/-- What stands at `cp` (R113). -/
def State.fetch (s : State) : Decoded := decode s.fetchWords

/-- The command stream with `ws` written from `cp` on; an index below `cp` that the stream does not hold becomes 0, and the
words after the written ones stay. -/
def State.placeWords (s : State) (ws : List Word) : State :=
  { s with
      cmd := s.cmd.take s.cp ++ List.replicate (s.cp - s.cmd.length) 0 ++ ws ++ s.cmd.drop (s.cp + ws.length) }

end Sys2Proof.Machine
end

