-- ==== Sys2Proof/Machine/Step.lean ====
section
/-!
DEFINITION. One step: the halted state, fetch and decode, then the command (spec 30_encoding R113, R114; 60_exceptions R340).
-/

namespace Sys2Proof.Machine

/-- One step of the pipeline, in the order of R340: a halted pipeline has none; an illegal header is the LogicError ILLOP
(R108); a missing word is waited for (R113); else the command runs. -/
def step (s : State) : Host.Outcome State Fault Refusal :=
  if s.halt then .fault .halted
  else
    match s.fetch with
    | .empty => .fault .noCommand
    | .illegal => .next (s.takeError .illOp 0 1)
    | .truncated => .fault .starved
    | .command i _ => exec i s

/-- `s` with the instruction of bits `w` (zero from bit `nbits` on, seven words) written at `cp` of the command stream: what
the host does when it loads a command (R84; DESIGN CHOICE, safe, log 12). -/
def State.withFetchWord (s : State) (nbits w : Nat) : State := s.placeWords (tableWords nbits w)

end Sys2Proof.Machine
end

