-- ==== Sys2Proof/Safety.lean ====
section
/-!
DEFINITION. What counts as a legal launch, a legal state and a safe run, in the terms the statements use
(spec 10_state R30 to R56; 70_reset_and_hazards R372; 46_reverb R285).
-/

namespace Sys2Proof.Machine

/-! ## Runs -/

/-- The states a run passes through from a given start. -/
inductive Reaches (start : State) : State → Prop
  | refl : Reaches start start
  | step {s t : State} : Reaches start s → step s = .next t → Reaches start t

/-- A launch: the reset state with the three inputs of R361 in place. -/
def launched (p : Launch) (m : Memory) (words : List Word) : State :=
  { State.reset with launch := p, mem := m, cmd := words }

/-- No error has happened since reset: no fatal error, no DataError, no dropped note (R34). -/
def State.clean (s : State) : Prop := s.halt = false ∧ s.dataErr = false ∧ s.drop = false

/-- A run is safe when it never halts (R372). -/
def SafeRun (start : State) : Prop := ∀ t, Reaches start t → t.halt = false

end Sys2Proof.Machine

namespace Sys2Proof

/-! ## Legal launch records (R10, R11, R17) -/

/-- A number that is not negative: no sign, or a zero. -/
def F32.unsigned (x : F32) : Bool := !x.sign || x.mag == 0

/-- A number that is finite and not negative. -/
def F32.nonneg (x : F32) : Bool := x.isFinite && x.unsigned

/-- Stated coefficients are finite at finite arguments (P-SINC). -/
def KernelChoice.legal (k : KernelChoice) : Bool :=
  k.rows.all (fun r => !(r.1.1.isFinite && r.1.2.isFinite) || r.2.toList.all F32.isFinite) &&
  k.others.all (fun coef => coef.toList.all F32.isFinite)

/-- Stated values of `Exp2` are finite and positive for `|x| ≤ 64` (P-EXP2). -/
def Launch.exp2Legal (p : Launch) : Bool := p.exp2.all fun r => !r.1.inExp2Range || r.2.isPosFinite

/-- What R10, R11 and R17 ask of the parameters a launch states. -/
def Launch.legal (p : Launch) : Bool :=
  decide (p.romSize ≤ 2 ^ 32) &&
  p.mixRate14.all (fun r => decide (r.toNat < 2 ^ 24)) &&
  p.mixRate15.all (fun r => decide (r.toNat < 2 ^ 24)) &&
  p.pcmGain.all (fun g => g.toList.all F32.nonneg) &&
  p.sqRate0.all F32.unsigned &&
  p.waveRate0.all F32.unsigned &&
  p.exp2Legal &&
  p.noiseRate.all (fun r => r.2.unsigned) &&
  p.sinc.legal &&
  p.blep.all KernelChoice.legal

end Sys2Proof

namespace Sys2Proof.Machine

/-- P-REVCONTRACT, the optional premise of R285 on a list of taps: the matrices' row sums add up to less than 1. -/
def revContract (taps : List Tap) : Bool :=
  decide ((taps.map fun t => max (t.ll.mag + t.lr.mag) (t.rl.mag + t.rr.mag)).sum < 2 ^ 149)

/-! ## Legal registers (R30 to R40) and reverb lines (R56, R282) -/

/-- A TRKCTL word as SETVOL writes it: bit 7 and bits 31:16 are 0, and the pan is in −64..63 (R40). -/
def trkCtlLegal (w : Word) : Bool :=
  !w.getLsbD 7 && decide (w.toNat < 2 ^ 16) && decide (-64 ≤ ctlPan w) && decide (ctlPan w ≤ 63)

/-- The reserved bits of the registers read 0, and STATUS stores no ENDED (R30 to R40). -/
abbrev State.reservedZero (s : State) : Prop :=
  s.config.toNat < 2 ^ 25 ∧ s.poly.toNat < 2 ^ 16 ∧
  s.status.toNat < 2 ^ 5 ∧ s.status.getLsbD 3 = false ∧
  s.errCause.toNat < 2 ^ 16 ∧ s.trkFine.toNat < 2 ^ 16 ∧ s.trkErr.toNat < 2 ^ 16 ∧
  s.trkCtl.toList.all trkCtlLegal = true

/-- A reverb line between commands: `D = B` entries, `revPos = 0` (R56, R282). -/
def RevLine.legal (b : Nat) (l : RevLine) : Bool := decide (l.line.length = b) && decide (l.pos = 0)

/-- A frame of `t` tracks and `2B` values a buffer (R62, R249). -/
def Frame.legal (t b : Nat) (f : Frame) : Bool :=
  decide (f.out.length = t) && f.out.all (fun o => decide (o.length = 2 * b)) && decide (f.master.length = 2 * b)

/-- What CFG leaves and nothing later changes (R12, R30, R32, R33, R56, R241). -/
abbrev State.configuredLegal (s : State) : Prop :=
  mixRateOf s.launch (cfgEngineFreq s.config) = some s.mixRate ∧
  s.blockSamples = blockSamplesOf s.mixRate ∧ 4 ≤ s.blockSamples ∧
  (cfgRevType s.config).toNat ≤ 4 ∧ cfgResamp s.config ≠ 3 ∧
  1 ≤ s.trackLimit ∧ s.trackLimit ≤ Config.trackMax ∧
  (revUsesTaps (cfgRevType s.config) = true →
    (revTapsOf s.launch (cfgRevType s.config) (cfgEngineRev s.config) s.blockSamples).isSome = true) ∧
  s.rev.length = s.trackLimit ∧ s.rev.all (RevLine.legal s.blockSamples) = true ∧
  s.audio.all (Frame.legal s.trackLimit s.blockSamples) = true

/-- Before CFG nothing is configured, sounding or emitted (R65, R336). -/
abbrev State.unconfiguredLegal (s : State) : Prop :=
  s.config = 0 ∧ s.poly = 0 ∧ s.mixRate = 0 ∧ s.bufCnt = 0 ∧ s.pool = [] ∧ s.rev = [] ∧ s.audio = []

/-- The registers, reverb lines and emitted frames are as the rules leave them. -/
abbrev State.registersLegal (s : State) : Prop :=
  s.reservedZero ∧
  (s.configured = true → s.configuredLegal) ∧
  (s.configured = false → s.unconfiguredLegal)

/-! ## Legal voices (R45 to R53) -/

/-- What a voice's source fields are, and the bound of `ipos` (R49, R51, R53 iv, R76). -/
def Voice.sourceLegal (romSize : Nat) (v : Voice) : Bool :=
  match v.source with
  | .pcm d =>
    decide (v.ipos.toNat ≤ d.endPos.toNat) && decide (d.base.toNat + d.endPos.toNat ≤ romSize) &&
    d.midCfreq.isPosFinite && (!d.loopEnabled || decide (d.loopPos.toNat ≤ d.endPos.toNat))
  | .square _ _ => decide (v.ipos.toNat < 8)
  | .wave buf =>
    decide (v.ipos.toNat < 32) &&
    buf.toList.all (fun x => (List.range 16).any fun n => x == nibbleValue (BitVec.ofNat 4 n))
  | .noise p => decide (v.ipos.toNat < lfsrPeriod p)

/-- The envelope of a voice between commands: level 0 in INIT, never DEAD, at or above `sus` in DEC, and
`envInterStep = 0` (R53 i and ii, R141, R225). -/
def Voice.envelopeLegal (v : Voice) : Bool :=
  (v.eState != .init || v.envLevel == 0) && v.eState != .dead &&
  (v.eState != .dec || decide (v.adsr.sus.toNat ≤ v.envLevel.toNat)) && v.envInterStep == 0

/-- `0 ≤ fpos < 1` and `phaseInc` finite and `≥ 0` (R47, R53 iii). -/
def Voice.positionLegal (v : Voice) : Bool :=
  F32.nonneg v.fpos && decide (v.fpos.mag < 2 ^ 149) && F32.nonneg v.phaseInc

/-- Every voice of the pool is on a track in use, with a legal source and envelope; there is none before CFG (R53). -/
abbrev State.poolLegal (s : State) : Prop :=
  (∀ v ∈ s.pool, v.track.toNat < s.trackLimit ∧ v.sourceLegal s.launch.romSize = true ∧ v.envelopeLegal = true) ∧
  (s.configured = false → s.pool = [])

/-- Every voice of the pool has a legal position (R47, R53 iii). -/
abbrev State.positionsLegal (s : State) : Prop := ∀ v ∈ s.pool, v.positionLegal = true

/-- Two voices that are not CGB voices of one track and kind both before REL (R53 v). -/
def Voice.compatible (v w : Voice) : Bool :=
  v.isPcm || v.track != w.track || v.kind != w.kind || !v.eState.beforeRel || !w.eState.beforeRel

/-- Per track and CGB kind at most one voice is before REL (R53 v, R222). -/
abbrev State.cgbUnique (s : State) : Prop := s.pool.Pairwise fun v w => v.compatible w = true

/-! ## The legal changes of `eState` (R129) -/

/-- The complete set of changes of `eState` by one envelope step, staying among them. -/
def EState.stepsTo : EState → EState → Bool
  | .init, .atk => true
  | .atk, .atk => true
  | .atk, .dec => true
  | .dec, .dec => true
  | .dec, .sus => true
  | .sus, .sus => true
  | .sus, .dead => true
  | .rel, .rel => true
  | .rel, .dead => true
  | .dead, .dead => true
  | _, _ => false

end Sys2Proof.Machine
end

