-- ==== Sys2Proof/WellFormed.lean ====
section
/-!
DEFINITION. Well-formedness of a command: every reserved field of its operand words is zero
(spec 30_encoding R93, R94, R97, R109; 10_state R30, R31). Every other field is legal at the encoding level for
every value its width admits: a value out of range is a DataError or a ConfigError of the machine,
not an illegal encoding (R98).
-/

namespace Sys2Proof

/-- The reserved bits 31:24 of PP are zero (R93). -/
def PitchPrio.wf (pp : PitchPrio) : Bool := pp.rsvd == 0

/-- The reserved bits 31:16 of PITCH are zero (R94). -/
def PitchWord.wf (p : PitchWord) : Bool := p.rsvd == 0

/-- The reserved bits 31:25 of CONFIG are zero (R30). -/
def configWordWf (c : Word) : Bool := c.extractLsb' 25 7 == 0

/-- The reserved bits 31:16 of POLY are zero (R31). -/
def polyWordWf (p : Word) : Bool := p.extractLsb' 16 16 == 0

/-- A command whose reserved operand bits are all zero (R109). -/
def Instr.wf : Instr → Bool
  | .nop => true
  | .cfg config poly => configWordWf config && polyWordWf poly
  | .reset => true
  | .noteonPcm _ _ _ _ _ pp _ _ _ _ => pp.wf
  | .noteonSq _ _ _ _ _ _ pp => pp.wf
  | .noteonWave _ _ _ _ pp _ => pp.wf
  | .noteonNoise _ _ _ _ _ pp => pp.wf
  | .setpitch _ _ _ pitch => pitch.wf
  | .setvol _ _ _ => true
  | .release _ _ _ _ => true
  | .trkfine _ _ => true
  | .process => true
  | .ended => true
  | .getbuf => true
  | .rdreg _ => true

end Sys2Proof
end

