-- ==== Sys2Proof/Certificates/Slice0/Obligations.lean ====
section
/-!
DEFINITION. The statements about the model, each `def Obligations.<Name> : Prop`, with the few words they share: the states
that the error entries of spec 60_exceptions R333 to R338 lead to, the operand conditions of the NOTEON commands, and the
view of PROCESS voice by voice.
-/

namespace Sys2Proof.Machine

/-! ## Words the statements share -/

/-- The state after a fatal error with this ERRCAUSE (R333, R337): HALT set, `cp` and everything else as before. -/
def afterFatal (s : State) (cause : Nat) : State :=
  { s with status := s.status ||| 0x00000002#32, errCause := BitVec.ofNat 32 cause, errInfo := BitVec.ofNat 32 s.cp }

/-- The state after a DataError of sub-cause `sub` charged to track `trk` by a command of `n` words (R333, R338): DATAERR and
the track's bits of TRKERR and TRKFINE set, `cp` past the command, everything else as before. -/
def afterDataError (s : State) (sub : Nat) (trk : BitVec 4) (n : Nat) : State :=
  { s with
      status := s.status ||| 0x00000010#32
      errCause := BitVec.ofNat 32 (2 + 16 * sub + 4096 * trk.toNat)
      errInfo := BitVec.ofNat 32 s.cp
      trkErr := s.trkErr ||| BitVec.twoPow 32 trk.toNat
      trkFine := s.trkFine ||| BitVec.twoPow 32 trk.toNat
      cp := s.cp + n }

/-- The state after a note of a command of `n` words on track `trk` was dropped (R227, R333): DROP set, `cp` past the command,
everything else as before. -/
def afterDrop (s : State) (sub : Nat) (trk : BitVec 4) (n : Nat) : State :=
  { s with
      status := s.status ||| 0x00000004#32
      errCause := BitVec.ofNat 32 (4 + 16 * sub + 4096 * trk.toNat)
      errInfo := BitVec.ofNat 32 s.cp
      cp := s.cp + n }

/-- The track a command names, for the commands that use `trk` (R100). -/
def trackOf : Instr → Option (BitVec 4)
  | .nop | .cfg _ _ | .reset | .process | .ended | .getbuf | .rdreg _ => none
  | .noteonPcm trk _ _ _ _ _ _ _ _ _ => some trk
  | .noteonSq trk _ _ _ _ _ _ => some trk
  | .noteonWave trk _ _ _ _ _ => some trk
  | .noteonNoise trk _ _ _ _ _ => some trk
  | .setpitch trk _ _ _ => some trk
  | .setvol trk _ _ => some trk
  | .release trk _ _ _ => some trk
  | .trkfine trk _ => some trk

/-- The decode checks of a command that names a track, passed (R114, R336, R340): configured, the track in use. -/
def trackReady (s : State) (trk : BitVec 4) : Prop := s.configured = true ∧ trk.toNat < s.trackLimit

/-- The decode and KEYVEL checks of a NOTEON command, passed (R340). -/
def noteReady (s : State) (trk : BitVec 4) (key vel : Byte) (pp : PitchPrio) : Prop :=
  trackReady s trk ∧ pp.rsvd = 0 ∧ key.toNat ≤ 127 ∧ vel.toNat ≤ 127

/-- The value checks of NOTEON.PCM, passed (R170). -/
def pcmReady (s : State) (loopEnabled : Bool) (pp : PitchPrio) (base midc loopPos endPos : Word) : Prop :=
  F32.isPosFinite ⟨midc⟩ = true ∧ (loopEnabled = true → loopPos.toNat ≤ endPos.toNat) ∧
  base.toNat + endPos.toNat ≤ s.launch.romSize ∧ (pcmPhaseInc s ⟨midc⟩ pp.pitch).isFinite = true

/-- The pool has a free place (R229). -/
def roomFor (s : State) : Prop := ∀ m, s.launch.poolMax = some m → s.pool.length < m

/-- The record of a new voice, field by field (R231). -/
def noteVoice (source : Source) (trk : BitVec 4) (key vel : Byte) (adsr : Adsr) (pp : PitchPrio) (phaseInc : F32) :
    Voice where
  source := source
  track := trk
  key := BitVec.ofNat 7 key.toNat
  vel := BitVec.ofNat 7 vel.toNat
  prio := pp.prio
  adsr := adsr
  eState := .init
  envLevel := 0
  fromEnvLevel := 0
  envPeak := 0
  envInterStep := 0
  fastRelease := false
  pitch := pp.pitch
  phaseInc := phaseInc
  ipos := 0
  fpos := F32.zero
  volL := F32.zero
  volR := F32.zero
  fromVolL := F32.zero
  fromVolR := F32.zero
  curL := F32.zero
  curR := F32.zero
  stepL := F32.zero
  stepR := F32.zero
  pan := .centre
  fromPan := .centre

/-- The sample a NOTEON.PCM names: its operand words, not at end of stream (R95, R231). -/
def noteSample (loopEnabled : Bool) (base midc loopPos endPos : Word) : PcmData where
  base := base
  midCfreq := ⟨midc⟩
  loopEnabled := loopEnabled
  loopPos := loopPos
  endPos := endPos
  eos := false

/-- The voice a NOTEON.PCM creates (R170, R231). -/
def pcmNote (s : State) (trk : BitVec 4) (loopEnabled : Bool) (key vel : Byte) (adsr : Adsr) (pp : PitchPrio)
    (base midc loopPos endPos : Word) : Voice :=
  noteVoice (.pcm (noteSample loopEnabled base midc loopPos endPos)) trk key vel adsr pp
    (pcmPhaseInc s ⟨midc⟩ pp.pitch)

/-- The pool after the preemption of one track's voices of one CGB kind (R224, R130). -/
def preempted (trk : BitVec 4) (kind : Kind) (pool : List Voice) : List Voice :=
  pool.map fun v =>
    if v.track = trk ∧ v.kind = kind ∧ v.eState ≠ .dead then { v with eState := .rel, fastRelease := true } else v

/-- The live voices of a track with this key, or of the whole track under `anykey` (R104). -/
abbrev heldBy (trk : BitVec 4) (anykey : Bool) (key : Byte) (v : Voice) : Prop :=
  v.track = trk ∧ v.eState ≠ .dead ∧ (anykey = true ∨ v.key.toNat = key.toNat)

/-- A candidate for preemption by a PCM note of priority `prio` (R226). -/
def candidate (prio : Byte) (v : Voice) : Prop :=
  v.kind = .pcm ∧ v.eState ≠ .dead ∧ (v.eState = .rel ∨ v.prio.toNat ≤ prio.toNat)

/-- The victim order of R228 between a voice `x` at place `i` and a voice `y` at place `j`. -/
def victimBefore (i : Nat) (x : Voice) (j : Nat) (y : Voice) : Prop :=
  (x.eState = .rel ∧ y.eState ≠ .rel) ∨
  ((x.eState = .rel ↔ y.eState = .rel) ∧
    (x.prio.toNat < y.prio.toNat ∨ (x.prio.toNat = y.prio.toNat ∧ i < j)))

/-- What one voice does in sub-block `q`: its tick, then its output samples (R245, R246). -/
def voiceSubBlock (s : State) (v : Voice) (q : Nat) : List Stereo × Voice :=
  renderVoice s (subBound s.blockSamples (q + 1) - subBound s.blockSamples q) (tickEnvelope s q v)

/-- What one voice does in a whole frame: its contribution to every output index, and itself afterwards (R245). -/
def voiceFrame (s : State) (v : Voice) : List Stereo × Voice :=
  let a := voiceSubBlock s v 0
  let b := voiceSubBlock s a.2 1
  let c := voiceSubBlock s b.2 2
  let d := voiceSubBlock s c.2 3
  (a.1 ++ b.1 ++ c.1 ++ d.1, d.2)

/-- A track's buffer before reverb: at every index the sum from `+0.0` of its voices' contributions in pool order (R246). -/
def mixedTrack (s : State) (t : Nat) : List Stereo :=
  (List.range s.blockSamples).map fun i =>
    (s.pool.filter fun v => decide (v.track.toNat = t)).foldl
      (fun acc v => addStereo acc ((voiceFrame s v).1.getD i silence)) silence

/-- A PCM voice plays a loop (R173). -/
abbrev loops (d : PcmData) : Prop := d.loopEnabled = true ∧ d.loopPos.toNat < d.endPos.toNat

/-- The position a voice's `ipos` is brought to from `i`, by its source (R160, R173). -/
def wrappedTo (source : Source) (i : Nat) : Nat :=
  match source with
  | .pcm d =>
    if i < d.endPos.toNat then i
    else if loops d then d.loopPos.toNat + (i - d.endPos.toNat) % (d.endPos.toNat - d.loopPos.toNat)
    else d.endPos.toNat
  | .square _ _ => i % 8
  | .wave _ => i % 32
  | .noise .fine => i % 32767
  | .noise .rough => i % 127

/-- A volume after `n` steps of its ramp (R246). -/
def rampAt (cur step : F32) : Nat → F32
  | 0 => cur
  | n + 1 => (rampAt cur step n).add step

/-- The sixteen products of a kernel and the source, summed in ascending order from `+0.0` (R157). -/
def sincSum (s : State) (kernel : F32 → F32 → Nat → F32) (v : Voice) : F32 :=
  [0, 1, 2, 3, 4, 5, 6, 7, 8, 9, 10, 11, 12, 13, 14, 15].foldl
    (fun acc k => acc.add ((kernel v.fpos v.phaseInc k).mul (v.src s ((v.ipos.toNat : Int) - 7 + (k : Int))))) F32.zero

/-- A track's reverb line after `n` frames of zero input (R289). -/
def silentFrames (s : State) (l : RevLine) : Nat → RevLine
  | 0 => l
  | n + 1 => (reverb s (silentFrames s l n) (List.replicate s.blockSamples silence)).2

/-- `n` envelope steps in succession (R120). -/
def envelopeSteps (p : Launch) : Nat → Voice → Voice
  | 0, v => v
  | n + 1, v => envelopeSteps p n (stepEnvelope p v)

end Sys2Proof.Machine

open Sys2Proof Sys2Proof.Machine

/-! ## Encoding -/

/-- Decoding the words of any command, whatever follows them, gives the command back and its length (R90 to R102). -/
def Obligations.DecodeOfEncode : Prop :=
  ∀ (i : Instr) (rest : List Word), decode (encode i ++ rest) = .command i i.opcode.words

/-- Encoding what was decoded gives back exactly the words that were read: no bit of a legal command is dropped
(R90 to R102, R108). -/
def Obligations.EncodeOfDecode : Prop :=
  ∀ (ws : List Word) (i : Instr) (n : Nat), decode ws = .command i n →
    encode i = ws.take n ∧ n = i.opcode.words ∧ n ≤ ws.length

/-- A header is an illegal command exactly when its opcode is not listed or a field its row does not use is not zero; an
illegal command halts the pipeline with LogicError ILLOP, and `cp` stays at the illegal word (R108). -/
def Obligations.IllegalHeadersHalt : Prop :=
  ∀ (s : State) (h : Word) (rest : List Word), s.halt = false → s.cmd.drop s.cp = h :: rest →
    let listed : Prop :=
      (h.extractLsb' 24 8 ∈ [0x00#8, 0x01#8, 0x02#8, 0x30#8, 0x31#8, 0x32#8] ∧ h.extractLsb' 0 24 = 0) ∨
      (h.extractLsb' 24 8 = 0x10#8 ∧ h.extractLsb' 17 3 = 0) ∨
      (h.extractLsb' 24 8 = 0x11#8 ∧ h.getLsbD 19 = false) ∨
      (h.extractLsb' 24 8 = 0x12#8 ∧ h.extractLsb' 16 4 = 0) ∨
      (h.extractLsb' 24 8 = 0x13#8 ∧ h.extractLsb' 17 3 = 0) ∨
      (h.extractLsb' 24 8 = 0x20#8 ∧ h.extractLsb' 17 3 = 0 ∧ h.extractLsb' 0 8 = 0) ∨
      (h.extractLsb' 24 8 = 0x21#8 ∧ h.extractLsb' 16 4 = 0) ∨
      (h.extractLsb' 24 8 = 0x22#8 ∧ h.extractLsb' 18 2 = 0 ∧ h.extractLsb' 0 8 = 0) ∨
      (h.extractLsb' 24 8 = 0x23#8 ∧ h.extractLsb' 17 3 = 0 ∧ h.extractLsb' 0 16 = 0) ∨
      (h.extractLsb' 24 8 = 0x33#8 ∧ h.extractLsb' 8 16 = 0)
    (listed → decode (h :: rest) ≠ .illegal) ∧
    (¬ listed → step s = .next (afterFatal s 0x305))

/-- Words written out in the spec decode to the commands they stand for (R117). -/
def Obligations.WorkedEncodingsDecode : Prop :=
  decode [0x213064C0#32] = .command (.setvol 3 0x64 0xC0) 1 ∧
  decode [0x22003C00#32] = .command (.release 0 false false 60) 1 ∧
  decode [0x22030000#32] = .command (.release 0 true true 0) 1 ∧
  decode [0x23210000#32] = .command (.trkfine 2 true) 1 ∧
  decode [0x20110000#32, 0x0000FB50#32] = .command (.setpitch 1 true 0 ⟨0, 0xFB50⟩) 2 ∧
  decode [0x33000004#32] = .command (.rdreg 4) 1 ∧
  decode [0x11023C7F#32, 0xFF00FF00#32, 0x00000000#32] =
    .command (.noteonSq 0 .sq1 .duty50 60 127 ⟨255, 0, 255, 0⟩ ⟨0, 0, 0⟩) 3 ∧
  decode [0x01000000#32, 0x0016680F#32, 0x00000004#32] = .command (.cfg 0x0016680F#32 4) 3

/-! ## The step -/

/-- Where a whole command stands at `cp` of a pipeline that is not halted, the step is that command's meaning in that state. -/
def Obligations.StepRunsDecodedCommand : Prop :=
  ∀ (s : State) (i : Instr) (n : Nat), s.halt = false → decode (s.cmd.drop s.cp) = .command i n → step s = exec i s

/-- When the pipeline has no step: halted, whatever the command stream holds; with no word at `cp`; and where the stream ends
inside a legal command (R113, R337). That a state without a step answers a named fault is log 11. -/
def Obligations.NoStepWhenHaltedOrWaiting : Prop :=
  ∀ (s : State),
    (s.halt = true → ∀ ws : List Word, step (s.placeWords ws) = .fault .halted) ∧
    (s.halt = false → s.cmd.length ≤ s.cp → step s = .fault .noCommand) ∧
    (s.halt = false → ∀ (i : Instr) (k : Nat), 0 < k → k < i.opcode.words → s.cmd.drop s.cp = (encode i).take k →
      step s = .fault .starved)

/-- Words the host appends change no step: a step that answers a next state answers the same one with the words appended
(R80, R84). -/
def Obligations.AppendedWordsChangeNoStep : Prop :=
  ∀ (s t : State) (ws : List Word), step s = .next t → step (s.appendWords ws) = .next (t.appendWords ws)

/-- `cp` moves past the command, by its length in words, except after a fatal error, when it stays and no further
command executes (R112). -/
def Obligations.CommandPointerMoves : Prop :=
  ∀ (s t : State), step s = .next t →
    (t.halt = true ∧ t.cp = s.cp ∧ ∀ u, step t ≠ .next u) ∨
    (t.halt = false ∧ ∃ i n, decode (s.cmd.drop s.cp) = .command i n ∧ n = i.opcode.words ∧ t.cp = s.cp + n)

/-! ## Errors -/

/-- Before CFG every command but NOP, CFG and RDREG halts with NOTCFG; after it, CFG halts with RECFG (R336, R332). -/
def Obligations.ConfiguredCheck : Prop :=
  ∀ (s : State),
    (∀ i : Instr, s.configured = false → i ≠ .nop → (∀ c p, i ≠ .cfg c p) → (∀ r, i ≠ .rdreg r) →
      exec i s = .next (afterFatal s 0x325)) ∧
    (∀ c p : Word, s.configured = true → exec (.cfg c p) s = .next (afterFatal s 0x335))

/-- A reserved operand bit halts: CFGRSVD in CFG, RSVD in any other command, once the configured check has passed
(R109, R332, R340). -/
def Obligations.ReservedOperandBitHalts : Prop :=
  ∀ (s : State) (i : Instr), i.wf = false →
    (s.configured = true → (∀ c p, i ≠ .cfg c p) → exec i s = .next (afterFatal s 0x315)) ∧
    (s.configured = false → (∃ c p, i = .cfg c p) → exec i s = .next (afterFatal s 0x011))

/-- A track that is not in use halts with BADTRK in every command that names a track, before any check of its values
(R332, R340). -/
def Obligations.TrackOutOfRangeHalts : Prop :=
  ∀ (s : State) (i : Instr) (trk : BitVec 4), s.configured = true → i.wf = true → trackOf i = some trk →
    s.trackLimit ≤ trk.toNat → exec i s = .next (afterFatal s 0x345)

/-- A key or velocity above 127 is the DataError KEYVEL, charged to the track, in the four NOTEONs: no voice is created and none
preempted (R98, R332, R338). -/
def Obligations.KeyOrVelocityAbove127 : Prop :=
  ∀ (s : State) (trk : BitVec 4) (key vel : Byte) (adsr : Adsr) (pp : PitchPrio), trackReady s trk → pp.rsvd = 0 →
    127 < key.toNat ∨ 127 < vel.toNat →
    (∀ (l : Bool) (base midc loopPos endPos : Word),
      exec (.noteonPcm trk l key vel adsr pp base midc loopPos endPos) s = .next (afterDataError s 0x10 trk 7)) ∧
    (∀ (u : SqUnit) (d : Duty), exec (.noteonSq trk u d key vel adsr pp) s = .next (afterDataError s 0x10 trk 3)) ∧
    (∀ waddr : Word, exec (.noteonWave trk key vel adsr pp waddr) s = .next (afterDataError s 0x10 trk 4)) ∧
    (∀ n : NoisePattern, exec (.noteonNoise trk n key vel adsr pp) s = .next (afterDataError s 0x10 trk 3))

/-- The other value checks of NOTEON.PCM in their order: MIDC, LOOPINV, SMPRANGE, PHASE, each a DataError that creates no
voice (R170, R76, R332). -/
def Obligations.PcmValueErrorsInOrder : Prop :=
  ∀ (s : State) (trk : BitVec 4) (l : Bool) (key vel : Byte) (adsr : Adsr) (pp : PitchPrio)
    (base midc loopPos endPos : Word),
    noteReady s trk key vel pp → ¬ pcmReady s l pp base midc loopPos endPos →
    exec (.noteonPcm trk l key vel adsr pp base midc loopPos endPos) s =
      .next (afterDataError s
        (if F32.isPosFinite ⟨midc⟩ = false then 0x14
         else if l = true ∧ endPos.toNat < loopPos.toNat then 0x13
         else if s.launch.romSize < base.toNat + endPos.toNat then 0x12
         else 0x15) trk 7)

/-- The other value checks of the CGB notes: WAVRANGE then PHASE for WAVE, PHASE for square and noise, each a DataError that
creates no voice and preempts none (R190, R196, R201, R76, R332). -/
def Obligations.CgbValueErrors : Prop :=
  ∀ (s : State) (trk : BitVec 4) (key vel : Byte) (adsr : Adsr) (pp : PitchPrio), noteReady s trk key vel pp →
    (∀ (u : SqUnit) (d : Duty), (sqPhaseInc s pp.pitch).isFinite = false →
      exec (.noteonSq trk u d key vel adsr pp) s = .next (afterDataError s 0x15 trk 3)) ∧
    (∀ n : NoisePattern, (noisePhaseInc s pp.pitch).isFinite = false →
      exec (.noteonNoise trk n key vel adsr pp) s = .next (afterDataError s 0x15 trk 3)) ∧
    (∀ waddr : Word, s.launch.romSize < waddr.toNat + 16 →
      exec (.noteonWave trk key vel adsr pp waddr) s = .next (afterDataError s 0x16 trk 4)) ∧
    (∀ waddr : Word, waddr.toNat + 16 ≤ s.launch.romSize → (wavePhaseInc s pp.pitch).isFinite = false →
      exec (.noteonWave trk key vel adsr pp waddr) s = .next (afterDataError s 0x15 trk 4))

/-! ## System commands -/

/-- A legal CFG of an unconfigured block: the four configuration registers, the zeroed reverb lines, CONFIGURED, and nothing
else (R241). -/
def Obligations.CfgConfigures : Prop :=
  ∀ (s : State) (c p rate : Word), s.configured = false → (Instr.cfg c p).wf = true →
    mixRateOf s.launch (c.extractLsb' 11 4) = some rate →
    (c.extractLsb' 15 3).toNat ≤ 4 → c.extractLsb' 18 2 ≠ 3 →
    1 ≤ (c.extractLsb' 20 5).toNat → (c.extractLsb' 20 5).toNat ≤ 16 → 4 ≤ rate.toNat / 60 →
    (1 ≤ (c.extractLsb' 15 3).toNat ∧ (c.extractLsb' 15 3).toNat ≤ 3 →
      (revTapsOf s.launch (c.extractLsb' 15 3) (c.extractLsb' 4 7) (rate.toNat / 60)).isSome = true) →
    exec (.cfg c p) s = .next
      { s with
          config := c
          poly := p
          mixRate := rate
          bufCnt := BitVec.ofNat 32 (rate.toNat / 60)
          rev := List.replicate (c.extractLsb' 20 5).toNat
            { line := List.replicate (rate.toNat / 60) (F32.zero, F32.zero), pos := 0 }
          status := s.status ||| 0x00000001#32
          cp := s.cp + 3 }

/-- A CFG that fails a value check halts with the first failing one of BADFREQ, BADREV, BADRESAMP, BADTRACKS, BLOCKSMALL,
NOREVPARAM, and configures nothing (R241, R332, R340). -/
def Obligations.CfgRefusesInOrder : Prop :=
  ∀ (s : State) (c p : Word), s.configured = false → (Instr.cfg c p).wf = true →
    (mixRateOf s.launch (c.extractLsb' 11 4) = none → exec (.cfg c p) s = .next (afterFatal s 0x021)) ∧
    (∀ rate : Word, mixRateOf s.launch (c.extractLsb' 11 4) = some rate →
      ((4 < (c.extractLsb' 15 3).toNat → exec (.cfg c p) s = .next (afterFatal s 0x031)) ∧
       ((c.extractLsb' 15 3).toNat ≤ 4 →
        ((c.extractLsb' 18 2 = 3 → exec (.cfg c p) s = .next (afterFatal s 0x041)) ∧
         (c.extractLsb' 18 2 ≠ 3 →
          (((c.extractLsb' 20 5).toNat = 0 ∨ 16 < (c.extractLsb' 20 5).toNat →
             exec (.cfg c p) s = .next (afterFatal s 0x051)) ∧
           (1 ≤ (c.extractLsb' 20 5).toNat → (c.extractLsb' 20 5).toNat ≤ 16 →
            ((rate.toNat / 60 < 4 → exec (.cfg c p) s = .next (afterFatal s 0x061)) ∧
             (4 ≤ rate.toNat / 60 → 1 ≤ (c.extractLsb' 15 3).toNat → (c.extractLsb' 15 3).toNat ≤ 3 →
               revTapsOf s.launch (c.extractLsb' 15 3) (c.extractLsb' 4 7) (rate.toNat / 60) = none →
               exec (.cfg c p) s = .next (afterFatal s 0x071))))))))))

/-- NOP moves `cp` and changes nothing else, configured or not; RESET empties the pool and moves `cp`, and changes nothing else
(R240, R242, R362). -/
def Obligations.NopAndReset : Prop :=
  ∀ (s : State),
    exec .nop s = .next { s with cp := s.cp + 1 } ∧
    (s.configured = true → exec .reset s = .next { s with pool := [], cp := s.cp + 1 })

/-- ENDED responds 1 when every track below `trackLimit` is FINE and every voice is DEAD, else 0, and STATUS.ENDED reads the same;
GETBUF responds BUFCNT; both move `cp` and change nothing else (R260, R261). -/
def Obligations.EndedAndGetbufRespond : Prop :=
  ∀ (s : State), s.configured = true →
    ((∀ k < s.trackLimit, s.trkFine.getLsbD k = true) ∧ (∀ v ∈ s.pool, v.eState = .dead) →
      exec .ended s = .next { s with responses := s.responses ++ [1], cp := s.cp + 1 } ∧
      s.statusRead.getLsbD 3 = true) ∧
    (¬ ((∀ k < s.trackLimit, s.trkFine.getLsbD k = true) ∧ (∀ v ∈ s.pool, v.eState = .dead)) →
      exec .ended s = .next { s with responses := s.responses ++ [0], cp := s.cp + 1 } ∧
      (s.status.getLsbD 3 = false → s.statusRead.getLsbD 3 = false)) ∧
    exec .getbuf s = .next { s with responses := s.responses ++ [s.bufCnt], cp := s.cp + 1 }

/-- RDREG responds the register it names, for every register that exists, STATUS with its computed ENDED bit and the two
voice counts among them, and changes nothing else, configured or not; a register number that does not exist halts with
BADREG (R34, R39, R41, R262). -/
def Obligations.RdregResponds : Prop :=
  ∀ (s : State),
    let reads (n : Byte) (w : Word) : Prop :=
      exec (.rdreg n) s = .next { s with responses := s.responses ++ [w], cp := s.cp + 1 }
    reads 0 s.config ∧ reads 1 s.poly ∧ reads 2 s.mixRate ∧ reads 3 s.bufCnt ∧
    (s.configured = true ∧ (∀ k < s.trackLimit, s.trkFine.getLsbD k = true) ∧ (∀ v ∈ s.pool, v.eState = .dead) →
      reads 4 (s.status ||| 0x00000008#32)) ∧
    (¬ (s.configured = true ∧ (∀ k < s.trackLimit, s.trkFine.getLsbD k = true) ∧ (∀ v ∈ s.pool, v.eState = .dead)) →
      reads 4 s.status) ∧
    reads 5 s.errCause ∧ reads 6 s.errInfo ∧ reads 7 s.trkFine ∧ reads 8 s.trkErr ∧
    (s.pool.length < 2 ^ 32 →
      reads 9 (BitVec.ofNat 32 (s.pool.filter fun v => decide (v.eState ≠ .dead)).length) ∧
      reads 10 (BitVec.ofNat 32 (s.pool.filter fun v => decide (v.kind = .pcm ∧ v.eState ≠ .dead)).length)) ∧
    (∀ t : Fin 16, reads (BitVec.ofNat 8 (16 + t.val)) (s.trkCtl.get t)) ∧
    ∀ n : Byte, (11 ≤ n.toNat ∧ n.toNat ≤ 15) ∨ 32 ≤ n.toNat → exec (.rdreg n) s = .next (afterFatal s 0x355)

/-! ## Track commands -/

/-- SETVOL writes the volume and the pan into the track's TRKCTL, moves `cp`, and changes nothing else; with a volume above 127
or a pan outside −64..63 it is the DataError VOLPAN and writes no TRKCTL (R250, R40). -/
def Obligations.SetvolWritesTrkctl : Prop :=
  ∀ (s : State) (trk : BitVec 4) (vol pan : Byte), trackReady s trk →
    (vol.toNat ≤ 127 → -64 ≤ pan.toInt → pan.toInt ≤ 63 →
      ∃ t, exec (.setvol trk vol pan) s = .next t ∧
        t = { s with trkCtl := t.trkCtl, cp := s.cp + 1 } ∧
        (t.trkCtl.get trk.toFin).toNat = 256 * pan.toNat + vol.toNat ∧
        ∀ u : Fin 16, u ≠ trk.toFin → t.trkCtl.get u = s.trkCtl.get u) ∧
    (127 < vol.toNat ∨ pan.toInt < -64 ∨ 63 < pan.toInt →
      exec (.setvol trk vol pan) s = .next (afterDataError s 0x11 trk 1))

/-- TRKFINE writes the track's bit of TRKFINE, moves `cp`, and changes nothing else (R259). -/
def Obligations.TrkfineWritesItsBit : Prop :=
  ∀ (s : State) (trk : BitVec 4) (fine : Bool), trackReady s trk →
    ∃ t, exec (.trkfine trk fine) s = .next t ∧
      t = { s with trkFine := t.trkFine, cp := s.cp + 1 } ∧
      t.trkFine.getLsbD trk.toNat = fine ∧
      ∀ k, k ≠ trk.toNat → t.trkFine.getLsbD k = s.trkFine.getLsbD k

/-- RELEASE acts on every live voice of the track with the key, or of the track under `anykey`: from a phase before REL it
goes to REL with the command's speed, in REL a fast release makes it fast; levels, every other voice and
every register stay. A key above 127 that is to be compared is the DataError KEYVEL, and no voice is changed (R130, R131). -/
def Obligations.ReleaseReleasesSelected : Prop :=
  ∀ (s : State) (trk : BitVec 4) (fast anykey : Bool) (key : Byte), trackReady s trk →
    (anykey = false → 127 < key.toNat →
      exec (.release trk fast anykey key) s = .next (afterDataError s 0x10 trk 1)) ∧
    ((anykey = true ∨ key.toNat ≤ 127) → exec (.release trk fast anykey key) s = .next
      { s with
          pool := s.pool.map (fun v =>
            if v.track = trk ∧ (anykey = true ∨ v.key.toNat = key.toNat) then
              (match v.eState with
               | .init => { v with eState := .rel, fastRelease := fast }
               | .atk => { v with eState := .rel, fastRelease := fast }
               | .dec => { v with eState := .rel, fastRelease := fast }
               | .sus => { v with eState := .rel, fastRelease := fast }
               | .rel => { v with fastRelease := v.fastRelease || fast }
               | .dead => v)
            else v)
          cp := s.cp + 1 })

/-- SETPITCH gives every live voice of the track with the key, or of the track under `anykey`, the new pitch and the `phaseInc`
of its kind's law; every other voice and every register stay. A voice whose new `phaseInc` is not finite is
removed, and then one DataError PHASE is taken for the track. A key above 127 that is to be compared is the
DataError KEYVEL, and no voice is changed (R175). -/
def Obligations.SetpitchRepitchesSelected : Prop :=
  ∀ (s : State) (trk : BitVec 4) (anykey : Bool) (key : Byte) (pitch : BitVec 16), trackReady s trk →
    let repitched (v : Voice) : Voice :=
      if heldBy trk anykey key v then { v with pitch := pitch, phaseInc := v.phaseIncAt s pitch } else v
    (anykey = false → 127 < key.toNat →
      exec (.setpitch trk anykey key ⟨0, pitch⟩) s = .next (afterDataError s 0x10 trk 2)) ∧
    (anykey = true ∨ key.toNat ≤ 127 →
      (∀ v ∈ s.pool, heldBy trk anykey key v → (v.phaseIncAt s pitch).isFinite = true) →
      exec (.setpitch trk anykey key ⟨0, pitch⟩) s = .next { s with pool := s.pool.map repitched, cp := s.cp + 2 }) ∧
    (anykey = true ∨ key.toNat ≤ 127 →
      (∃ v ∈ s.pool, heldBy trk anykey key v ∧ (v.phaseIncAt s pitch).isFinite = false) →
      exec (.setpitch trk anykey key ⟨0, pitch⟩) s = .next (afterDataError
        { s with
            pool := (s.pool.filter fun v =>
              decide (¬ (heldBy trk anykey key v ∧ (v.phaseIncAt s pitch).isFinite = false))).map repitched } 0x15 trk 2))

/-! ## Notes -/

/-- A legal NOTEON.PCM below the budget, with room in the pool, appends its voice and moves `cp`, and changes nothing else
(R170, R226, R231). -/
def Obligations.NoteonPcmBelowBudget : Prop :=
  ∀ (s : State) (trk : BitVec 4) (l : Bool) (key vel : Byte) (adsr : Adsr) (pp : PitchPrio)
    (base midc loopPos endPos : Word),
    noteReady s trk key vel pp → pcmReady s l pp base midc loopPos endPos →
    (s.pool.filter fun v => decide (v.kind = .pcm ∧ v.eState ≠ .dead)).length < (s.poly.extractLsb' 0 16).toNat →
    roomFor s →
    exec (.noteonPcm trk l key vel adsr pp base midc loopPos endPos) s = .next
      { s with pool := s.pool ++ [pcmNote s trk l key vel adsr pp base midc loopPos endPos], cp := s.cp + 7 }

/-- A legal NOTEON.PCM at the budget removes the first candidate under the victim order and appends its voice, and changes
nothing else (R226, R228). -/
def Obligations.NoteonPcmTakesTheVictim : Prop :=
  ∀ (s : State) (trk : BitVec 4) (l : Bool) (key vel : Byte) (adsr : Adsr) (pp : PitchPrio)
    (base midc loopPos endPos : Word),
    noteReady s trk key vel pp → pcmReady s l pp base midc loopPos endPos →
    (s.poly.extractLsb' 0 16).toNat ≤ (s.pool.filter fun v => decide (v.kind = .pcm ∧ v.eState ≠ .dead)).length →
    (∃ v ∈ s.pool, candidate pp.prio v) →
    ∃ i w, s.pool[i]? = some w ∧ candidate pp.prio w ∧
      (∀ j x, s.pool[j]? = some x → candidate pp.prio x → j ≠ i → victimBefore i w j x) ∧
      exec (.noteonPcm trk l key vel adsr pp base midc loopPos endPos) s = .next
        { s with
            pool := s.pool.eraseIdx i ++ [pcmNote s trk l key vel adsr pp base midc loopPos endPos]
            cp := s.cp + 7 }

/-- A legal NOTEON.PCM is dropped, with no voice created or removed, when the budget is full and no voice is a candidate
(POLY), and when below the budget the pool is full (POOLFULL) (R226, R227, R229, R332). -/
def Obligations.NoteonPcmDropped : Prop :=
  ∀ (s : State) (trk : BitVec 4) (l : Bool) (key vel : Byte) (adsr : Adsr) (pp : PitchPrio)
    (base midc loopPos endPos : Word),
    noteReady s trk key vel pp → pcmReady s l pp base midc loopPos endPos →
    let n := (s.pool.filter fun v => decide (v.kind = .pcm ∧ v.eState ≠ .dead)).length
    ((s.poly.extractLsb' 0 16).toNat ≤ n → (∀ v ∈ s.pool, ¬ candidate pp.prio v) →
      exec (.noteonPcm trk l key vel adsr pp base midc loopPos endPos) s = .next (afterDrop s 0x20 trk 7)) ∧
    (n < (s.poly.extractLsb' 0 16).toNat → ¬ roomFor s →
      exec (.noteonPcm trk l key vel adsr pp base midc loopPos endPos) s = .next (afterDrop s 0x21 trk 7))

/-- The polyphony budget: after a NOTEON.PCM the live PCM voices are no more than the budget, or than before (R226). -/
def Obligations.PolyphonyBudgetHolds : Prop :=
  ∀ (s t : State) (trk : BitVec 4) (l : Bool) (key vel : Byte) (adsr : Adsr) (pp : PitchPrio)
    (base midc loopPos endPos : Word),
    exec (.noteonPcm trk l key vel adsr pp base midc loopPos endPos) s = .next t →
    t.pcmCount ≤ max (s.poly.extractLsb' 0 16).toNat s.pcmCount

/-- A legal NOTEON.SQ with room in the pool fast-releases the track's live voices of its kind, appends its voice, moves `cp`,
and changes nothing else (R190, R224, R231). -/
def Obligations.NoteonSqPreemptsAndCreates : Prop :=
  ∀ (s : State) (trk : BitVec 4) (u : SqUnit) (d : Duty) (key vel : Byte) (adsr : Adsr) (pp : PitchPrio),
    noteReady s trk key vel pp → (sqPhaseInc s pp.pitch).isFinite = true → roomFor s →
    exec (.noteonSq trk u d key vel adsr pp) s = .next
      { s with
          pool := preempted trk (match u with | .sq1 => .sq1 | .sq2 => .sq2) s.pool ++
            [noteVoice (.square u d) trk key vel adsr pp (sqPhaseInc s pp.pitch)]
          cp := s.cp + 3 }

/-- A legal NOTEON.WAVE with room in the pool: the same, its voice with the 32 values unpacked from the 16 bytes at
`waddr`, the high nibble of each byte first, nibble n as (2n − 15)/15 (R196, R197, R224). -/
def Obligations.NoteonWavePreemptsAndCreates : Prop :=
  ∀ (s : State) (trk : BitVec 4) (key vel : Byte) (adsr : Adsr) (pp : PitchPrio) (waddr : Word),
    noteReady s trk key vel pp → waddr.toNat + 16 ≤ s.launch.romSize →
    (wavePhaseInc s pp.pitch).isFinite = true → roomFor s →
    ∃ buf : Vector F32 32,
      (∀ (j : Nat) (h : j < 16),
        buf[2 * j] = (F32.ofInt (2 * ((s.memRead (waddr.toNat + j)).extractLsb' 4 4).toNat - 15)).div (F32.ofNat 15) ∧
        buf[2 * j + 1] =
          (F32.ofInt (2 * ((s.memRead (waddr.toNat + j)).extractLsb' 0 4).toNat - 15)).div (F32.ofNat 15)) ∧
      exec (.noteonWave trk key vel adsr pp waddr) s = .next
        { s with
            pool := preempted trk .wave s.pool ++
              [noteVoice (.wave buf) trk key vel adsr pp (wavePhaseInc s pp.pitch)]
            cp := s.cp + 4 }

/-- A legal NOTEON.NOISE with room in the pool: the same, its voice with the pattern and its LFSR at all ones
(R201, R202, R224). -/
def Obligations.NoteonNoisePreemptsAndCreates : Prop :=
  ∀ (s : State) (trk : BitVec 4) (n : NoisePattern) (key vel : Byte) (adsr : Adsr) (pp : PitchPrio),
    noteReady s trk key vel pp → (noisePhaseInc s pp.pitch).isFinite = true → roomFor s →
    let v := noteVoice (.noise n) trk key vel adsr pp (noisePhaseInc s pp.pitch)
    v.lfsr = some (match n with | .fine => 0x7FFF#15 | .rough => 0x7F#15) ∧
    exec (.noteonNoise trk n key vel adsr pp) s = .next
      { s with pool := preempted trk .noise s.pool ++ [v], cp := s.cp + 3 }

/-- A legal CGB note that finds the pool full is dropped with POOLFULL; the preemption has happened (R190, R224, R229). -/
def Obligations.CgbNoteDroppedWhenPoolFull : Prop :=
  ∀ (s : State) (trk : BitVec 4) (key vel : Byte) (adsr : Adsr) (pp : PitchPrio),
    noteReady s trk key vel pp → ¬ roomFor s →
    (∀ (u : SqUnit) (d : Duty), (sqPhaseInc s pp.pitch).isFinite = true →
      exec (.noteonSq trk u d key vel adsr pp) s = .next (afterDrop
        { s with pool := preempted trk (match u with | .sq1 => .sq1 | .sq2 => .sq2) s.pool } 0x21 trk 3)) ∧
    (∀ waddr : Word, waddr.toNat + 16 ≤ s.launch.romSize → (wavePhaseInc s pp.pitch).isFinite = true →
      exec (.noteonWave trk key vel adsr pp waddr) s = .next (afterDrop
        { s with pool := preempted trk .wave s.pool } 0x21 trk 4)) ∧
    (∀ n : NoisePattern, (noisePhaseInc s pp.pitch).isFinite = true →
      exec (.noteonNoise trk n key vel adsr pp) s = .next (afterDrop
        { s with pool := preempted trk .noise s.pool } 0x21 trk 3))

/-! ## Envelope -/

/-- The arms of the envelope engine: what one step does to the phase and the level in each phase, and that only an attack at
`att = 255` is instantaneous. A step writes nothing but the phase and the three levels, `envPeak` only in INIT and
`fromEnvLevel` only in ATK (R122 to R127). -/
def Obligations.EnvelopeArms : Prop :=
  ∀ (p : Launch) (v : Voice),
    let w := stepEnvelope p v
    w = { v with
            eState := w.eState, envLevel := w.envLevel, fromEnvLevel := w.fromEnvLevel, envPeak := w.envPeak } ∧
    (v.eState ≠ .init → w.envPeak = v.envPeak) ∧
    (v.eState ≠ .atk → w.fromEnvLevel = v.fromEnvLevel) ∧
    (v.eState = .init → w.eState = .atk ∧ w.envLevel = 0 ∧ w.envPeak = v.adsr.att) ∧
    (v.eState = .atk → w.envLevel.toNat = min (v.envLevel.toNat + v.adsr.att.toNat) 255 ∧
      w.eState = (if w.envLevel = 255 then .dec else .atk) ∧
      w.fromEnvLevel = (if v.adsr.att = 255 then 255 else v.fromEnvLevel)) ∧
    (stepInstant v = true ↔ v.eState = .atk ∧ v.adsr.att = 255) ∧
    (v.eState = .dec → w.envLevel.toNat = max (v.envLevel.toNat * v.adsr.dec.toNat / 256) v.adsr.sus.toNat ∧
      w.eState = (if w.envLevel.toNat ≤ v.adsr.sus.toNat then .sus else .dec)) ∧
    (v.eState = .sus → w.envLevel = v.adsr.sus ∧ w.eState = (if v.adsr.sus = 0 then .dead else .sus)) ∧
    (v.eState = .rel →
      w.envLevel.toNat = v.envLevel.toNat * (if v.fastRelease then p.fastRel else v.adsr.rel).toNat / 256 ∧
      w.eState = (if w.envLevel = 0 then .dead else .rel)) ∧
    (v.eState = .dead → w = v)

/-- The complete set of changes of `eState`: one envelope step makes only the listed ones, `Release` takes the phases before
REL to REL and no other anywhere, and the phase never moves backward (R129). In ATK the level does not fall;
in DEC at or above `sus`, and in REL, it does not rise (R141). The spec derives both
rules from the arms. -/
def Obligations.PhaseAndLevelAreMonotone : Prop :=
  ∀ (p : Launch) (v : Voice),
    let w := stepEnvelope p v
    v.eState.stepsTo w.eState = true ∧
    v.eState.rank ≤ w.eState.rank ∧
    (v.eState = .sus → w.eState = .dead → v.adsr.sus = 0) ∧
    (∀ fast : Bool,
      (releaseVoice fast v).eState = (if v.eState = .dead then .dead else .rel) ∧
      v.eState.rank ≤ (releaseVoice fast v).eState.rank) ∧
    (v.eState = .atk → v.envLevel.toNat ≤ w.envLevel.toNat) ∧
    (v.eState = .dec → v.adsr.sus.toNat ≤ v.envLevel.toNat →
      w.envLevel.toNat ≤ v.envLevel.toNat ∧ v.adsr.sus.toNat ≤ w.envLevel.toNat) ∧
    (v.eState = .rel → w.envLevel.toNat ≤ v.envLevel.toNat)

/-- Every release ends: a voice in REL is DEAD, at level 0, after at most 255 envelope steps, whatever its level and rate
(R126). -/
def Obligations.ReleaseEnds : Prop :=
  ∀ (p : Launch) (v : Voice), v.eState = .rel →
    ∃ n, 1 ≤ n ∧ n ≤ 255 ∧ (envelopeSteps p n v).eState = .dead ∧ (envelopeSteps p n v).envLevel = 0

/-- With `1 ≤ att ≤ 254` an attack from level 0 takes exactly ceil(255 / att) steps (R123). -/
def Obligations.AttackLength : Prop :=
  ∀ (p : Launch) (v : Voice), v.eState = .atk → v.envLevel = 0 → 1 ≤ v.adsr.att.toNat → v.adsr.att.toNat ≤ 254 →
    (∀ n < (255 + v.adsr.att.toNat - 1) / v.adsr.att.toNat, (envelopeSteps p n v).eState = .atk) ∧
    (envelopeSteps p ((255 + v.adsr.att.toNat - 1) / v.adsr.att.toNat) v).eState = .dec ∧
    (envelopeSteps p ((255 + v.adsr.att.toNat - 1) / v.adsr.att.toNat) v).envLevel = 255

/-- An advancing tick makes one envelope step, derives the new volumes, latches the old targets and sets up the ramp from them
over the interval's samples, with no ramp after an instantaneous attack, and writes nothing but the envelope and
volume fields; a tick that does not advance only counts (R132, R133, R134). -/
def Obligations.TickSetsUpTheRamp : Prop :=
  ∀ (s : State) (q : Nat) (v : Voice),
    let w := tickEnvelope s q v
    let n := if v.kind = .pcm ∨ s.launch.cgbEnvRate = .one then s.blockSamples
      else (q + 1) * s.blockSamples / 4 - q * s.blockSamples / 4
    w.envInterStep = v.envInterStep + 1 ∧
    ((v.envInterStep = 0 ∨ (v.kind ≠ .pcm ∧ s.launch.cgbEnvRate = .four)) →
      w = { v with
              eState := w.eState, envLevel := w.envLevel, fromEnvLevel := w.fromEnvLevel, envPeak := w.envPeak,
              envInterStep := w.envInterStep, volL := w.volL, volR := w.volR, fromVolL := w.fromVolL,
              fromVolR := w.fromVolR, curL := w.curL, curR := w.curR, stepL := w.stepL, stepR := w.stepR,
              pan := w.pan, fromPan := w.fromPan } ∧
      w.eState = (stepEnvelope s.launch v).eState ∧ w.envLevel = (stepEnvelope s.launch v).envLevel ∧
      w.envPeak = (if v.eState = .init then v.adsr.att else v.envPeak) ∧
      w.fromVolL = (if v.eState = .atk ∧ v.adsr.att = 255 then w.volL else v.volL) ∧
      w.fromVolR = (if v.eState = .atk ∧ v.adsr.att = 255 then w.volR else v.volR) ∧
      w.fromEnvLevel = (if v.eState = .atk ∧ v.adsr.att = 255 then 255 else v.envLevel) ∧
      (v.kind = .pcm → (w.volL, w.volR) = derivePcmVol s w ∧ w.pan = v.pan ∧ w.fromPan = v.fromPan) ∧
      (v.kind ≠ .pcm → (w.pan, w.volL, w.volR) = deriveCgbVol s w ∧ w.fromPan = v.pan) ∧
      w.curL = w.fromVolL ∧ w.curR = w.fromVolR ∧
      w.stepL = (w.volL.sub w.fromVolL).div (F32.ofNat n) ∧ w.stepR = (w.volR.sub w.fromVolR).div (F32.ofNat n)) ∧
    (¬ (v.envInterStep = 0 ∨ (v.kind ≠ .pcm ∧ s.launch.cgbEnvRate = .four)) →
      w = { v with envInterStep := v.envInterStep + 1 })

/-- The volumes of a voice. PCM: level, velocity, track volume and PcmGain multiplied in this order, and the linear pan law. CGB:
the table entry of the 4-bit index over 7, times the level over 255, on the sides its pan position gives it
(R209, R251, R252). -/
def Obligations.VoiceVolumes : Prop :=
  ∀ (s : State) (v : Voice),
    let w := s.trkCtlOf v.track
    let vol := (w.extractLsb' 0 7).toNat
    let p := (w.extractLsb' 8 8).toInt
    let env := (F32.ofNat v.envLevel.toNat).div (F32.ofNat 255)
    let g := ((env.mul ((F32.ofNat v.vel.toNat).div (F32.ofNat 127))).mul ((F32.ofNat vol).div (F32.ofNat 127))).mul
      (pcmGain s.launch (s.config.extractLsb' 0 4))
    let v4 := vol * v.vel.toNat / 1024
    let a := ((F32.ofNat (v4 / 2)).div (F32.ofNat 7)).mul env
    derivePcmVol s v = (g.mul ((F32.ofInt (64 - p)).div (F32.ofNat 128)), g.mul ((F32.ofInt (64 + p)).div (F32.ofNat 128))) ∧
    v4 ≤ 15 ∧
    deriveCgbVol s v =
      (if p ≤ -22 then (.left, a, F32.zero) else if 22 ≤ p then (.right, F32.zero, a) else (.centre, a, a))

/-! ## Sources and resampling -/

/-- The pitch laws: for PCM, square and wave the kind's rate in Hz times `Exp2` of the pitch in octaves over the mix rate, for
noise `NoiseRate` of the pitch over the mix rate, 65536 Hz where the launch states no rate for the pitch (log 13);
the law SETPITCH takes is that of the voice's kind. Under P-EXP2, at pitch 0, 1200 and −1200 cents the rate is the
rate at pitch 0, its double and its half over the mix rate (R174, R175, R193, R199, R207, R17). -/
def Obligations.PitchLawAtOctaves : Prop :=
  ∀ (s : State),
    let rate := F32.ofNat s.mixRate.toNat
    let law (hz : F32) (p : BitVec 16) : F32 := (hz.mul (exp2 s.launch ((F32.ofInt p.toInt).div (F32.ofNat 1200)))).div rate
    (∀ (m : F32) (p : BitVec 16), pcmPhaseInc s m p = law m p) ∧
    (∀ p : BitVec 16, sqPhaseInc s p = law (sqRate0 s.launch) p) ∧
    (∀ p : BitVec 16, wavePhaseInc s p = law (waveRate0 s.launch) p) ∧
    (∀ p : BitVec 16, noisePhaseInc s p = (noiseRate s.launch p).div rate) ∧
    (∀ p : BitVec 16, s.launch.noiseRate.lookup p = none → noisePhaseInc s p = (F32.ofNat 65536).div rate) ∧
    (∀ (v : Voice) (p : BitVec 16), v.phaseIncAt s p =
      match v.source with
      | .pcm d => pcmPhaseInc s d.midCfreq p
      | .square _ _ => sqPhaseInc s p
      | .wave _ => wavePhaseInc s p
      | .noise _ => noisePhaseInc s p) ∧
    ∀ m : F32, m.isFinite = true →
      law m 0 = m.div rate ∧ law m 1200 = (m.mul F32.two).div rate ∧
      law m (BitVec.ofInt 16 (-1200)) = (m.mul F32.half).div rate

/-- The identity law: at `phaseInc = 1.0` and `fpos = +0.0` every variant outputs the current source sample bit for bit, and
the position moves by one whole sample (R161, which the spec derives). The wave buffer is one that Unpack writes. -/
def Obligations.IdentityResampling : Prop :=
  ∀ (s : State) (v : Voice), v.fpos = F32.zero → v.phaseInc = F32.one →
    (∀ buf, v.source = .wave buf → ∀ x ∈ buf.toList, ∃ n : BitVec 4, x = nibbleValue n) →
    resample s v = v.src s v.ipos.toNat ∧
    resampleNearest s v = v.src s v.ipos.toNat ∧
    resampleLinear s v = v.src s v.ipos.toNat ∧
    resampleSinc s (sincKernel s.launch) v = v.src s v.ipos.toNat ∧
    resampleSinc s (blepKernel s.launch) v = v.src s v.ipos.toNat ∧
    (advanceVoice v).fpos = F32.zero ∧
    (advanceVoice v).ipos = BitVec.ofNat 32 (v.wrap (v.ipos.toNat + 1))

/-- A PCM voice reads sample memory only at its own sample indices 0 to `endPos − 1`: two states whose sample memories agree
there give it the same source, at every index, negative ones and ones beyond the end among them (R172, R76). -/
def Obligations.PcmReadsOnlyItsSamples : Prop :=
  ∀ (s t : State) (d : PcmData),
    (∀ k < d.endPos.toNat, s.memRead (d.base.toNat + k) = t.memRead (d.base.toNat + k)) →
    ∀ k : Int, pcmSrc s d k = pcmSrc t d k

/-- The position wrap of a PCM voice: a looping voice stays below `endPos` and plays on in the loop body, so it never reaches
end of stream; any other stops at `endPos` (R172, R173, R179 d, the last derived by the spec). -/
def Obligations.PcmWrap : Prop :=
  ∀ (d : PcmData) (i : Nat),
    (i < d.endPos.toNat → pcmWrap d i = i) ∧
    (d.endPos.toNat ≤ i → d.loopEnabled = true → d.loopPos.toNat < d.endPos.toNat →
      pcmWrap d i = d.loopPos.toNat + (i - d.endPos.toNat) % (d.endPos.toNat - d.loopPos.toNat) ∧
      pcmWrap d i < d.endPos.toNat ∧
      ∀ s : State, pcmSrc s d i = pcmSrc s d (pcmWrap d i)) ∧
    (d.endPos.toNat ≤ i → ¬ (d.loopEnabled = true ∧ d.loopPos.toNat < d.endPos.toNat) →
      pcmWrap d i = d.endPos.toNat)

/-- The LFSR sequences return to the all-ones seed for the first time after 32767 (FINE) and 127 (ROUGH) steps, and never
pass through zero (R206, which the spec derives from R203 and R204). -/
def Obligations.LfsrPeriods : Prop :=
  (lfsrAt .fine 32767 = 0x7FFF#15 ∧ ∀ j, 0 < j → j < 32767 → lfsrAt .fine j ≠ 0x7FFF#15 ∧ lfsrAt .fine j ≠ 0) ∧
  (lfsrAt .rough 127 = 0x7F#15 ∧ ∀ j, 0 < j → j < 127 → lfsrAt .rough j ≠ 0x7F#15 ∧ lfsrAt .rough j ≠ 0)

/-! ## PROCESS -/

/-- PROCESS of a configured block whose voices are inside sample memory completes: one frame of `trackLimit` buffers and a
master, each of `2B` values, is appended, no DEAD voice is left in the pool, `cp` moves, and every register,
TRKCTL, the responses and the inputs are as before (R244, R249). -/
def Obligations.ProcessEmitsOneFrame : Prop :=
  ∀ (s : State), s.configured = true → s.samplesInMemory = true →
    ∃ t f, exec .process s = .next t ∧
      t = { s with pool := t.pool, rev := t.rev, audio := s.audio ++ [f], cp := s.cp + 1 } ∧
      f.out.length = s.trackLimit ∧ (∀ o ∈ f.out, o.length = 2 * s.blockSamples) ∧
      f.master.length = 2 * s.blockSamples ∧
      (∀ v ∈ t.pool, v.eState ≠ .dead)

/-- PROCESS of a configured block whose voices are inside sample memory, voice by voice: each track's buffer is, at every index,
the sum from `+0.0` of its voices' contributions in pool order; each track's reverb runs over its buffer; the
master is, at every index, the sum of the tracks' outputs in ascending order; the frame of these is appended;
the pool is each voice after its own frame, in the same order, without the DEAD ones; nothing else changes
(R81, R244 to R249, R281). -/
def Obligations.ProcessMixesInPoolOrder : Prop :=
  ∀ (s : State), s.configured = true → s.samplesInMemory = true →
    let outs := (List.range s.trackLimit).map fun t =>
      reverb s (s.rev.getD t { line := [], pos := 0 }) (mixedTrack s t)
    let master := (List.range s.blockSamples).map fun i =>
      outs.foldl (fun m o => addStereo m (o.1.getD i silence)) silence
    exec .process s = .next
      { s with
          pool := (s.pool.map fun v => (voiceFrame s v).2).filter fun v => decide (v.eState ≠ .dead)
          rev := outs.map (·.2)
          audio := s.audio ++ [{ out := outs.map fun o => interleave o.1, master := interleave master }]
          cp := s.cp + 1 }

/-- A PCM voice at end of stream: over any positive number of output samples every contribution is `+0.0` times the voice's own
running volumes, which go on along their ramps; `ipos` is `endPos`, and `eos` is set; the first such sample
fast-releases the voice, once (R178, R179 b, R246). -/
def Obligations.EndOfStreamReleasesOnce : Prop :=
  ∀ (s : State) (v : Voice) (d : PcmData) (n : Nat), v.source = .pcm d → 0 < n →
    ¬ loops d → d.endPos.toNat ≤ v.ipos.toNat →
    let r := renderVoice s n v
    r.1 = ((List.range n).map fun i =>
      (F32.zero.mul (rampAt v.curL v.stepL i), F32.zero.mul (rampAt v.curR v.stepR i))) ∧
    r.2.curL = rampAt v.curL v.stepL n ∧ r.2.curR = rampAt v.curR v.stepR n ∧
    r.2.source = .pcm { d with eos := true } ∧ r.2.ipos = d.endPos ∧ r.2.envLevel = v.envLevel ∧
    r.2.eState = (if d.eos = true ∨ v.eState = .dead then v.eState else .rel) ∧
    r.2.fastRelease = (if d.eos = true ∨ v.eState = .dead then v.fastRelease else true)

/-- NORMAL reverb over a frame: at every index the output is the input plus `g` times the previous frame's output, `g` being
`engineRev / 256`; the line then holds this frame's outputs and `revPos` is 0 again (R282, R283). NONE passes the buffer
through bit for bit and does not touch the line (R284). -/
def Obligations.NormalReverbFrame : Prop :=
  ∀ (s : State) (l : RevLine) (buf : List Stereo),
    (s.config.extractLsb' 15 3 = 4 → reverb s l buf = (buf, l)) ∧
    (s.config.extractLsb' 15 3 = 0 → l.line.length = s.blockSamples → buf.length = s.blockSamples → l.pos = 0 →
    let g := (F32.ofNat (s.config.extractLsb' 4 7).toNat).div (F32.ofNat 256)
    let out := List.zipWith (fun x e => ((x.1.add (g.mul e.1), x.2.add (g.mul e.2)) : Stereo)) buf l.line
    reverb s l buf = (out, { line := out, pos := 0 }))

/-- GS1, GS2 and MGAT over a frame: at every index the input, with each tap's matrix applied to the output `delay` samples
earlier added in tap order, taken from this frame or from the previous one; the line then holds this frame's
outputs (R282, R285). -/
def Obligations.TapReverbFrame : Prop :=
  ∀ (s : State) (l : RevLine) (buf : List Stereo) (taps : List Tap),
    1 ≤ (s.config.extractLsb' 15 3).toNat → (s.config.extractLsb' 15 3).toNat ≤ 3 →
    revTapsOf s.launch (s.config.extractLsb' 15 3) (s.config.extractLsb' 4 7) s.blockSamples = some taps →
    l.line.length = s.blockSamples → buf.length = s.blockSamples → l.pos = 0 →
    let r := reverb s l buf
    r.1.length = s.blockSamples ∧ r.2 = { line := r.1, pos := 0 } ∧
    ∀ i < s.blockSamples, r.1.getD i silence =
      taps.foldl (fun acc t =>
        let e := if t.delay ≤ i then r.1.getD (i - t.delay) silence
          else l.line.getD (s.blockSamples + i - t.delay) silence
        (acc.1.add ((t.ll.mul e.1).add (t.lr.mul e.2)), acc.2.add ((t.rl.mul e.1).add (t.rr.mul e.2))))
        (buf.getD i silence)

/-- Zero in, zero out, under every variant: a zero buffer through a zero line gives bitwise zeros and leaves the line zero
(R288, which the spec derives). -/
def Obligations.ReverbZeroInZeroOut : Prop :=
  ∀ (s : State) (n b pos : Nat), pos < b → b = s.blockSamples →
    let z (k : Nat) : List Stereo := List.replicate k (F32.zero, F32.zero)
    (reverb s { line := z b, pos := pos } (z n)).1 = z n ∧
    (reverb s { line := z b, pos := pos } (z n)).2.line = z b

/-- The NORMAL tail decays: under zero input the outputs of the `n`-th frame, which are what the line then holds, are finite
and at every index, on both channels, at most `2^−n` times what the line held at the start; the magnitude at
least halves from frame to frame (R289, which the spec derives). -/
def Obligations.NormalTailDecays : Prop :=
  ∀ (s : State) (l : RevLine), s.config.extractLsb' 15 3 = 0 → l.line.length = s.blockSamples → l.pos = 0 →
    (∀ e ∈ l.line, e.1.isFinite = true ∧ e.2.isFinite = true) →
    ∀ n : Nat,
      let out := (reverb s (silentFrames s l n) (List.replicate s.blockSamples silence)).1
      silentFrames s l (n + 1) = { line := out, pos := 0 } ∧ out.length = s.blockSamples ∧
      ∀ i < s.blockSamples,
        let e := (silentFrames s l n).entry i
        let y := out.getD i silence
        y.1.isFinite = true ∧ y.2.isFinite = true ∧ 2 * y.1.mag ≤ e.1.mag ∧ 2 * y.2.mag ≤ e.2.mag ∧
        2 ^ (n + 1) * y.1.mag ≤ (l.entry i).1.mag ∧ 2 ^ (n + 1) * y.2.mag ≤ (l.entry i).2.mag

/-! ## Invariants and whole-machine rules -/

/-- No step changes a byte of sample memory, the launch record or the command stream (R71, R84, R361). -/
def Obligations.InputsNeverChange : Prop :=
  ∀ (s t : State), step s = .next t →
    (∀ a, t.memRead a = s.memRead a) ∧ t.mem = s.mem ∧ t.launch = s.launch ∧ t.cmd = s.cmd

/-- Which command writes what: only CFG the configuration, only SETVOL TRKCTL, only PROCESS the audio stream, only CFG and
PROCESS the reverb lines, only ENDED, GETBUF and RDREG the responses, only NOTEON, SETPITCH, RELEASE, RESET
and PROCESS the pool (R30 to R33, R40, R44, R56, R61, R62). -/
def Obligations.WhoWritesWhat : Prop :=
  ∀ (i : Instr) (s t : State), exec i s = .next t →
    (i.opcode ≠ .cfg → t.config = s.config ∧ t.poly = s.poly ∧ t.mixRate = s.mixRate ∧ t.bufCnt = s.bufCnt) ∧
    (i.opcode ≠ .setvol → t.trkCtl = s.trkCtl) ∧
    (i.opcode ≠ .process → t.audio = s.audio) ∧
    (i.opcode ≠ .cfg → i.opcode ≠ .process → t.rev = s.rev) ∧
    (i.opcode ∉ [.ended, .getbuf, .rdreg] → t.responses = s.responses) ∧
    (i.opcode ∉ [.noteonPcm, .noteonSq, .noteonWave, .noteonNoise, .setpitch, .release, .reset, .process] →
      t.pool = s.pool)

/-- Nothing is forgotten: CONFIGURED, DROP, DATAERR and every bit of TRKERR, once set, stay set through every step, and what
stands on the response and audio streams stays there (R34, R38, R61, R62). -/
def Obligations.NothingIsForgotten : Prop :=
  ∀ (s t : State), step s = .next t →
    (s.configured = true → t.configured = true) ∧ (s.drop = true → t.drop = true) ∧
    (s.dataErr = true → t.dataErr = true) ∧ (∀ k, s.trkErr.getLsbD k = true → t.trkErr.getLsbD k = true) ∧
    s.responses <+: t.responses ∧ s.audio <+: t.audio

/-- The state after hardware reset, whatever the launch: unconfigured, not halted, TRKFINE all ones, everything else zero or
empty (R65, R360), and legal. State.reset is such a state, with its own launch inputs. -/
def Obligations.ResetState : Prop :=
  State.reset = launched State.reset.launch State.reset.mem State.reset.cmd ∧
  ∀ (p : Launch) (m : Memory) (ws : List Word),
    let s := launched p m ws
    s.cp = 0 ∧ s.config = 0 ∧ s.poly = 0 ∧ s.mixRate = 0 ∧ s.bufCnt = 0 ∧ s.status = 0 ∧ s.errCause = 0 ∧
    s.errInfo = 0 ∧ s.trkFine = 0x0000FFFF#32 ∧ s.trkErr = 0 ∧ (∀ t : Fin 16, s.trkCtl.get t = 0) ∧ s.pool = [] ∧
    s.rev = [] ∧ s.responses = [] ∧ s.audio = [] ∧
    s.registersLegal ∧ s.poolLegal ∧ s.positionsLegal ∧ s.cgbUnique

/-- Every step keeps the registers legal: reserved bits read 0, the configuration is what CFG accepts, a reverb line of `B`
entries with index 0 for every track, every frame of the right shape (R30 to R40, R53 ii, R56, R62, R282). -/
def Obligations.StepKeepsRegistersLegal : Prop :=
  ∀ (s t : State), s.registersLegal → step s = .next t → t.registersLegal

/-- Every step keeps the pool legal: every voice on a track in use, inside sample memory, with `ipos` in its range, level 0
in INIT, at or above `sus` in DEC, not DEAD, and `envInterStep = 0` (R53 i, ii and iv, R76, R141, R225). -/
def Obligations.StepKeepsPoolLegal : Prop :=
  ∀ (s t : State), s.poolLegal → step s = .next t → t.poolLegal

/-- Every step keeps every voice's position legal: `0 ≤ fpos < 1`, `phaseInc` finite and not negative (R47, R53 iii), for a
legal launch and voices whose middle-C frequency is positive. -/
def Obligations.StepKeepsPositionsLegal : Prop :=
  ∀ (s t : State), s.launch.legal = true → s.poolLegal → s.positionsLegal → step s = .next t → t.positionsLegal

/-- Every step keeps at most one voice of a track and CGB kind before REL (R53 v, R222). -/
def Obligations.StepKeepsCgbUnique : Prop :=
  ∀ (s t : State), s.cgbUnique → step s = .next t → t.cgbUnique

/-- No run from a launch reaches a state in which PROCESS would read outside sample memory (R72, R76, R349), so that
the fault the model names for it (log 9) is never met. -/
def Obligations.NoRunLeavesSampleMemory : Prop :=
  ∀ (p : Launch) (m : Memory) (ws : List Word) (s : State), Reaches (launched p m ws) s →
    s.samplesInMemory = true ∧ step s ≠ .fault .sampleOutsideMemory

/-! ## One voice, sample by sample -/

/-- The sources of the voices at every integer index. PCM: `+0.0` before index 0, then the signed bytes over 128, then the loop
body again or `+0.0`. Square: `+1/2` on the first 1, 2, 4 or 6 of 8 indices by its duty, else `−1/2`. Wave: the
buffer cyclically. Noise: `±1/2` by bit 0 of the state the LFSR has after index mod 32767 (FINE) or 127 (ROUGH)
steps from all ones, each a right shift with the exclusive or of bits 0 and 1 entering at the top (R171, R172,
R191, R192, R198, R202 to R205). -/
def Obligations.SourceValues : Prop :=
  ∀ (s : State) (v : Voice),
    (∀ d, v.source = .pcm d →
      (∀ k : Int, k < 0 → v.src s k = F32.zero) ∧
      (∀ n : Nat, n < d.endPos.toNat →
        v.src s n = (F32.ofInt (s.memRead (d.base.toNat + n)).toInt).div (F32.ofNat 128)) ∧
      (∀ n : Nat, d.endPos.toNat ≤ n → loops d →
        v.src s n = (F32.ofInt (s.memRead (d.base.toNat + (d.loopPos.toNat +
          (n - d.endPos.toNat) % (d.endPos.toNat - d.loopPos.toNat)))).toInt).div (F32.ofNat 128)) ∧
      (∀ n : Nat, d.endPos.toNat ≤ n → ¬ loops d → v.src s n = F32.zero)) ∧
    (∀ u duty, v.source = .square u duty → ∀ k : Int,
      v.src s k =
        if k % 8 < (match duty with | .duty12 => 1 | .duty25 => 2 | .duty50 => 4 | .duty75 => 6) then F32.half
        else F32.negHalf) ∧
    (∀ buf, v.source = .wave buf → ∀ (k : Int) (n : Fin 32), k % 32 = (n.val : Int) → v.src s k = buf.get n) ∧
    (∀ p, v.source = .noise p → ∀ x : Nat → BitVec 15,
      x 0 = (match p with | .fine => 0x7FFF#15 | .rough => 0x007F#15) →
      (∀ j, x (j + 1) = (x j >>> 1) |||
        (if (x j).getLsbD 0 = (x j).getLsbD 1 then 0#15 else match p with | .fine => 0x4000#15 | .rough => 0x0040#15)) →
      v.lfsr = some (x v.ipos.toNat) ∧
      ∀ k : Int, v.src s k =
        if (x (k % (match p with | .fine => 32767 | .rough => 127)).toNat).getLsbD 0 = true then F32.half
        else F32.negHalf)

/-- The law of one output sample. Its value is, by the variant the voice's kind and CONFIG select, the current source sample,
the linear blend of it and the next, or the sixteen-tap sum; at the end of a PCM stream `+0.0`, with one fast
release. It is added times the running volumes; these take one step of the ramp; the position advances by
`phaseInc`, its whole part going to `ipos` through the wrap of the source; nothing else of the voice changes
(R154 to R157, R160, R178, R246). -/
def Obligations.OneOutputSample : Prop :=
  ∀ (s : State) (v : Voice) (n : Nat),
    let resamp := s.config.extractLsb' 18 2
    let a := v.src s v.ipos.toNat
    let b := v.src s (v.ipos.toNat + 1)
    let configured : Prop :=
      (resamp = 0 → resample s v = a) ∧
      (resamp = 1 → resample s v = a.add ((b.sub a).mul v.fpos)) ∧
      (resamp = 2 → resample s v = sincSum s (sincKernel s.launch) v)
    let t := v.fpos.add v.phaseInc
    let c := t.floorNat
    let w : Voice :=
      { v with
          curL := v.curL.add v.stepL, curR := v.curR.add v.stepR, fpos := t.sub (F32.ofNat c),
          ipos := BitVec.ofNat 32 (wrappedTo v.source (v.ipos.toNat + c)) }
    (∀ d, v.source = .pcm d → configured) ∧
    (∀ buf, v.source = .wave buf → configured) ∧
    (∀ u duty, v.source = .square u duty → resample s v = sincSum s (blepKernel s.launch) v) ∧
    (∀ p, v.source = .noise p → resample s v = sincSum s (sincKernel s.launch) v) ∧
    (t.isFinite = true → t.unsigned = true → c * 2 ^ 149 ≤ t.mag ∧ t.mag < (c + 1) * 2 ^ 149) ∧
    renderVoice s 0 v = ([], v) ∧
    ((¬ ∃ d, v.source = .pcm d ∧ ¬ loops d ∧ d.endPos.toNat ≤ v.ipos.toNat) →
      let x := resample s v
      renderVoice s (n + 1) v = ((x.mul v.curL, x.mul v.curR) :: (renderVoice s n w).1, (renderVoice s n w).2)) ∧
    ∀ d, v.source = .pcm d → ¬ loops d → d.endPos.toNat ≤ v.ipos.toNat →
      let u : Voice :=
        if d.eos = true then w
        else
          { w with
              source := .pcm { d with eos := true }
              eState := if v.eState = .dead then .dead else .rel
              fastRelease := if v.eState = .dead then v.fastRelease else true }
      renderVoice s (n + 1) v =
        ((F32.zero.mul v.curL, F32.zero.mul v.curR) :: (renderVoice s n u).1, (renderVoice s n u).2)
end

