-- ==== Sys2Proof/Laws/State.lean ====
section
/-!
SUPPORT. What each update of the state leaves in each field: one lemma per field per update, true by rfl, so that no
later proof unfolds a record update.
-/

namespace Sys2Proof.Machine

variable (s : State)

/-! ## State.advance -/

@[simp] theorem advance_cp (n : Nat) : (s.advance n).cp = s.cp + n := rfl
@[simp] theorem advance_config (n : Nat) : (s.advance n).config = s.config := rfl
@[simp] theorem advance_poly (n : Nat) : (s.advance n).poly = s.poly := rfl
@[simp] theorem advance_mixRate (n : Nat) : (s.advance n).mixRate = s.mixRate := rfl
@[simp] theorem advance_bufCnt (n : Nat) : (s.advance n).bufCnt = s.bufCnt := rfl
@[simp] theorem advance_status (n : Nat) : (s.advance n).status = s.status := rfl
@[simp] theorem advance_errCause (n : Nat) : (s.advance n).errCause = s.errCause := rfl
@[simp] theorem advance_errInfo (n : Nat) : (s.advance n).errInfo = s.errInfo := rfl
@[simp] theorem advance_trkFine (n : Nat) : (s.advance n).trkFine = s.trkFine := rfl
@[simp] theorem advance_trkErr (n : Nat) : (s.advance n).trkErr = s.trkErr := rfl
@[simp] theorem advance_trkCtl (n : Nat) : (s.advance n).trkCtl = s.trkCtl := rfl
@[simp] theorem advance_pool (n : Nat) : (s.advance n).pool = s.pool := rfl
@[simp] theorem advance_rev (n : Nat) : (s.advance n).rev = s.rev := rfl
@[simp] theorem advance_responses (n : Nat) : (s.advance n).responses = s.responses := rfl
@[simp] theorem advance_audio (n : Nat) : (s.advance n).audio = s.audio := rfl
@[simp] theorem advance_cmd (n : Nat) : (s.advance n).cmd = s.cmd := rfl
@[simp] theorem advance_mem (n : Nat) : (s.advance n).mem = s.mem := rfl
@[simp] theorem advance_launch (n : Nat) : (s.advance n).launch = s.launch := rfl

/-! ## State.respond -/

@[simp] theorem respond_cp (w : Word) : (s.respond w).cp = s.cp := rfl
@[simp] theorem respond_config (w : Word) : (s.respond w).config = s.config := rfl
@[simp] theorem respond_poly (w : Word) : (s.respond w).poly = s.poly := rfl
@[simp] theorem respond_mixRate (w : Word) : (s.respond w).mixRate = s.mixRate := rfl
@[simp] theorem respond_bufCnt (w : Word) : (s.respond w).bufCnt = s.bufCnt := rfl
@[simp] theorem respond_status (w : Word) : (s.respond w).status = s.status := rfl
@[simp] theorem respond_errCause (w : Word) : (s.respond w).errCause = s.errCause := rfl
@[simp] theorem respond_errInfo (w : Word) : (s.respond w).errInfo = s.errInfo := rfl
@[simp] theorem respond_trkFine (w : Word) : (s.respond w).trkFine = s.trkFine := rfl
@[simp] theorem respond_trkErr (w : Word) : (s.respond w).trkErr = s.trkErr := rfl
@[simp] theorem respond_trkCtl (w : Word) : (s.respond w).trkCtl = s.trkCtl := rfl
@[simp] theorem respond_pool (w : Word) : (s.respond w).pool = s.pool := rfl
@[simp] theorem respond_rev (w : Word) : (s.respond w).rev = s.rev := rfl
@[simp] theorem respond_responses (w : Word) : (s.respond w).responses = s.responses ++ [w] := rfl
@[simp] theorem respond_audio (w : Word) : (s.respond w).audio = s.audio := rfl
@[simp] theorem respond_cmd (w : Word) : (s.respond w).cmd = s.cmd := rfl
@[simp] theorem respond_mem (w : Word) : (s.respond w).mem = s.mem := rfl
@[simp] theorem respond_launch (w : Word) : (s.respond w).launch = s.launch := rfl

/-! ## State.recordError -/

@[simp] theorem recordError_cp (e : ErrSub) (trk : BitVec 4) : (s.recordError e trk).cp = s.cp := rfl
@[simp] theorem recordError_config (e : ErrSub) (trk : BitVec 4) : (s.recordError e trk).config = s.config := rfl
@[simp] theorem recordError_poly (e : ErrSub) (trk : BitVec 4) : (s.recordError e trk).poly = s.poly := rfl
@[simp] theorem recordError_mixRate (e : ErrSub) (trk : BitVec 4) : (s.recordError e trk).mixRate = s.mixRate := rfl
@[simp] theorem recordError_bufCnt (e : ErrSub) (trk : BitVec 4) : (s.recordError e trk).bufCnt = s.bufCnt := rfl
@[simp] theorem recordError_status (e : ErrSub) (trk : BitVec 4) : (s.recordError e trk).status = s.status := rfl
@[simp] theorem recordError_errCause (e : ErrSub) (trk : BitVec 4) : (s.recordError e trk).errCause = errCauseWord e trk := rfl
@[simp] theorem recordError_errInfo (e : ErrSub) (trk : BitVec 4) : (s.recordError e trk).errInfo = BitVec.ofNat 32 s.cp := rfl
@[simp] theorem recordError_trkFine (e : ErrSub) (trk : BitVec 4) : (s.recordError e trk).trkFine = s.trkFine := rfl
@[simp] theorem recordError_trkErr (e : ErrSub) (trk : BitVec 4) : (s.recordError e trk).trkErr = s.trkErr := rfl
@[simp] theorem recordError_trkCtl (e : ErrSub) (trk : BitVec 4) : (s.recordError e trk).trkCtl = s.trkCtl := rfl
@[simp] theorem recordError_pool (e : ErrSub) (trk : BitVec 4) : (s.recordError e trk).pool = s.pool := rfl
@[simp] theorem recordError_rev (e : ErrSub) (trk : BitVec 4) : (s.recordError e trk).rev = s.rev := rfl
@[simp] theorem recordError_responses (e : ErrSub) (trk : BitVec 4) : (s.recordError e trk).responses = s.responses := rfl
@[simp] theorem recordError_audio (e : ErrSub) (trk : BitVec 4) : (s.recordError e trk).audio = s.audio := rfl
@[simp] theorem recordError_cmd (e : ErrSub) (trk : BitVec 4) : (s.recordError e trk).cmd = s.cmd := rfl
@[simp] theorem recordError_mem (e : ErrSub) (trk : BitVec 4) : (s.recordError e trk).mem = s.mem := rfl
@[simp] theorem recordError_launch (e : ErrSub) (trk : BitVec 4) : (s.recordError e trk).launch = s.launch := rfl

/-! ## State.createVoice -/

@[simp] theorem createVoice_cp (v : Voice) : (s.createVoice v).cp = s.cp := rfl
@[simp] theorem createVoice_config (v : Voice) : (s.createVoice v).config = s.config := rfl
@[simp] theorem createVoice_poly (v : Voice) : (s.createVoice v).poly = s.poly := rfl
@[simp] theorem createVoice_mixRate (v : Voice) : (s.createVoice v).mixRate = s.mixRate := rfl
@[simp] theorem createVoice_bufCnt (v : Voice) : (s.createVoice v).bufCnt = s.bufCnt := rfl
@[simp] theorem createVoice_status (v : Voice) : (s.createVoice v).status = s.status := rfl
@[simp] theorem createVoice_errCause (v : Voice) : (s.createVoice v).errCause = s.errCause := rfl
@[simp] theorem createVoice_errInfo (v : Voice) : (s.createVoice v).errInfo = s.errInfo := rfl
@[simp] theorem createVoice_trkFine (v : Voice) : (s.createVoice v).trkFine = s.trkFine := rfl
@[simp] theorem createVoice_trkErr (v : Voice) : (s.createVoice v).trkErr = s.trkErr := rfl
@[simp] theorem createVoice_trkCtl (v : Voice) : (s.createVoice v).trkCtl = s.trkCtl := rfl
@[simp] theorem createVoice_pool (v : Voice) : (s.createVoice v).pool = s.pool ++ [v] := rfl
@[simp] theorem createVoice_rev (v : Voice) : (s.createVoice v).rev = s.rev := rfl
@[simp] theorem createVoice_responses (v : Voice) : (s.createVoice v).responses = s.responses := rfl
@[simp] theorem createVoice_audio (v : Voice) : (s.createVoice v).audio = s.audio := rfl
@[simp] theorem createVoice_cmd (v : Voice) : (s.createVoice v).cmd = s.cmd := rfl
@[simp] theorem createVoice_mem (v : Voice) : (s.createVoice v).mem = s.mem := rfl
@[simp] theorem createVoice_launch (v : Voice) : (s.createVoice v).launch = s.launch := rfl

/-! ## State.cgbPreempt -/

@[simp] theorem cgbPreempt_cp (trk : BitVec 4) (kind : Kind) : (s.cgbPreempt trk kind).cp = s.cp := rfl
@[simp] theorem cgbPreempt_config (trk : BitVec 4) (kind : Kind) : (s.cgbPreempt trk kind).config = s.config := rfl
@[simp] theorem cgbPreempt_poly (trk : BitVec 4) (kind : Kind) : (s.cgbPreempt trk kind).poly = s.poly := rfl
@[simp] theorem cgbPreempt_mixRate (trk : BitVec 4) (kind : Kind) : (s.cgbPreempt trk kind).mixRate = s.mixRate := rfl
@[simp] theorem cgbPreempt_bufCnt (trk : BitVec 4) (kind : Kind) : (s.cgbPreempt trk kind).bufCnt = s.bufCnt := rfl
@[simp] theorem cgbPreempt_status (trk : BitVec 4) (kind : Kind) : (s.cgbPreempt trk kind).status = s.status := rfl
@[simp] theorem cgbPreempt_errCause (trk : BitVec 4) (kind : Kind) : (s.cgbPreempt trk kind).errCause = s.errCause := rfl
@[simp] theorem cgbPreempt_errInfo (trk : BitVec 4) (kind : Kind) : (s.cgbPreempt trk kind).errInfo = s.errInfo := rfl
@[simp] theorem cgbPreempt_trkFine (trk : BitVec 4) (kind : Kind) : (s.cgbPreempt trk kind).trkFine = s.trkFine := rfl
@[simp] theorem cgbPreempt_trkErr (trk : BitVec 4) (kind : Kind) : (s.cgbPreempt trk kind).trkErr = s.trkErr := rfl
@[simp] theorem cgbPreempt_trkCtl (trk : BitVec 4) (kind : Kind) : (s.cgbPreempt trk kind).trkCtl = s.trkCtl := rfl
@[simp] theorem cgbPreempt_pool (trk : BitVec 4) (kind : Kind) : (s.cgbPreempt trk kind).pool = s.pool.map fun v => if v.track == trk && v.kind == kind && v.eState != .dead then releaseVoice true v else v := rfl
@[simp] theorem cgbPreempt_rev (trk : BitVec 4) (kind : Kind) : (s.cgbPreempt trk kind).rev = s.rev := rfl
@[simp] theorem cgbPreempt_responses (trk : BitVec 4) (kind : Kind) : (s.cgbPreempt trk kind).responses = s.responses := rfl
@[simp] theorem cgbPreempt_audio (trk : BitVec 4) (kind : Kind) : (s.cgbPreempt trk kind).audio = s.audio := rfl
@[simp] theorem cgbPreempt_cmd (trk : BitVec 4) (kind : Kind) : (s.cgbPreempt trk kind).cmd = s.cmd := rfl
@[simp] theorem cgbPreempt_mem (trk : BitVec 4) (kind : Kind) : (s.cgbPreempt trk kind).mem = s.mem := rfl
@[simp] theorem cgbPreempt_launch (trk : BitVec 4) (kind : Kind) : (s.cgbPreempt trk kind).launch = s.launch := rfl

/-! ## State.setTrkCtl -/

@[simp] theorem setTrkCtl_cp (trk : BitVec 4) (w : Word) : (s.setTrkCtl trk w).cp = s.cp := rfl
@[simp] theorem setTrkCtl_config (trk : BitVec 4) (w : Word) : (s.setTrkCtl trk w).config = s.config := rfl
@[simp] theorem setTrkCtl_poly (trk : BitVec 4) (w : Word) : (s.setTrkCtl trk w).poly = s.poly := rfl
@[simp] theorem setTrkCtl_mixRate (trk : BitVec 4) (w : Word) : (s.setTrkCtl trk w).mixRate = s.mixRate := rfl
@[simp] theorem setTrkCtl_bufCnt (trk : BitVec 4) (w : Word) : (s.setTrkCtl trk w).bufCnt = s.bufCnt := rfl
@[simp] theorem setTrkCtl_status (trk : BitVec 4) (w : Word) : (s.setTrkCtl trk w).status = s.status := rfl
@[simp] theorem setTrkCtl_errCause (trk : BitVec 4) (w : Word) : (s.setTrkCtl trk w).errCause = s.errCause := rfl
@[simp] theorem setTrkCtl_errInfo (trk : BitVec 4) (w : Word) : (s.setTrkCtl trk w).errInfo = s.errInfo := rfl
@[simp] theorem setTrkCtl_trkFine (trk : BitVec 4) (w : Word) : (s.setTrkCtl trk w).trkFine = s.trkFine := rfl
@[simp] theorem setTrkCtl_trkErr (trk : BitVec 4) (w : Word) : (s.setTrkCtl trk w).trkErr = s.trkErr := rfl
@[simp] theorem setTrkCtl_trkCtl (trk : BitVec 4) (w : Word) : (s.setTrkCtl trk w).trkCtl = s.trkCtl.set trk.toNat w trk.isLt := rfl
@[simp] theorem setTrkCtl_pool (trk : BitVec 4) (w : Word) : (s.setTrkCtl trk w).pool = s.pool := rfl
@[simp] theorem setTrkCtl_rev (trk : BitVec 4) (w : Word) : (s.setTrkCtl trk w).rev = s.rev := rfl
@[simp] theorem setTrkCtl_responses (trk : BitVec 4) (w : Word) : (s.setTrkCtl trk w).responses = s.responses := rfl
@[simp] theorem setTrkCtl_audio (trk : BitVec 4) (w : Word) : (s.setTrkCtl trk w).audio = s.audio := rfl
@[simp] theorem setTrkCtl_cmd (trk : BitVec 4) (w : Word) : (s.setTrkCtl trk w).cmd = s.cmd := rfl
@[simp] theorem setTrkCtl_mem (trk : BitVec 4) (w : Word) : (s.setTrkCtl trk w).mem = s.mem := rfl
@[simp] theorem setTrkCtl_launch (trk : BitVec 4) (w : Word) : (s.setTrkCtl trk w).launch = s.launch := rfl

/-! ## State.appendWords -/

@[simp] theorem appendWords_cp (ws : List Word) : (s.appendWords ws).cp = s.cp := rfl
@[simp] theorem appendWords_config (ws : List Word) : (s.appendWords ws).config = s.config := rfl
@[simp] theorem appendWords_poly (ws : List Word) : (s.appendWords ws).poly = s.poly := rfl
@[simp] theorem appendWords_mixRate (ws : List Word) : (s.appendWords ws).mixRate = s.mixRate := rfl
@[simp] theorem appendWords_bufCnt (ws : List Word) : (s.appendWords ws).bufCnt = s.bufCnt := rfl
@[simp] theorem appendWords_status (ws : List Word) : (s.appendWords ws).status = s.status := rfl
@[simp] theorem appendWords_errCause (ws : List Word) : (s.appendWords ws).errCause = s.errCause := rfl
@[simp] theorem appendWords_errInfo (ws : List Word) : (s.appendWords ws).errInfo = s.errInfo := rfl
@[simp] theorem appendWords_trkFine (ws : List Word) : (s.appendWords ws).trkFine = s.trkFine := rfl
@[simp] theorem appendWords_trkErr (ws : List Word) : (s.appendWords ws).trkErr = s.trkErr := rfl
@[simp] theorem appendWords_trkCtl (ws : List Word) : (s.appendWords ws).trkCtl = s.trkCtl := rfl
@[simp] theorem appendWords_pool (ws : List Word) : (s.appendWords ws).pool = s.pool := rfl
@[simp] theorem appendWords_rev (ws : List Word) : (s.appendWords ws).rev = s.rev := rfl
@[simp] theorem appendWords_responses (ws : List Word) : (s.appendWords ws).responses = s.responses := rfl
@[simp] theorem appendWords_audio (ws : List Word) : (s.appendWords ws).audio = s.audio := rfl
@[simp] theorem appendWords_cmd (ws : List Word) : (s.appendWords ws).cmd = s.cmd ++ ws := rfl
@[simp] theorem appendWords_mem (ws : List Word) : (s.appendWords ws).mem = s.mem := rfl
@[simp] theorem appendWords_launch (ws : List Word) : (s.appendWords ws).launch = s.launch := rfl

/-! ## State.placeWords -/

@[simp] theorem placeWords_cp (ws : List Word) : (s.placeWords ws).cp = s.cp := rfl
@[simp] theorem placeWords_config (ws : List Word) : (s.placeWords ws).config = s.config := rfl
@[simp] theorem placeWords_poly (ws : List Word) : (s.placeWords ws).poly = s.poly := rfl
@[simp] theorem placeWords_mixRate (ws : List Word) : (s.placeWords ws).mixRate = s.mixRate := rfl
@[simp] theorem placeWords_bufCnt (ws : List Word) : (s.placeWords ws).bufCnt = s.bufCnt := rfl
@[simp] theorem placeWords_status (ws : List Word) : (s.placeWords ws).status = s.status := rfl
@[simp] theorem placeWords_errCause (ws : List Word) : (s.placeWords ws).errCause = s.errCause := rfl
@[simp] theorem placeWords_errInfo (ws : List Word) : (s.placeWords ws).errInfo = s.errInfo := rfl
@[simp] theorem placeWords_trkFine (ws : List Word) : (s.placeWords ws).trkFine = s.trkFine := rfl
@[simp] theorem placeWords_trkErr (ws : List Word) : (s.placeWords ws).trkErr = s.trkErr := rfl
@[simp] theorem placeWords_trkCtl (ws : List Word) : (s.placeWords ws).trkCtl = s.trkCtl := rfl
@[simp] theorem placeWords_pool (ws : List Word) : (s.placeWords ws).pool = s.pool := rfl
@[simp] theorem placeWords_rev (ws : List Word) : (s.placeWords ws).rev = s.rev := rfl
@[simp] theorem placeWords_responses (ws : List Word) : (s.placeWords ws).responses = s.responses := rfl
@[simp] theorem placeWords_audio (ws : List Word) : (s.placeWords ws).audio = s.audio := rfl
@[simp] theorem placeWords_mem (ws : List Word) : (s.placeWords ws).mem = s.mem := rfl
@[simp] theorem placeWords_launch (ws : List Word) : (s.placeWords ws).launch = s.launch := rfl

/-! ## cfgEffect -/

@[simp] theorem cfgEffect_cp (c p : Word) : (cfgEffect c p s).cp = s.cp + 3 := rfl
@[simp] theorem cfgEffect_config (c p : Word) : (cfgEffect c p s).config = c := rfl
@[simp] theorem cfgEffect_poly (c p : Word) : (cfgEffect c p s).poly = p := rfl
@[simp] theorem cfgEffect_mixRate (c p : Word) : (cfgEffect c p s).mixRate = cfgMixRate s c := rfl
@[simp] theorem cfgEffect_bufCnt (c p : Word) : (cfgEffect c p s).bufCnt = BitVec.ofNat 32 (cfgBlock s c) := rfl
@[simp] theorem cfgEffect_status (c p : Word) : (cfgEffect c p s).status = setBit s.status statusConfiguredBit := rfl
@[simp] theorem cfgEffect_errCause (c p : Word) : (cfgEffect c p s).errCause = s.errCause := rfl
@[simp] theorem cfgEffect_errInfo (c p : Word) : (cfgEffect c p s).errInfo = s.errInfo := rfl
@[simp] theorem cfgEffect_trkFine (c p : Word) : (cfgEffect c p s).trkFine = s.trkFine := rfl
@[simp] theorem cfgEffect_trkErr (c p : Word) : (cfgEffect c p s).trkErr = s.trkErr := rfl
@[simp] theorem cfgEffect_trkCtl (c p : Word) : (cfgEffect c p s).trkCtl = s.trkCtl := rfl
@[simp] theorem cfgEffect_pool (c p : Word) : (cfgEffect c p s).pool = s.pool := rfl
@[simp] theorem cfgEffect_rev (c p : Word) : (cfgEffect c p s).rev = List.replicate (cfgTrackLimit c).toNat (freshLine (cfgBlock s c)) := rfl
@[simp] theorem cfgEffect_responses (c p : Word) : (cfgEffect c p s).responses = s.responses := rfl
@[simp] theorem cfgEffect_audio (c p : Word) : (cfgEffect c p s).audio = s.audio := rfl
@[simp] theorem cfgEffect_cmd (c p : Word) : (cfgEffect c p s).cmd = s.cmd := rfl
@[simp] theorem cfgEffect_mem (c p : Word) : (cfgEffect c p s).mem = s.mem := rfl
@[simp] theorem cfgEffect_launch (c p : Word) : (cfgEffect c p s).launch = s.launch := rfl

/-! ## processFrame -/

@[simp] theorem processFrame_cp : (processFrame s).cp = s.cp + 1 := rfl
@[simp] theorem processFrame_config : (processFrame s).config = s.config := rfl
@[simp] theorem processFrame_poly : (processFrame s).poly = s.poly := rfl
@[simp] theorem processFrame_mixRate : (processFrame s).mixRate = s.mixRate := rfl
@[simp] theorem processFrame_bufCnt : (processFrame s).bufCnt = s.bufCnt := rfl
@[simp] theorem processFrame_status : (processFrame s).status = s.status := rfl
@[simp] theorem processFrame_errCause : (processFrame s).errCause = s.errCause := rfl
@[simp] theorem processFrame_errInfo : (processFrame s).errInfo = s.errInfo := rfl
@[simp] theorem processFrame_trkFine : (processFrame s).trkFine = s.trkFine := rfl
@[simp] theorem processFrame_trkErr : (processFrame s).trkErr = s.trkErr := rfl
@[simp] theorem processFrame_trkCtl : (processFrame s).trkCtl = s.trkCtl := rfl
@[simp] theorem processFrame_pool : (processFrame s).pool = (produceFrame s).1.filter fun v => v.eState != .dead := rfl
@[simp] theorem processFrame_rev : (processFrame s).rev = (reverbTracks s (produceFrame s).2).map (·.2) := rfl
@[simp] theorem processFrame_responses : (processFrame s).responses = s.responses := rfl
@[simp] theorem processFrame_audio : (processFrame s).audio = s.audio ++ [frameOf s.blockSamples ((reverbTracks s (produceFrame s).2).map (·.1))] := rfl
@[simp] theorem processFrame_cmd : (processFrame s).cmd = s.cmd := rfl
@[simp] theorem processFrame_mem : (processFrame s).mem = s.mem := rfl
@[simp] theorem processFrame_launch : (processFrame s).launch = s.launch := rfl

/-! ## takeError -/

@[simp] theorem takeError_config (e : ErrSub) (trk : BitVec 4) (n : Nat) : (s.takeError e trk n).config = s.config := by
  unfold State.takeError; cases e.kind <;> rfl
@[simp] theorem takeError_poly (e : ErrSub) (trk : BitVec 4) (n : Nat) : (s.takeError e trk n).poly = s.poly := by
  unfold State.takeError; cases e.kind <;> rfl
@[simp] theorem takeError_mixRate (e : ErrSub) (trk : BitVec 4) (n : Nat) : (s.takeError e trk n).mixRate = s.mixRate := by
  unfold State.takeError; cases e.kind <;> rfl
@[simp] theorem takeError_bufCnt (e : ErrSub) (trk : BitVec 4) (n : Nat) : (s.takeError e trk n).bufCnt = s.bufCnt := by
  unfold State.takeError; cases e.kind <;> rfl
@[simp] theorem takeError_trkCtl (e : ErrSub) (trk : BitVec 4) (n : Nat) : (s.takeError e trk n).trkCtl = s.trkCtl := by
  unfold State.takeError; cases e.kind <;> rfl
@[simp] theorem takeError_pool (e : ErrSub) (trk : BitVec 4) (n : Nat) : (s.takeError e trk n).pool = s.pool := by
  unfold State.takeError; cases e.kind <;> rfl
@[simp] theorem takeError_rev (e : ErrSub) (trk : BitVec 4) (n : Nat) : (s.takeError e trk n).rev = s.rev := by
  unfold State.takeError; cases e.kind <;> rfl
@[simp] theorem takeError_responses (e : ErrSub) (trk : BitVec 4) (n : Nat) : (s.takeError e trk n).responses = s.responses := by
  unfold State.takeError; cases e.kind <;> rfl
@[simp] theorem takeError_audio (e : ErrSub) (trk : BitVec 4) (n : Nat) : (s.takeError e trk n).audio = s.audio := by
  unfold State.takeError; cases e.kind <;> rfl
@[simp] theorem takeError_cmd (e : ErrSub) (trk : BitVec 4) (n : Nat) : (s.takeError e trk n).cmd = s.cmd := by
  unfold State.takeError; cases e.kind <;> rfl
@[simp] theorem takeError_mem (e : ErrSub) (trk : BitVec 4) (n : Nat) : (s.takeError e trk n).mem = s.mem := by
  unfold State.takeError; cases e.kind <;> rfl
@[simp] theorem takeError_launch (e : ErrSub) (trk : BitVec 4) (n : Nat) : (s.takeError e trk n).launch = s.launch := by
  unfold State.takeError; cases e.kind <;> rfl

@[simp] theorem takeError_errCause (e : ErrSub) (trk : BitVec 4) (n : Nat) : (s.takeError e trk n).errCause = errCauseWord e trk := by
  unfold State.takeError; cases e.kind <;> rfl
@[simp] theorem takeError_errInfo (e : ErrSub) (trk : BitVec 4) (n : Nat) : (s.takeError e trk n).errInfo = BitVec.ofNat 32 s.cp := by
  unfold State.takeError; cases e.kind <;> rfl

/-! ## dropNote -/

@[simp] theorem dropNote_config (e : ErrSub) (trk : BitVec 4) : (s.dropNote e trk).config = s.config := takeError_config s e trk 0
@[simp] theorem dropNote_poly (e : ErrSub) (trk : BitVec 4) : (s.dropNote e trk).poly = s.poly := takeError_poly s e trk 0
@[simp] theorem dropNote_mixRate (e : ErrSub) (trk : BitVec 4) : (s.dropNote e trk).mixRate = s.mixRate := takeError_mixRate s e trk 0
@[simp] theorem dropNote_bufCnt (e : ErrSub) (trk : BitVec 4) : (s.dropNote e trk).bufCnt = s.bufCnt := takeError_bufCnt s e trk 0
@[simp] theorem dropNote_trkCtl (e : ErrSub) (trk : BitVec 4) : (s.dropNote e trk).trkCtl = s.trkCtl := takeError_trkCtl s e trk 0
@[simp] theorem dropNote_pool (e : ErrSub) (trk : BitVec 4) : (s.dropNote e trk).pool = s.pool := takeError_pool s e trk 0
@[simp] theorem dropNote_rev (e : ErrSub) (trk : BitVec 4) : (s.dropNote e trk).rev = s.rev := takeError_rev s e trk 0
@[simp] theorem dropNote_responses (e : ErrSub) (trk : BitVec 4) : (s.dropNote e trk).responses = s.responses := takeError_responses s e trk 0
@[simp] theorem dropNote_audio (e : ErrSub) (trk : BitVec 4) : (s.dropNote e trk).audio = s.audio := takeError_audio s e trk 0
@[simp] theorem dropNote_cmd (e : ErrSub) (trk : BitVec 4) : (s.dropNote e trk).cmd = s.cmd := takeError_cmd s e trk 0
@[simp] theorem dropNote_mem (e : ErrSub) (trk : BitVec 4) : (s.dropNote e trk).mem = s.mem := takeError_mem s e trk 0
@[simp] theorem dropNote_launch (e : ErrSub) (trk : BitVec 4) : (s.dropNote e trk).launch = s.launch := takeError_launch s e trk 0

/-! ## What the allocation of a voice leaves alone -/

@[simp] theorem placeVoice_config (v : Voice) : (s.placeVoice v).config = s.config := by
  unfold State.placeVoice; split <;> simp
@[simp] theorem admitCgb_config (v : Voice) : (s.admitCgb v).config = s.config := by simp [State.admitCgb]
@[simp] theorem admitPcm_config (v : Voice) : (s.admitPcm v).config = s.config := by
  unfold State.admitPcm; split
  · simp
  · split <;> simp
@[simp] theorem placeVoice_poly (v : Voice) : (s.placeVoice v).poly = s.poly := by
  unfold State.placeVoice; split <;> simp
@[simp] theorem admitCgb_poly (v : Voice) : (s.admitCgb v).poly = s.poly := by simp [State.admitCgb]
@[simp] theorem admitPcm_poly (v : Voice) : (s.admitPcm v).poly = s.poly := by
  unfold State.admitPcm; split
  · simp
  · split <;> simp
@[simp] theorem placeVoice_mixRate (v : Voice) : (s.placeVoice v).mixRate = s.mixRate := by
  unfold State.placeVoice; split <;> simp
@[simp] theorem admitCgb_mixRate (v : Voice) : (s.admitCgb v).mixRate = s.mixRate := by simp [State.admitCgb]
@[simp] theorem admitPcm_mixRate (v : Voice) : (s.admitPcm v).mixRate = s.mixRate := by
  unfold State.admitPcm; split
  · simp
  · split <;> simp
@[simp] theorem placeVoice_bufCnt (v : Voice) : (s.placeVoice v).bufCnt = s.bufCnt := by
  unfold State.placeVoice; split <;> simp
@[simp] theorem admitCgb_bufCnt (v : Voice) : (s.admitCgb v).bufCnt = s.bufCnt := by simp [State.admitCgb]
@[simp] theorem admitPcm_bufCnt (v : Voice) : (s.admitPcm v).bufCnt = s.bufCnt := by
  unfold State.admitPcm; split
  · simp
  · split <;> simp
@[simp] theorem placeVoice_trkCtl (v : Voice) : (s.placeVoice v).trkCtl = s.trkCtl := by
  unfold State.placeVoice; split <;> simp
@[simp] theorem admitCgb_trkCtl (v : Voice) : (s.admitCgb v).trkCtl = s.trkCtl := by simp [State.admitCgb]
@[simp] theorem admitPcm_trkCtl (v : Voice) : (s.admitPcm v).trkCtl = s.trkCtl := by
  unfold State.admitPcm; split
  · simp
  · split <;> simp
@[simp] theorem placeVoice_rev (v : Voice) : (s.placeVoice v).rev = s.rev := by
  unfold State.placeVoice; split <;> simp
@[simp] theorem admitCgb_rev (v : Voice) : (s.admitCgb v).rev = s.rev := by simp [State.admitCgb]
@[simp] theorem admitPcm_rev (v : Voice) : (s.admitPcm v).rev = s.rev := by
  unfold State.admitPcm; split
  · simp
  · split <;> simp
@[simp] theorem placeVoice_responses (v : Voice) : (s.placeVoice v).responses = s.responses := by
  unfold State.placeVoice; split <;> simp
@[simp] theorem admitCgb_responses (v : Voice) : (s.admitCgb v).responses = s.responses := by simp [State.admitCgb]
@[simp] theorem admitPcm_responses (v : Voice) : (s.admitPcm v).responses = s.responses := by
  unfold State.admitPcm; split
  · simp
  · split <;> simp
@[simp] theorem placeVoice_audio (v : Voice) : (s.placeVoice v).audio = s.audio := by
  unfold State.placeVoice; split <;> simp
@[simp] theorem admitCgb_audio (v : Voice) : (s.admitCgb v).audio = s.audio := by simp [State.admitCgb]
@[simp] theorem admitPcm_audio (v : Voice) : (s.admitPcm v).audio = s.audio := by
  unfold State.admitPcm; split
  · simp
  · split <;> simp
@[simp] theorem placeVoice_cmd (v : Voice) : (s.placeVoice v).cmd = s.cmd := by
  unfold State.placeVoice; split <;> simp
@[simp] theorem admitCgb_cmd (v : Voice) : (s.admitCgb v).cmd = s.cmd := by simp [State.admitCgb]
@[simp] theorem admitPcm_cmd (v : Voice) : (s.admitPcm v).cmd = s.cmd := by
  unfold State.admitPcm; split
  · simp
  · split <;> simp
@[simp] theorem placeVoice_mem (v : Voice) : (s.placeVoice v).mem = s.mem := by
  unfold State.placeVoice; split <;> simp
@[simp] theorem admitCgb_mem (v : Voice) : (s.admitCgb v).mem = s.mem := by simp [State.admitCgb]
@[simp] theorem admitPcm_mem (v : Voice) : (s.admitPcm v).mem = s.mem := by
  unfold State.admitPcm; split
  · simp
  · split <;> simp
@[simp] theorem placeVoice_launch (v : Voice) : (s.placeVoice v).launch = s.launch := by
  unfold State.placeVoice; split <;> simp
@[simp] theorem admitCgb_launch (v : Voice) : (s.admitCgb v).launch = s.launch := by simp [State.admitCgb]
@[simp] theorem admitPcm_launch (v : Voice) : (s.admitPcm v).launch = s.launch := by
  unfold State.admitPcm; split
  · simp
  · split <;> simp

end Sys2Proof.Machine
end

