-- ==== Sys2Proof/Laws/Voice.lean ====
section
/-!
SUPPORT. What the operations on one voice leave alone, one lemma per field, and the number of things each list
operation of PROCESS and of the reverb delivers.
-/

namespace Sys2Proof.Machine

variable (s : State) (p : Launch) (v : Voice)

/-! ## stepEnvelope -/

@[simp] theorem stepEnvelope_source : (stepEnvelope p v).source = v.source := by
  cases h : v.eState <;> simp only [stepEnvelope, h, stepInit, stepAtk, stepDec, stepSus, stepRel] <;> (repeat' split) <;> rfl

@[simp] theorem stepEnvelope_track : (stepEnvelope p v).track = v.track := by
  cases h : v.eState <;> simp only [stepEnvelope, h, stepInit, stepAtk, stepDec, stepSus, stepRel] <;> (repeat' split) <;> rfl

@[simp] theorem stepEnvelope_key : (stepEnvelope p v).key = v.key := by
  cases h : v.eState <;> simp only [stepEnvelope, h, stepInit, stepAtk, stepDec, stepSus, stepRel] <;> (repeat' split) <;> rfl

@[simp] theorem stepEnvelope_vel : (stepEnvelope p v).vel = v.vel := by
  cases h : v.eState <;> simp only [stepEnvelope, h, stepInit, stepAtk, stepDec, stepSus, stepRel] <;> (repeat' split) <;> rfl

@[simp] theorem stepEnvelope_prio : (stepEnvelope p v).prio = v.prio := by
  cases h : v.eState <;> simp only [stepEnvelope, h, stepInit, stepAtk, stepDec, stepSus, stepRel] <;> (repeat' split) <;> rfl

@[simp] theorem stepEnvelope_adsr : (stepEnvelope p v).adsr = v.adsr := by
  cases h : v.eState <;> simp only [stepEnvelope, h, stepInit, stepAtk, stepDec, stepSus, stepRel] <;> (repeat' split) <;> rfl

@[simp] theorem stepEnvelope_envInterStep : (stepEnvelope p v).envInterStep = v.envInterStep := by
  cases h : v.eState <;> simp only [stepEnvelope, h, stepInit, stepAtk, stepDec, stepSus, stepRel] <;> (repeat' split) <;> rfl

@[simp] theorem stepEnvelope_fastRelease : (stepEnvelope p v).fastRelease = v.fastRelease := by
  cases h : v.eState <;> simp only [stepEnvelope, h, stepInit, stepAtk, stepDec, stepSus, stepRel] <;> (repeat' split) <;> rfl

@[simp] theorem stepEnvelope_pitch : (stepEnvelope p v).pitch = v.pitch := by
  cases h : v.eState <;> simp only [stepEnvelope, h, stepInit, stepAtk, stepDec, stepSus, stepRel] <;> (repeat' split) <;> rfl

@[simp] theorem stepEnvelope_phaseInc : (stepEnvelope p v).phaseInc = v.phaseInc := by
  cases h : v.eState <;> simp only [stepEnvelope, h, stepInit, stepAtk, stepDec, stepSus, stepRel] <;> (repeat' split) <;> rfl

@[simp] theorem stepEnvelope_ipos : (stepEnvelope p v).ipos = v.ipos := by
  cases h : v.eState <;> simp only [stepEnvelope, h, stepInit, stepAtk, stepDec, stepSus, stepRel] <;> (repeat' split) <;> rfl

@[simp] theorem stepEnvelope_fpos : (stepEnvelope p v).fpos = v.fpos := by
  cases h : v.eState <;> simp only [stepEnvelope, h, stepInit, stepAtk, stepDec, stepSus, stepRel] <;> (repeat' split) <;> rfl

@[simp] theorem stepEnvelope_volL : (stepEnvelope p v).volL = v.volL := by
  cases h : v.eState <;> simp only [stepEnvelope, h, stepInit, stepAtk, stepDec, stepSus, stepRel] <;> (repeat' split) <;> rfl

@[simp] theorem stepEnvelope_volR : (stepEnvelope p v).volR = v.volR := by
  cases h : v.eState <;> simp only [stepEnvelope, h, stepInit, stepAtk, stepDec, stepSus, stepRel] <;> (repeat' split) <;> rfl

@[simp] theorem stepEnvelope_fromVolL : (stepEnvelope p v).fromVolL = v.fromVolL := by
  cases h : v.eState <;> simp only [stepEnvelope, h, stepInit, stepAtk, stepDec, stepSus, stepRel] <;> (repeat' split) <;> rfl

@[simp] theorem stepEnvelope_fromVolR : (stepEnvelope p v).fromVolR = v.fromVolR := by
  cases h : v.eState <;> simp only [stepEnvelope, h, stepInit, stepAtk, stepDec, stepSus, stepRel] <;> (repeat' split) <;> rfl

@[simp] theorem stepEnvelope_curL : (stepEnvelope p v).curL = v.curL := by
  cases h : v.eState <;> simp only [stepEnvelope, h, stepInit, stepAtk, stepDec, stepSus, stepRel] <;> (repeat' split) <;> rfl

@[simp] theorem stepEnvelope_curR : (stepEnvelope p v).curR = v.curR := by
  cases h : v.eState <;> simp only [stepEnvelope, h, stepInit, stepAtk, stepDec, stepSus, stepRel] <;> (repeat' split) <;> rfl

@[simp] theorem stepEnvelope_stepL : (stepEnvelope p v).stepL = v.stepL := by
  cases h : v.eState <;> simp only [stepEnvelope, h, stepInit, stepAtk, stepDec, stepSus, stepRel] <;> (repeat' split) <;> rfl

@[simp] theorem stepEnvelope_stepR : (stepEnvelope p v).stepR = v.stepR := by
  cases h : v.eState <;> simp only [stepEnvelope, h, stepInit, stepAtk, stepDec, stepSus, stepRel] <;> (repeat' split) <;> rfl

@[simp] theorem stepEnvelope_pan : (stepEnvelope p v).pan = v.pan := by
  cases h : v.eState <;> simp only [stepEnvelope, h, stepInit, stepAtk, stepDec, stepSus, stepRel] <;> (repeat' split) <;> rfl

@[simp] theorem stepEnvelope_fromPan : (stepEnvelope p v).fromPan = v.fromPan := by
  cases h : v.eState <;> simp only [stepEnvelope, h, stepInit, stepAtk, stepDec, stepSus, stepRel] <;> (repeat' split) <;> rfl

/-! ## releaseVoice -/

@[simp] theorem releaseVoice_source (fast : Bool) : (releaseVoice fast v).source = v.source := by
  unfold releaseVoice; (repeat' split) <;> rfl

@[simp] theorem releaseVoice_track (fast : Bool) : (releaseVoice fast v).track = v.track := by
  unfold releaseVoice; (repeat' split) <;> rfl

@[simp] theorem releaseVoice_key (fast : Bool) : (releaseVoice fast v).key = v.key := by
  unfold releaseVoice; (repeat' split) <;> rfl

@[simp] theorem releaseVoice_vel (fast : Bool) : (releaseVoice fast v).vel = v.vel := by
  unfold releaseVoice; (repeat' split) <;> rfl

@[simp] theorem releaseVoice_prio (fast : Bool) : (releaseVoice fast v).prio = v.prio := by
  unfold releaseVoice; (repeat' split) <;> rfl

@[simp] theorem releaseVoice_adsr (fast : Bool) : (releaseVoice fast v).adsr = v.adsr := by
  unfold releaseVoice; (repeat' split) <;> rfl

@[simp] theorem releaseVoice_envLevel (fast : Bool) : (releaseVoice fast v).envLevel = v.envLevel := by
  unfold releaseVoice; (repeat' split) <;> rfl

@[simp] theorem releaseVoice_fromEnvLevel (fast : Bool) : (releaseVoice fast v).fromEnvLevel = v.fromEnvLevel := by
  unfold releaseVoice; (repeat' split) <;> rfl

@[simp] theorem releaseVoice_envPeak (fast : Bool) : (releaseVoice fast v).envPeak = v.envPeak := by
  unfold releaseVoice; (repeat' split) <;> rfl

@[simp] theorem releaseVoice_envInterStep (fast : Bool) : (releaseVoice fast v).envInterStep = v.envInterStep := by
  unfold releaseVoice; (repeat' split) <;> rfl

@[simp] theorem releaseVoice_pitch (fast : Bool) : (releaseVoice fast v).pitch = v.pitch := by
  unfold releaseVoice; (repeat' split) <;> rfl

@[simp] theorem releaseVoice_phaseInc (fast : Bool) : (releaseVoice fast v).phaseInc = v.phaseInc := by
  unfold releaseVoice; (repeat' split) <;> rfl

@[simp] theorem releaseVoice_ipos (fast : Bool) : (releaseVoice fast v).ipos = v.ipos := by
  unfold releaseVoice; (repeat' split) <;> rfl

@[simp] theorem releaseVoice_fpos (fast : Bool) : (releaseVoice fast v).fpos = v.fpos := by
  unfold releaseVoice; (repeat' split) <;> rfl

@[simp] theorem releaseVoice_volL (fast : Bool) : (releaseVoice fast v).volL = v.volL := by
  unfold releaseVoice; (repeat' split) <;> rfl

@[simp] theorem releaseVoice_volR (fast : Bool) : (releaseVoice fast v).volR = v.volR := by
  unfold releaseVoice; (repeat' split) <;> rfl

@[simp] theorem releaseVoice_fromVolL (fast : Bool) : (releaseVoice fast v).fromVolL = v.fromVolL := by
  unfold releaseVoice; (repeat' split) <;> rfl

@[simp] theorem releaseVoice_fromVolR (fast : Bool) : (releaseVoice fast v).fromVolR = v.fromVolR := by
  unfold releaseVoice; (repeat' split) <;> rfl

@[simp] theorem releaseVoice_curL (fast : Bool) : (releaseVoice fast v).curL = v.curL := by
  unfold releaseVoice; (repeat' split) <;> rfl

@[simp] theorem releaseVoice_curR (fast : Bool) : (releaseVoice fast v).curR = v.curR := by
  unfold releaseVoice; (repeat' split) <;> rfl

@[simp] theorem releaseVoice_stepL (fast : Bool) : (releaseVoice fast v).stepL = v.stepL := by
  unfold releaseVoice; (repeat' split) <;> rfl

@[simp] theorem releaseVoice_stepR (fast : Bool) : (releaseVoice fast v).stepR = v.stepR := by
  unfold releaseVoice; (repeat' split) <;> rfl

@[simp] theorem releaseVoice_pan (fast : Bool) : (releaseVoice fast v).pan = v.pan := by
  unfold releaseVoice; (repeat' split) <;> rfl

@[simp] theorem releaseVoice_fromPan (fast : Bool) : (releaseVoice fast v).fromPan = v.fromPan := by
  unfold releaseVoice; (repeat' split) <;> rfl

/-! ## setVolumes -/

@[simp] theorem setVolumes_source : (setVolumes s v).source = v.source := by
  unfold setVolumes; split <;> rfl

@[simp] theorem setVolumes_track : (setVolumes s v).track = v.track := by
  unfold setVolumes; split <;> rfl

@[simp] theorem setVolumes_key : (setVolumes s v).key = v.key := by
  unfold setVolumes; split <;> rfl

@[simp] theorem setVolumes_vel : (setVolumes s v).vel = v.vel := by
  unfold setVolumes; split <;> rfl

@[simp] theorem setVolumes_prio : (setVolumes s v).prio = v.prio := by
  unfold setVolumes; split <;> rfl

@[simp] theorem setVolumes_adsr : (setVolumes s v).adsr = v.adsr := by
  unfold setVolumes; split <;> rfl

@[simp] theorem setVolumes_eState : (setVolumes s v).eState = v.eState := by
  unfold setVolumes; split <;> rfl

@[simp] theorem setVolumes_envLevel : (setVolumes s v).envLevel = v.envLevel := by
  unfold setVolumes; split <;> rfl

@[simp] theorem setVolumes_fromEnvLevel : (setVolumes s v).fromEnvLevel = v.fromEnvLevel := by
  unfold setVolumes; split <;> rfl

@[simp] theorem setVolumes_envPeak : (setVolumes s v).envPeak = v.envPeak := by
  unfold setVolumes; split <;> rfl

@[simp] theorem setVolumes_envInterStep : (setVolumes s v).envInterStep = v.envInterStep := by
  unfold setVolumes; split <;> rfl

@[simp] theorem setVolumes_fastRelease : (setVolumes s v).fastRelease = v.fastRelease := by
  unfold setVolumes; split <;> rfl

@[simp] theorem setVolumes_pitch : (setVolumes s v).pitch = v.pitch := by
  unfold setVolumes; split <;> rfl

@[simp] theorem setVolumes_phaseInc : (setVolumes s v).phaseInc = v.phaseInc := by
  unfold setVolumes; split <;> rfl

@[simp] theorem setVolumes_ipos : (setVolumes s v).ipos = v.ipos := by
  unfold setVolumes; split <;> rfl

@[simp] theorem setVolumes_fpos : (setVolumes s v).fpos = v.fpos := by
  unfold setVolumes; split <;> rfl

@[simp] theorem setVolumes_fromVolL : (setVolumes s v).fromVolL = v.fromVolL := by
  unfold setVolumes; split <;> rfl

@[simp] theorem setVolumes_fromVolR : (setVolumes s v).fromVolR = v.fromVolR := by
  unfold setVolumes; split <;> rfl

@[simp] theorem setVolumes_curL : (setVolumes s v).curL = v.curL := by
  unfold setVolumes; split <;> rfl

@[simp] theorem setVolumes_curR : (setVolumes s v).curR = v.curR := by
  unfold setVolumes; split <;> rfl

@[simp] theorem setVolumes_stepL : (setVolumes s v).stepL = v.stepL := by
  unfold setVolumes; split <;> rfl

@[simp] theorem setVolumes_stepR : (setVolumes s v).stepR = v.stepR := by
  unfold setVolumes; split <;> rfl

@[simp] theorem setVolumes_fromPan : (setVolumes s v).fromPan = v.fromPan := by
  unfold setVolumes; split <;> rfl

/-! ## applyInstant -/

@[simp] theorem applyInstant_source (b : Bool) : (applyInstant b v).source = v.source := by
  unfold applyInstant; split <;> rfl

@[simp] theorem applyInstant_track (b : Bool) : (applyInstant b v).track = v.track := by
  unfold applyInstant; split <;> rfl

@[simp] theorem applyInstant_key (b : Bool) : (applyInstant b v).key = v.key := by
  unfold applyInstant; split <;> rfl

@[simp] theorem applyInstant_vel (b : Bool) : (applyInstant b v).vel = v.vel := by
  unfold applyInstant; split <;> rfl

@[simp] theorem applyInstant_prio (b : Bool) : (applyInstant b v).prio = v.prio := by
  unfold applyInstant; split <;> rfl

@[simp] theorem applyInstant_adsr (b : Bool) : (applyInstant b v).adsr = v.adsr := by
  unfold applyInstant; split <;> rfl

@[simp] theorem applyInstant_eState (b : Bool) : (applyInstant b v).eState = v.eState := by
  unfold applyInstant; split <;> rfl

@[simp] theorem applyInstant_envLevel (b : Bool) : (applyInstant b v).envLevel = v.envLevel := by
  unfold applyInstant; split <;> rfl

@[simp] theorem applyInstant_fromEnvLevel (b : Bool) : (applyInstant b v).fromEnvLevel = v.fromEnvLevel := by
  unfold applyInstant; split <;> rfl

@[simp] theorem applyInstant_envPeak (b : Bool) : (applyInstant b v).envPeak = v.envPeak := by
  unfold applyInstant; split <;> rfl

@[simp] theorem applyInstant_envInterStep (b : Bool) : (applyInstant b v).envInterStep = v.envInterStep := by
  unfold applyInstant; split <;> rfl

@[simp] theorem applyInstant_fastRelease (b : Bool) : (applyInstant b v).fastRelease = v.fastRelease := by
  unfold applyInstant; split <;> rfl

@[simp] theorem applyInstant_pitch (b : Bool) : (applyInstant b v).pitch = v.pitch := by
  unfold applyInstant; split <;> rfl

@[simp] theorem applyInstant_phaseInc (b : Bool) : (applyInstant b v).phaseInc = v.phaseInc := by
  unfold applyInstant; split <;> rfl

@[simp] theorem applyInstant_ipos (b : Bool) : (applyInstant b v).ipos = v.ipos := by
  unfold applyInstant; split <;> rfl

@[simp] theorem applyInstant_fpos (b : Bool) : (applyInstant b v).fpos = v.fpos := by
  unfold applyInstant; split <;> rfl

@[simp] theorem applyInstant_volL (b : Bool) : (applyInstant b v).volL = v.volL := by
  unfold applyInstant; split <;> rfl

@[simp] theorem applyInstant_volR (b : Bool) : (applyInstant b v).volR = v.volR := by
  unfold applyInstant; split <;> rfl

@[simp] theorem applyInstant_curL (b : Bool) : (applyInstant b v).curL = v.curL := by
  unfold applyInstant; split <;> rfl

@[simp] theorem applyInstant_curR (b : Bool) : (applyInstant b v).curR = v.curR := by
  unfold applyInstant; split <;> rfl

@[simp] theorem applyInstant_stepL (b : Bool) : (applyInstant b v).stepL = v.stepL := by
  unfold applyInstant; split <;> rfl

@[simp] theorem applyInstant_stepR (b : Bool) : (applyInstant b v).stepR = v.stepR := by
  unfold applyInstant; split <;> rfl

@[simp] theorem applyInstant_pan (b : Bool) : (applyInstant b v).pan = v.pan := by
  unfold applyInstant; split <;> rfl

@[simp] theorem applyInstant_fromPan (b : Bool) : (applyInstant b v).fromPan = v.fromPan := by
  unfold applyInstant; split <;> rfl

/-! ## tickEnvelope -/

@[simp] theorem tickEnvelope_source (q : Nat) : (tickEnvelope s q v).source = v.source := by
  unfold tickEnvelope; split <;> simp [tickAdvance, startRamp, latchFrom]

@[simp] theorem tickEnvelope_track (q : Nat) : (tickEnvelope s q v).track = v.track := by
  unfold tickEnvelope; split <;> simp [tickAdvance, startRamp, latchFrom]

@[simp] theorem tickEnvelope_key (q : Nat) : (tickEnvelope s q v).key = v.key := by
  unfold tickEnvelope; split <;> simp [tickAdvance, startRamp, latchFrom]

@[simp] theorem tickEnvelope_vel (q : Nat) : (tickEnvelope s q v).vel = v.vel := by
  unfold tickEnvelope; split <;> simp [tickAdvance, startRamp, latchFrom]

@[simp] theorem tickEnvelope_prio (q : Nat) : (tickEnvelope s q v).prio = v.prio := by
  unfold tickEnvelope; split <;> simp [tickAdvance, startRamp, latchFrom]

@[simp] theorem tickEnvelope_adsr (q : Nat) : (tickEnvelope s q v).adsr = v.adsr := by
  unfold tickEnvelope; split <;> simp [tickAdvance, startRamp, latchFrom]

@[simp] theorem tickEnvelope_fastRelease (q : Nat) : (tickEnvelope s q v).fastRelease = v.fastRelease := by
  unfold tickEnvelope; split <;> simp [tickAdvance, startRamp, latchFrom]

@[simp] theorem tickEnvelope_pitch (q : Nat) : (tickEnvelope s q v).pitch = v.pitch := by
  unfold tickEnvelope; split <;> simp [tickAdvance, startRamp, latchFrom]

@[simp] theorem tickEnvelope_phaseInc (q : Nat) : (tickEnvelope s q v).phaseInc = v.phaseInc := by
  unfold tickEnvelope; split <;> simp [tickAdvance, startRamp, latchFrom]

@[simp] theorem tickEnvelope_ipos (q : Nat) : (tickEnvelope s q v).ipos = v.ipos := by
  unfold tickEnvelope; split <;> simp [tickAdvance, startRamp, latchFrom]

@[simp] theorem tickEnvelope_fpos (q : Nat) : (tickEnvelope s q v).fpos = v.fpos := by
  unfold tickEnvelope; split <;> simp [tickAdvance, startRamp, latchFrom]

/-- A tick counts, whether it advances or not (R133). -/
@[simp] theorem tickEnvelope_envInterStep (q : Nat) : (tickEnvelope s q v).envInterStep = v.envInterStep + 1 := by
  unfold tickEnvelope; split <;> simp [tickAdvance, startRamp, latchFrom]

/-- What a tick does to the phase: one envelope step where it advances, nothing where it does not (R132, R133). -/
theorem tickEnvelope_eState (q : Nat) :
    (tickEnvelope s q v).eState = if tickAdvances s v then (stepEnvelope s.launch (latchFrom v)).eState else v.eState := by
  unfold tickEnvelope; split <;> simp [tickAdvance, startRamp]

/-- What a tick does to the level (R132, R133). -/
theorem tickEnvelope_envLevel (q : Nat) :
    (tickEnvelope s q v).envLevel =
      if tickAdvances s v then (stepEnvelope s.launch (latchFrom v)).envLevel else v.envLevel := by
  unfold tickEnvelope; split <;> simp [tickAdvance, startRamp]

/-! ## Rendering -/

@[simp] theorem advanceVoice_source : (advanceVoice v).source = v.source := rfl
@[simp] theorem advanceVoice_track : (advanceVoice v).track = v.track := rfl
@[simp] theorem advanceVoice_key : (advanceVoice v).key = v.key := rfl
@[simp] theorem advanceVoice_vel : (advanceVoice v).vel = v.vel := rfl
@[simp] theorem advanceVoice_prio : (advanceVoice v).prio = v.prio := rfl
@[simp] theorem advanceVoice_adsr : (advanceVoice v).adsr = v.adsr := rfl
@[simp] theorem advanceVoice_eState : (advanceVoice v).eState = v.eState := rfl
@[simp] theorem advanceVoice_envLevel : (advanceVoice v).envLevel = v.envLevel := rfl
@[simp] theorem advanceVoice_fromEnvLevel : (advanceVoice v).fromEnvLevel = v.fromEnvLevel := rfl
@[simp] theorem advanceVoice_envPeak : (advanceVoice v).envPeak = v.envPeak := rfl
@[simp] theorem advanceVoice_envInterStep : (advanceVoice v).envInterStep = v.envInterStep := rfl
@[simp] theorem advanceVoice_fastRelease : (advanceVoice v).fastRelease = v.fastRelease := rfl
@[simp] theorem advanceVoice_pitch : (advanceVoice v).pitch = v.pitch := rfl
@[simp] theorem advanceVoice_phaseInc : (advanceVoice v).phaseInc = v.phaseInc := rfl
@[simp] theorem advanceVoice_volL : (advanceVoice v).volL = v.volL := rfl
@[simp] theorem advanceVoice_volR : (advanceVoice v).volR = v.volR := rfl
@[simp] theorem advanceVoice_fromVolL : (advanceVoice v).fromVolL = v.fromVolL := rfl
@[simp] theorem advanceVoice_fromVolR : (advanceVoice v).fromVolR = v.fromVolR := rfl
@[simp] theorem advanceVoice_curL : (advanceVoice v).curL = v.curL := rfl
@[simp] theorem advanceVoice_curR : (advanceVoice v).curR = v.curR := rfl
@[simp] theorem advanceVoice_stepL : (advanceVoice v).stepL = v.stepL := rfl
@[simp] theorem advanceVoice_stepR : (advanceVoice v).stepR = v.stepR := rfl
@[simp] theorem advanceVoice_pan : (advanceVoice v).pan = v.pan := rfl
@[simp] theorem advanceVoice_fromPan : (advanceVoice v).fromPan = v.fromPan := rfl

@[simp] theorem setEos_track : v.setEos.track = v.track := by unfold Voice.setEos; split <;> rfl
@[simp] theorem setEos_key : v.setEos.key = v.key := by unfold Voice.setEos; split <;> rfl
@[simp] theorem setEos_vel : v.setEos.vel = v.vel := by unfold Voice.setEos; split <;> rfl
@[simp] theorem setEos_prio : v.setEos.prio = v.prio := by unfold Voice.setEos; split <;> rfl
@[simp] theorem setEos_adsr : v.setEos.adsr = v.adsr := by unfold Voice.setEos; split <;> rfl
@[simp] theorem setEos_envLevel : v.setEos.envLevel = v.envLevel := by unfold Voice.setEos; split <;> rfl
@[simp] theorem setEos_fromEnvLevel : v.setEos.fromEnvLevel = v.fromEnvLevel := by unfold Voice.setEos; split <;> rfl
@[simp] theorem setEos_envPeak : v.setEos.envPeak = v.envPeak := by unfold Voice.setEos; split <;> rfl
@[simp] theorem setEos_envInterStep : v.setEos.envInterStep = v.envInterStep := by unfold Voice.setEos; split <;> rfl
@[simp] theorem setEos_pitch : v.setEos.pitch = v.pitch := by unfold Voice.setEos; split <;> rfl
@[simp] theorem setEos_phaseInc : v.setEos.phaseInc = v.phaseInc := by unfold Voice.setEos; split <;> rfl
@[simp] theorem setEos_ipos : v.setEos.ipos = v.ipos := by unfold Voice.setEos; split <;> rfl
@[simp] theorem setEos_fpos : v.setEos.fpos = v.fpos := by unfold Voice.setEos; split <;> rfl
@[simp] theorem setEos_volL : v.setEos.volL = v.volL := by unfold Voice.setEos; split <;> rfl
@[simp] theorem setEos_volR : v.setEos.volR = v.volR := by unfold Voice.setEos; split <;> rfl
@[simp] theorem setEos_fromVolL : v.setEos.fromVolL = v.fromVolL := by unfold Voice.setEos; split <;> rfl
@[simp] theorem setEos_fromVolR : v.setEos.fromVolR = v.fromVolR := by unfold Voice.setEos; split <;> rfl
@[simp] theorem setEos_curL : v.setEos.curL = v.curL := by unfold Voice.setEos; split <;> rfl
@[simp] theorem setEos_curR : v.setEos.curR = v.curR := by unfold Voice.setEos; split <;> rfl
@[simp] theorem setEos_stepL : v.setEos.stepL = v.stepL := by unfold Voice.setEos; split <;> rfl
@[simp] theorem setEos_stepR : v.setEos.stepR = v.stepR := by unfold Voice.setEos; split <;> rfl
@[simp] theorem setEos_pan : v.setEos.pan = v.pan := by unfold Voice.setEos; split <;> rfl
@[simp] theorem setEos_fromPan : v.setEos.fromPan = v.fromPan := by unfold Voice.setEos; split <;> rfl

@[simp] theorem endStream_track : (endStream v).track = v.track := by unfold endStream; split <;> simp
@[simp] theorem endStream_key : (endStream v).key = v.key := by unfold endStream; split <;> simp
@[simp] theorem endStream_vel : (endStream v).vel = v.vel := by unfold endStream; split <;> simp
@[simp] theorem endStream_prio : (endStream v).prio = v.prio := by unfold endStream; split <;> simp
@[simp] theorem endStream_adsr : (endStream v).adsr = v.adsr := by unfold endStream; split <;> simp
@[simp] theorem endStream_envLevel : (endStream v).envLevel = v.envLevel := by unfold endStream; split <;> simp
@[simp] theorem endStream_fromEnvLevel : (endStream v).fromEnvLevel = v.fromEnvLevel := by unfold endStream; split <;> simp
@[simp] theorem endStream_envPeak : (endStream v).envPeak = v.envPeak := by unfold endStream; split <;> simp
@[simp] theorem endStream_envInterStep : (endStream v).envInterStep = v.envInterStep := by unfold endStream; split <;> simp
@[simp] theorem endStream_pitch : (endStream v).pitch = v.pitch := by unfold endStream; split <;> simp
@[simp] theorem endStream_phaseInc : (endStream v).phaseInc = v.phaseInc := by unfold endStream; split <;> simp
@[simp] theorem endStream_ipos : (endStream v).ipos = v.ipos := by unfold endStream; split <;> simp
@[simp] theorem endStream_fpos : (endStream v).fpos = v.fpos := by unfold endStream; split <;> simp
@[simp] theorem endStream_volL : (endStream v).volL = v.volL := by unfold endStream; split <;> simp
@[simp] theorem endStream_volR : (endStream v).volR = v.volR := by unfold endStream; split <;> simp
@[simp] theorem endStream_fromVolL : (endStream v).fromVolL = v.fromVolL := by unfold endStream; split <;> simp
@[simp] theorem endStream_fromVolR : (endStream v).fromVolR = v.fromVolR := by unfold endStream; split <;> simp
@[simp] theorem endStream_curL : (endStream v).curL = v.curL := by unfold endStream; split <;> simp
@[simp] theorem endStream_curR : (endStream v).curR = v.curR := by unfold endStream; split <;> simp
@[simp] theorem endStream_stepL : (endStream v).stepL = v.stepL := by unfold endStream; split <;> simp
@[simp] theorem endStream_stepR : (endStream v).stepR = v.stepR := by unfold endStream; split <;> simp
@[simp] theorem endStream_pan : (endStream v).pan = v.pan := by unfold endStream; split <;> simp
@[simp] theorem endStream_fromPan : (endStream v).fromPan = v.fromPan := by unfold endStream; split <;> simp

@[simp] theorem afterSample_track : (afterSample v).track = v.track := by simp [afterSample, stepVolumes]
@[simp] theorem afterSample_key : (afterSample v).key = v.key := by simp [afterSample, stepVolumes]
@[simp] theorem afterSample_vel : (afterSample v).vel = v.vel := by simp [afterSample, stepVolumes]
@[simp] theorem afterSample_prio : (afterSample v).prio = v.prio := by simp [afterSample, stepVolumes]
@[simp] theorem afterSample_adsr : (afterSample v).adsr = v.adsr := by simp [afterSample, stepVolumes]
@[simp] theorem afterSample_envLevel : (afterSample v).envLevel = v.envLevel := by simp [afterSample, stepVolumes]
@[simp] theorem afterSample_fromEnvLevel : (afterSample v).fromEnvLevel = v.fromEnvLevel := by simp [afterSample, stepVolumes]
@[simp] theorem afterSample_envPeak : (afterSample v).envPeak = v.envPeak := by simp [afterSample, stepVolumes]
@[simp] theorem afterSample_envInterStep : (afterSample v).envInterStep = v.envInterStep := by simp [afterSample, stepVolumes]
@[simp] theorem afterSample_pitch : (afterSample v).pitch = v.pitch := by simp [afterSample, stepVolumes]
@[simp] theorem afterSample_phaseInc : (afterSample v).phaseInc = v.phaseInc := by simp [afterSample, stepVolumes]

@[simp] theorem renderVoice_track (n : Nat) : (renderVoice s n v).2.track = v.track := by
  induction n generalizing v with
  | zero => rfl
  | succ n ih => simp [renderVoice, ih]

@[simp] theorem renderVoice_key (n : Nat) : (renderVoice s n v).2.key = v.key := by
  induction n generalizing v with
  | zero => rfl
  | succ n ih => simp [renderVoice, ih]

@[simp] theorem renderVoice_vel (n : Nat) : (renderVoice s n v).2.vel = v.vel := by
  induction n generalizing v with
  | zero => rfl
  | succ n ih => simp [renderVoice, ih]

@[simp] theorem renderVoice_prio (n : Nat) : (renderVoice s n v).2.prio = v.prio := by
  induction n generalizing v with
  | zero => rfl
  | succ n ih => simp [renderVoice, ih]

@[simp] theorem renderVoice_adsr (n : Nat) : (renderVoice s n v).2.adsr = v.adsr := by
  induction n generalizing v with
  | zero => rfl
  | succ n ih => simp [renderVoice, ih]

@[simp] theorem renderVoice_envLevel (n : Nat) : (renderVoice s n v).2.envLevel = v.envLevel := by
  induction n generalizing v with
  | zero => rfl
  | succ n ih => simp [renderVoice, ih]

@[simp] theorem renderVoice_fromEnvLevel (n : Nat) : (renderVoice s n v).2.fromEnvLevel = v.fromEnvLevel := by
  induction n generalizing v with
  | zero => rfl
  | succ n ih => simp [renderVoice, ih]

@[simp] theorem renderVoice_envPeak (n : Nat) : (renderVoice s n v).2.envPeak = v.envPeak := by
  induction n generalizing v with
  | zero => rfl
  | succ n ih => simp [renderVoice, ih]

@[simp] theorem renderVoice_envInterStep (n : Nat) : (renderVoice s n v).2.envInterStep = v.envInterStep := by
  induction n generalizing v with
  | zero => rfl
  | succ n ih => simp [renderVoice, ih]

@[simp] theorem renderVoice_pitch (n : Nat) : (renderVoice s n v).2.pitch = v.pitch := by
  induction n generalizing v with
  | zero => rfl
  | succ n ih => simp [renderVoice, ih]

@[simp] theorem renderVoice_phaseInc (n : Nat) : (renderVoice s n v).2.phaseInc = v.phaseInc := by
  induction n generalizing v with
  | zero => rfl
  | succ n ih => simp [renderVoice, ih]

/-- One contribution for each output sample (R246). -/
@[simp] theorem renderVoice_length (n : Nat) : (renderVoice s n v).1.length = n := by
  induction n generalizing v with
  | zero => rfl
  | succ n ih => simp [renderVoice, ih]

/-! ## Mixing and reverb -/

/-- Adding contributions leaves the buffer's length alone. -/
@[simp] theorem mixInto_length (lo : Nat) (cs bs : List Stereo) : (mixInto lo cs bs).length = bs.length := by
  induction bs generalizing lo cs with
  | nil => cases lo <;> cases cs <;> rfl
  | cons b bs ih => cases lo <;> cases cs <;> simp [mixInto, ih]

/-- What adding contributions from `lo` on does at one index (R246). -/
theorem mixInto_getElem? (lo : Nat) (cs bs : List Stereo) (i : Nat) :
    (mixInto lo cs bs)[i]? = bs[i]?.map fun b =>
      if lo ≤ i then (match cs[i - lo]? with | some c => addStereo b c | none => b) else b := by
  induction bs generalizing lo cs i with
  | nil => cases lo <;> cases cs <;> simp [mixInto]
  | cons b bs ih =>
    cases lo with
    | zero =>
      cases cs with
      | nil => simp only [mixInto]; cases h : (b :: bs)[i]? <;> simp
      | cons c cs =>
        cases i with
        | zero => simp [mixInto]
        | succ i => simpa [mixInto] using ih 0 cs i
    | succ lo =>
      cases i with
      | zero => cases cs <;> simp [mixInto]
      | succ i =>
        cases cs with
        | nil => simpa [mixInto] using ih lo [] i
        | cons c cs => simpa [mixInto] using ih lo (c :: cs) i

/-- Rendering a pool is rendering each of its voices: the pool afterwards (R245, R246). -/
theorem renderPool_fst (lo n : Nat) (vs : List Voice) (bufs : List (List Stereo)) :
    (renderPool s lo n vs bufs).1 = vs.map fun v => (renderVoice s n v).2 := by
  induction vs generalizing bufs with
  | nil => rfl
  | cons v vs ih => simp [renderPool, ih]

/-- Rendering a pool adds each voice's contributions to its track's buffer, in pool order (R246). -/
theorem renderPool_snd (lo n : Nat) (vs : List Voice) (bufs : List (List Stereo)) :
    (renderPool s lo n vs bufs).2 =
      vs.foldl (fun bs v => bs.modify v.track.toNat (mixInto lo (renderVoice s n v).1)) bufs := by
  induction vs generalizing bufs with
  | nil => rfl
  | cons v vs ih => simp [renderPool, ih]

/-- A sub-block leaves the pool in its order: each voice ticked, then rendered (R245). -/
theorem subBlock_fst (pb : List Voice × List (List Stereo)) (q : Nat) :
    (subBlock s pb q).1 =
      pb.1.map fun v => (renderVoice s (subBound s.blockSamples (q + 1) - subBound s.blockSamples q) (tickEnvelope s q v)).2 := by
  simp [subBlock, renderPool_fst, Function.comp_def]

/-- One output for each input (R283, R285). -/
@[simp] theorem runReverb_length (d : Nat) (f : RevLine → Stereo → Stereo) (l : RevLine) (xs : List Stereo) :
    (runReverb d f l xs).1.length = xs.length := by
  induction xs generalizing l with
  | nil => rfl
  | cons x xs ih => simp [runReverb, ih]

/-- A delay line keeps its length (R282). -/
@[simp] theorem runReverb_line_length (d : Nat) (f : RevLine → Stereo → Stereo) (l : RevLine) (xs : List Stereo) :
    (runReverb d f l xs).2.line.length = l.line.length := by
  induction xs generalizing l with
  | nil => rfl
  | cons x xs ih => simp [runReverb, ih, RevLine.push]

/-- `revPos` moves on by one modulo `D` with every sample (R282). -/
theorem runReverb_pos (d : Nat) (f : RevLine → Stereo → Stereo) (l : RevLine) (xs : List Stereo) (h : l.pos < d) :
    (runReverb d f l xs).2.pos = (l.pos + xs.length) % d := by
  induction xs generalizing l with
  | nil => simp [runReverb, Nat.mod_eq_of_lt h]
  | cons x xs ih =>
    have hp : (l.push d (f l x)).pos < d := Nat.mod_lt _ (by omega)
    have e := ih _ hp
    rw [show (runReverb d f l (x :: xs)).2 = (runReverb d f (l.push d (f l x)) xs).2 from rfl, e]
    simp only [RevLine.push, List.length_cons, Nat.mod_add_mod]
    congr 1; omega

/-- An interleaved buffer has two values for each sample (R55). -/
@[simp] theorem interleave_length (buf : List Stereo) : (interleave buf).length = 2 * buf.length := by
  induction buf with
  | nil => rfl
  | cons x xs ih => simp only [interleave, List.flatMap_cons, List.length_append] at ih ⊢; rw [ih]; simp; omega

end Sys2Proof.Machine
end

