-- ==== Sys2Proof/Laws/Alloc.lean ====
section
/-!
SUPPORT. Laws of voice allocation: what the search for a victim finds, what preemption does to one voice, and the pools
that a note can leave.
-/

namespace Sys2Proof.Machine

/-! ## The victim -/

/-- There is no victim exactly when no voice is a candidate (R226). -/
theorem findVictim_eq_none {prio : Byte} {pool : List Voice} :
    findVictim prio pool = none ↔ ∀ v ∈ pool, v.evictable prio = false := by
  induction pool with
  | nil => simp [findVictim]
  | cons v vs ih =>
    unfold findVictim
    cases h : findVictim prio vs with
    | none =>
      cases hv : v.evictable prio
      · simpa [hv] using ih.1 h
      · simp [hv]
    | some x =>
      obtain ⟨i, w⟩ := x
      have hn : ¬ ∀ u ∈ vs, u.evictable prio = false := fun hu => by simp [ih.2 hu] at h
      simp only [List.mem_cons, forall_eq_or_imp]
      constructor
      · intro hh; split at hh <;> simp at hh
      · rintro ⟨-, hu⟩; exact absurd hu hn

/-- The victim is a candidate and stands at the place found (R226). -/
theorem findVictim_spec {prio : Byte} {pool : List Voice} {i : Nat} {w : Voice} (h : findVictim prio pool = some (i, w)) :
    pool[i]? = some w ∧ w.evictable prio = true := by
  induction pool generalizing i w with
  | nil => simp [findVictim] at h
  | cons v vs ih =>
    unfold findVictim at h
    cases hvs : findVictim prio vs with
    | none =>
      simp only [hvs] at h
      split at h
      · rename_i hv; simp at h; obtain ⟨rfl, rfl⟩ := h; exact ⟨rfl, hv⟩
      · simp at h
    | some x =>
      obtain ⟨j, u⟩ := x
      simp only [hvs] at h
      split at h
      · rename_i hv
        simp at h; obtain ⟨rfl, rfl⟩ := h
        simp only [Bool.and_eq_true] at hv
        exact ⟨rfl, hv.1⟩
      · simp at h; obtain ⟨rfl, rfl⟩ := h
        have := ih hvs
        exact ⟨by simpa using this.1, this.2⟩

/-! ## Preemption -/

/-- One voice under `CgbPreempt` (R224). -/
def preemptVoice (trk : BitVec 4) (kind : Kind) (v : Voice) : Voice :=
  if v.track == trk && v.kind == kind && v.eState != .dead then releaseVoice true v else v

/-- Preemption is done voice by voice, and moves none. -/
theorem cgbPreempt_pool_eq (s : State) (trk : BitVec 4) (kind : Kind) :
    (s.cgbPreempt trk kind).pool = s.pool.map (preemptVoice trk kind) := rfl

/-- After preemption no voice of that track and kind is before REL (R224). -/
theorem preemptVoice_not_beforeRel {trk : BitVec 4} {kind : Kind} {v : Voice} (ht : v.track = trk) (hk : v.kind = kind) :
    (preemptVoice trk kind v).eState.beforeRel = false := by
  unfold preemptVoice
  cases he : v.eState <;>
    simp [ht, hk, he, releaseVoice, EState.beforeRel, EState.rank]

/-! ## The pools a note can leave -/

/-- What a place for a CGB voice can be: the end of the pool, or none (R229). -/
theorem placeVoice_pool (s : State) (v : Voice) :
    (s.placeVoice v).pool = s.pool ++ [v] ∨ (s.placeVoice v).pool = s.pool := by
  unfold State.placeVoice
  split
  · exact .inl rfl
  · exact .inr (by simp)

/-- What a NOTEON.PCM can leave: the voice at the end of the pool, or of the pool without one voice, or no voice
(R226, R227, R229). -/
theorem admitPcm_pool (s : State) (v : Voice) :
    (s.admitPcm v).pool = s.pool ++ [v] ∨ (s.admitPcm v).pool = s.pool ∨
    ∃ i w, findVictim v.prio s.pool = some (i, w) ∧ (s.admitPcm v).pool = s.pool.eraseIdx i ++ [v] := by
  unfold State.admitPcm
  split
  · exact (placeVoice_pool s v).imp_right .inl
  · split
    · exact .inr (.inl (by simp))
    · rename_i i w h
      exact .inr (.inr ⟨i, w, h, rfl⟩)

end Sys2Proof.Machine
end

