-- ==== Sys2Proof/Laws/Decode.lean ====
section
/-!
SUPPORT. Laws of the encoding: the fields of a header word, the opcode table read through them, and the operand words
with their fields.
-/

namespace Sys2Proof

/-! ## Header words -/

@[simp] theorem headerTrk_header (op : BitVec 8) (trk f : BitVec 4) (a b : Byte) :
    headerTrk (header op trk f a b) = trk := by
  ext i hi; simp [headerTrk, header]; grind

@[simp] theorem headerA_header (op : BitVec 8) (trk f : BitVec 4) (a b : Byte) :
    headerA (header op trk f a b) = a := by
  ext i hi; simp [headerA, header]; grind

@[simp] theorem headerB_header (op : BitVec 8) (trk f : BitVec 4) (a b : Byte) :
    headerB (header op trk f a b) = b := by
  ext i hi; simp [headerB, header]; grind

/-- Flag `i` of a header. -/
theorem headerFlag_header (op : BitVec 8) (trk f : BitVec 4) (a b : Byte) (i : Nat) (h : i < 4) :
    headerFlag (header op trk f a b) i = f.getLsbD i := by
  simp [headerFlag, header]; grind
/-- A mask acts field by field. -/
theorem header_and (op o2 : BitVec 8) (trk f t2 f2 : BitVec 4) (a b a2 b2 : Byte) :
    header op trk f a b &&& header o2 t2 f2 a2 b2 = header (op &&& o2) (trk &&& t2) (f &&& f2) (a &&& a2) (b &&& b2) := by
  ext i hi; simp [header]; grind
/-- A header is its five fields. -/
theorem header_inj (op o2 : BitVec 8) (trk f t2 f2 : BitVec 4) (a b a2 b2 : Byte) :
    header op trk f a b = header o2 t2 f2 a2 b2 ↔ op = o2 ∧ trk = t2 ∧ f = f2 ∧ a = a2 ∧ b = b2 := by
  constructor
  · intro h
    refine ⟨?_, ?_, ?_, ?_, ?_⟩
    · have := congrArg (fun x : Word => x.extractLsb' 24 8) h
      have e : ∀ (op : BitVec 8) (trk f : BitVec 4) (a b : Byte), (header op trk f a b).extractLsb' 24 8 = op := by
        intros; ext i hi; simp [header]; grind
      simpa [e] using this
    · simpa using congrArg headerTrk h
    · have e : ∀ (op : BitVec 8) (trk f : BitVec 4) (a b : Byte), (header op trk f a b).extractLsb' 16 4 = f := by
        intros; ext i hi; simp [header]; grind
      simpa [e] using congrArg (fun x : Word => x.extractLsb' 16 4) h
    · simpa using congrArg headerA h
    · simpa using congrArg headerB h
  · rintro ⟨rfl, rfl, rfl, rfl, rfl⟩; rfl
/-- Every word is the header of its fields. -/
theorem header_eta (h : Word) : header (h.extractLsb' 24 8) (headerTrk h) (h.extractLsb' 16 4) (headerA h) (headerB h) = h := by
  ext i hi; simp [header, headerTrk, headerA, headerB]; grind
/-! ## The opcode table -/

/-- The table with its patterns and masks written as headers. -/
theorem opTable_header : opTable =
  [⟨.nop, 1, header 0x00 0 0 0 0, header 0xFF 0xF 0xF 0xFF 0xFF⟩,
   ⟨.cfg, 3, header 0x01 0 0 0 0, header 0xFF 0xF 0xF 0xFF 0xFF⟩,
   ⟨.reset, 1, header 0x02 0 0 0 0, header 0xFF 0xF 0xF 0xFF 0xFF⟩,
   ⟨.noteonPcm, 7, header 0x10 0 0 0 0, header 0xFF 0 0xE 0 0⟩,
   ⟨.noteonSq, 3, header 0x11 0 0 0 0, header 0xFF 0 0x8 0 0⟩,
   ⟨.noteonWave, 4, header 0x12 0 0 0 0, header 0xFF 0 0xF 0 0⟩,
   ⟨.noteonNoise, 3, header 0x13 0 0 0 0, header 0xFF 0 0xE 0 0⟩,
   ⟨.setpitch, 2, header 0x20 0 0 0 0, header 0xFF 0 0xE 0 0xFF⟩,
   ⟨.setvol, 1, header 0x21 0 0 0 0, header 0xFF 0 0xF 0 0⟩,
   ⟨.release, 1, header 0x22 0 0 0 0, header 0xFF 0 0xC 0 0xFF⟩,
   ⟨.trkfine, 1, header 0x23 0 0 0 0, header 0xFF 0 0xE 0xFF 0xFF⟩,
   ⟨.process, 1, header 0x30 0 0 0 0, header 0xFF 0xF 0xF 0xFF 0xFF⟩,
   ⟨.ended, 1, header 0x31 0 0 0 0, header 0xFF 0xF 0xF 0xFF 0xFF⟩,
   ⟨.getbuf, 1, header 0x32 0 0 0 0, header 0xFF 0xF 0xF 0xFF 0xFF⟩,
   ⟨.rdreg, 1, header 0x33 0 0 0 0, header 0xFF 0xF 0xF 0xFF 0⟩] := by decide

/-! ## Operand words -/

@[simp] theorem Adsr.ofWord_toWord (x : Adsr) : Adsr.ofWord x.toWord = x := by
  cases x; simp only [Adsr.ofWord, Adsr.toWord, Adsr.mk.injEq]
  refine ⟨?_, ?_, ?_, ?_⟩ <;> (ext i hi; simp; grind)

@[simp] theorem PitchPrio.ofWord_toWord (x : PitchPrio) : PitchPrio.ofWord x.toWord = x := by
  cases x; simp only [PitchPrio.ofWord, PitchPrio.toWord, PitchPrio.mk.injEq]
  refine ⟨?_, ?_, ?_⟩ <;> (ext i hi; simp; grind)

@[simp] theorem PitchWord.ofWord_toWord (x : PitchWord) : PitchWord.ofWord x.toWord = x := by
  cases x; simp only [PitchWord.ofWord, PitchWord.toWord, PitchWord.mk.injEq]
  refine ⟨?_, ?_⟩ <;> (ext i hi; simp; grind)

@[simp] theorem Adsr.toWord_ofWord (w : Word) : (Adsr.ofWord w).toWord = w := by
  ext i hi; simp [Adsr.ofWord, Adsr.toWord]; grind

@[simp] theorem PitchPrio.toWord_ofWord (w : Word) : (PitchPrio.ofWord w).toWord = w := by
  ext i hi; simp [PitchPrio.ofWord, PitchPrio.toWord]; grind

@[simp] theorem PitchWord.toWord_ofWord (w : Word) : (PitchWord.ofWord w).toWord = w := by
  ext i hi; simp [PitchWord.ofWord, PitchWord.toWord]; grind

end Sys2Proof
end

