-- ==== Sys2Proof/Laws/Float.lean ====
section
/-!
SUPPORT. Laws of binary32: packing a sign and magnitude bits, rounding a number that binary32 holds exactly, what an
operation can deliver, and multiplication and addition of the constants.
-/

namespace Sys2Proof

/-! ## Packing -/

theorem F32.ext {x y : F32} (h : x.bits = y.bits) : x = y := by cases x; cases y; simp_all

theorem F32.bits_toNat_pack {s : Bool} {m : Nat} (h : m < 2 ^ 31) :
    (F32.pack s m).bits.toNat = (if s then 2 ^ 31 else 0) + m := by
  simp only [F32.pack, BitVec.toNat_ofNat]
  refine Nat.mod_eq_of_lt ?_
  split <;> omega

theorem F32.sign_eq (x : F32) : x.sign = decide (2 ^ 31 ≤ x.bits.toNat) := by
  have := x.bits.isLt
  rw [F32.sign, BitVec.getLsbD, Nat.testBit_eq_decide_div_mod_eq]
  by_cases h : 2 ^ 31 ≤ x.bits.toNat
  · simp only [h, decide_true, decide_eq_true_eq]; omega
  · simp only [h, decide_false, decide_eq_false_iff_not]; omega

theorem F32.expo_eq (x : F32) : x.expo = x.bits.toNat / 2 ^ 23 % 2 ^ 8 := by
  simp [F32.expo, BitVec.extractLsb'_toNat, Nat.shiftRight_eq_div_pow]

theorem F32.frac_eq (x : F32) : x.frac = x.bits.toNat % 2 ^ 23 := by
  simp [F32.frac, BitVec.extractLsb'_toNat]

/-- The magnitude bits of a number. -/
def F32.magBits (x : F32) : Nat := x.bits.toNat % 2 ^ 31

theorem F32.magBits_lt (x : F32) : x.magBits < 2 ^ 31 := Nat.mod_lt _ (by decide)

theorem F32.magBits_eq (x : F32) : x.magBits = x.expo * 2 ^ 23 + x.frac := by
  have := x.bits.isLt
  rw [F32.magBits, F32.expo_eq, F32.frac_eq]; omega

/-- A number is its sign and its magnitude bits. -/
theorem F32.pack_eta (x : F32) : F32.pack x.sign x.magBits = x := by
  apply F32.ext
  apply BitVec.eq_of_toNat_eq
  rw [F32.bits_toNat_pack x.magBits_lt, F32.sign_eq, F32.magBits]
  have := x.bits.isLt
  by_cases h : 2 ^ 31 ≤ x.bits.toNat
  · simp only [h, decide_true, if_true]; omega
  · simp only [h, decide_false]; simp; omega

@[simp] theorem F32.sign_pack {s : Bool} {m : Nat} (h : m < 2 ^ 31) : (F32.pack s m).sign = s := by
  rw [F32.sign_eq, F32.bits_toNat_pack h]
  cases s
  · simp; omega
  · simp

@[simp] theorem F32.magBits_pack {s : Bool} {m : Nat} (h : m < 2 ^ 31) : (F32.pack s m).magBits = m := by
  rw [F32.magBits, F32.bits_toNat_pack h]
  cases s
  · simp; omega
  · simp; omega

theorem F32.isFinite_iff (x : F32) : x.isFinite = true ↔ x.magBits < F32.infBits := by
  have h1 : x.expo < 256 := by rw [F32.expo_eq]; omega
  have h2 : x.frac < 2 ^ 23 := by rw [F32.frac_eq]; omega
  rw [F32.magBits_eq, F32.isFinite, F32.infBits]
  simp only [bne_iff_ne]
  omega

theorem F32.isNaN_iff (x : F32) : x.isNaN = true ↔ F32.infBits < x.magBits := by
  have h1 : x.expo < 256 := by rw [F32.expo_eq]; omega
  have h2 : x.frac < 2 ^ 23 := by rw [F32.frac_eq]; omega
  rw [F32.magBits_eq, F32.isNaN, F32.infBits]
  simp only [Bool.and_eq_true, beq_iff_eq, bne_iff_ne]
  omega

theorem F32.isInf_iff (x : F32) : x.isInf = true ↔ x.magBits = F32.infBits := by
  have h1 : x.expo < 256 := by rw [F32.expo_eq]; omega
  have h2 : x.frac < 2 ^ 23 := by rw [F32.frac_eq]; omega
  rw [F32.magBits_eq, F32.isInf, F32.infBits]
  simp only [Bool.and_eq_true, beq_iff_eq]
  omega

theorem F32.not_nan_of_finite {x : F32} (h : x.isFinite = true) : x.isNaN = false := by
  rw [← Bool.not_eq_true, F32.isNaN_iff]; rw [F32.isFinite_iff] at h; omega

theorem F32.not_inf_of_finite {x : F32} (h : x.isFinite = true) : x.isInf = false := by
  rw [← Bool.not_eq_true, F32.isInf_iff]; rw [F32.isFinite_iff] at h; omega

/-! ## Rounding -/

/-- A whole number rounds to itself. -/
theorem roundNearest_mul (q d : Nat) (hd : 0 < d) : roundNearest (q * d) d = q := by
  simp only [roundNearest, Nat.mul_div_cancel _ hd, Nat.mul_mod_left]
  rw [if_neg]; omega

/-- The number of low-order units of a magnitude is its exponent less one. -/
theorem ulpShift_mag (x : F32) : ulpShift x.mag = x.expo - 1 := by
  have h2 : x.frac < 2 ^ 23 := by rw [F32.frac_eq]; omega
  unfold ulpShift F32.mag
  split
  · rename_i h
    have : Nat.log2 x.frac ≤ 23 := by
      rcases Nat.eq_zero_or_pos x.frac with h0 | h0
      · simp [h0, Nat.log2]
      · exact le_of_lt ((Nat.log2_lt (by omega)).2 h2)
    omega
  · rename_i h
    have : Nat.log2 ((x.frac + 2 ^ 23) * 2 ^ (x.expo - 1)) = 23 + (x.expo - 1) := by
      rw [Nat.log2_eq_iff (by positivity)]
      constructor
      · rw [pow_add]; exact Nat.mul_le_mul_right _ (by omega)
      · rw [show 23 + (x.expo - 1) + 1 = 24 + (x.expo - 1) by omega, pow_add]
        exact Nat.mul_lt_mul_of_pos_right (by omega) (by positivity)
    omega

/-- The magnitude of a finite number rounds to its own bits. -/
theorem roundMag_mag (x : F32) (hx : x.isFinite = true) (c : Nat) (hc : 0 < c) : roundMag (x.mag * c) c = x.magBits := by
  have hm : x.magBits < F32.infBits := (F32.isFinite_iff x).1 hx
  simp only [roundMag, Nat.mul_div_cancel _ hc, ulpShift_mag]
  have key : (x.expo - 1) * 2 ^ 23 + roundNearest (x.mag * c) (c * 2 ^ (x.expo - 1)) = x.magBits := by
    rw [F32.magBits_eq]
    unfold F32.mag
    split
    · rename_i h; simp [h, roundNearest_mul _ _ hc]
    · rename_i h
      rw [show (x.frac + 2 ^ 23) * 2 ^ (x.expo - 1) * c = (x.frac + 2 ^ 23) * (c * 2 ^ (x.expo - 1)) by ring,
        roundNearest_mul _ _ (by positivity)]
      obtain ⟨e, he⟩ : ∃ e, x.expo = e + 1 := ⟨x.expo - 1, by omega⟩
      rw [he]; simp; ring
  rw [key]; omega

/-- A finite number is what its own sign and magnitude round to. -/
theorem F32.round_mag (x : F32) (hx : x.isFinite = true) (c : Nat) (hc : 0 < c) : F32.round x.sign (x.mag * c) c = x := by
  rw [F32.round, roundMag_mag x hx c hc, F32.pack_eta]

theorem roundMag_le (num den : Nat) : roundMag num den ≤ F32.infBits := Nat.min_le_right _ _

theorem roundMag_lt (num den : Nat) : roundMag num den < 2 ^ 31 := lt_of_le_of_lt (roundMag_le num den) (by decide)

@[simp] theorem F32.sign_round (s : Bool) (num den : Nat) : (F32.round s num den).sign = s :=
  F32.sign_pack (roundMag_lt num den)

@[simp] theorem F32.magBits_round (s : Bool) (num den : Nat) : (F32.round s num den).magBits = roundMag num den :=
  F32.magBits_pack (roundMag_lt num den)

/-- A rounding never delivers a NaN. -/
theorem F32.isNaN_round (s : Bool) (num den : Nat) : (F32.round s num den).isNaN = false := by
  rw [← Bool.not_eq_true, F32.isNaN_iff, F32.magBits_round]
  have := roundMag_le num den; omega

@[simp] theorem roundMag_zero (den : Nat) : roundMag 0 den = 0 := by
  simp [roundMag, ulpShift, roundNearest, F32.infBits, Nat.log2]

/-! ## Zeros -/

theorem F32.mag_eq_zero {x : F32} : x.mag = 0 ↔ x.magBits = 0 := by
  rw [F32.magBits_eq]
  unfold F32.mag
  split
  · rename_i h; simp [h]
  · rename_i h
    constructor
    · intro h0
      have : 0 < (x.frac + 2 ^ 23) * 2 ^ (x.expo - 1) := by positivity
      omega
    · intro h0; omega

/-- A number of magnitude zero is a zero of its own sign. -/
theorem F32.eq_pack_zero {x : F32} (h : x.mag = 0) : x = F32.pack x.sign 0 := by
  conv => lhs; rw [← F32.pack_eta x, F32.mag_eq_zero.1 h]

theorem F32.isFinite_of_mag_zero {x : F32} (h : x.mag = 0) : x.isFinite = true := by
  rw [F32.isFinite_iff, F32.mag_eq_zero.1 h]; decide

/-! ## NaN -/

/-- The NaN of an operation is never finite. -/
theorem F32.nanResult_not_finite (op : FpOp) (x y : F32) : (F32.nanResult op x y).isFinite = false := by
  have : (F32.nanResult op x y).expo = 255 := by
    simp only [F32.expo, F32.nanResult]
    have h : BitVec.extractLsb' 23 8 (Config.nanFree op x y &&& 0x803FFFFF#32 ||| 0x7FC00000#32) = 0xFF#8 := by
      ext i hi
      simp only [BitVec.getElem_extractLsb', BitVec.getLsbD_or, BitVec.getLsbD_and]
      have : i = 0 ∨ i = 1 ∨ i = 2 ∨ i = 3 ∨ i = 4 ∨ i = 5 ∨ i = 6 ∨ i = 7 := by omega
      rcases this with rfl | rfl | rfl | rfl | rfl | rfl | rfl | rfl <;> simp
    rw [h]; rfl
  simp [F32.isFinite, this]

/-! ## Constants -/

theorem F32.one_mag : F32.one.mag = 2 ^ 149 := by decide

/-- `x × 1 = x` for a finite `x`, bit for bit. -/
theorem F32.mul_one {x : F32} (hx : x.isFinite = true) : x.mul F32.one = x := by
  have h1 : F32.one.isFinite = true := by decide
  have hs : F32.one.sign = false := by decide
  simp only [F32.mul, F32.not_nan_of_finite hx, F32.not_nan_of_finite h1, F32.not_inf_of_finite hx,
    F32.not_inf_of_finite h1, hs, F32.one_mag, Bool.or_false, Bool.false_eq_true, if_false, Bool.bne_false]
  exact F32.round_mag x hx _ (by positivity)

/-- `1 × x = x` for a finite `x`, bit for bit. -/
theorem F32.one_mul {x : F32} (hx : x.isFinite = true) : F32.one.mul x = x := by
  have h1 : F32.one.isFinite = true := by decide
  have hs : F32.one.sign = false := by decide
  simp only [F32.mul, F32.not_nan_of_finite hx, F32.not_nan_of_finite h1, F32.not_inf_of_finite hx,
    F32.not_inf_of_finite h1, hs, F32.one_mag, Bool.or_false, Bool.false_eq_true, if_false, Bool.false_bne]
  rw [Nat.mul_comm]
  exact F32.round_mag x hx _ (by positivity)

/-- A zero times a finite number is a zero. -/
theorem F32.zero_mul {x y : F32} (hx : x.mag = 0) (hy : y.isFinite = true) : (x.mul y).mag = 0 := by
  have hf := F32.isFinite_of_mag_zero hx
  simp only [F32.mul, F32.not_nan_of_finite hf, F32.not_nan_of_finite hy, F32.not_inf_of_finite hf,
    F32.not_inf_of_finite hy, hx, Bool.or_false, Bool.false_eq_true, if_false, Nat.zero_mul]
  rw [F32.mag_eq_zero, F32.magBits_round, roundMag_zero]

/-- A finite number times a zero is a zero. -/
theorem F32.mul_zero {x y : F32} (hx : x.isFinite = true) (hy : y.mag = 0) : (x.mul y).mag = 0 := by
  have hf := F32.isFinite_of_mag_zero hy
  simp only [F32.mul, F32.not_nan_of_finite hf, F32.not_nan_of_finite hx, F32.not_inf_of_finite hf,
    F32.not_inf_of_finite hx, hy, Bool.or_false, Bool.false_eq_true, if_false, Nat.mul_zero]
  rw [F32.mag_eq_zero, F32.magBits_round, roundMag_zero]

/-- The order of two operands that are finite does not matter to a sum. -/
theorem F32.add_comm {x y : F32} (hx : x.isFinite = true) (hy : y.isFinite = true) : x.add y = y.add x := by
  simp only [F32.add, F32.sum, F32.not_nan_of_finite hx, F32.not_nan_of_finite hy, F32.not_inf_of_finite hx,
    F32.not_inf_of_finite hy, Bool.or_false, Bool.false_eq_true, if_false]
  rw [Int.add_comm, Bool.and_comm]

/-- `x + (±0) = x` for a finite `x` other than `−0.0`, bit for bit. -/
theorem F32.add_zero {x z : F32} (hx : x.isFinite = true) (hn : x.mag = 0 → x.sign = false) (hz : z.mag = 0) :
    x.add z = x := by
  have hf := F32.isFinite_of_mag_zero hz
  have hsz : z.scaled = 0 := by simp [F32.scaled, hz]
  simp only [F32.add, F32.sum, F32.not_nan_of_finite hx, F32.not_nan_of_finite hf, F32.not_inf_of_finite hx,
    F32.not_inf_of_finite hf, hsz, Bool.or_false, Bool.false_eq_true, if_false, Int.add_zero]
  split
  · rename_i h0
    have hm : x.mag = 0 := by
      unfold F32.scaled at h0; split at h0 <;> omega
    rw [hn hm, Bool.false_and]
    conv => rhs; rw [F32.eq_pack_zero hm, hn hm]
  · rename_i h0
    have hs : decide (x.scaled < 0) = x.sign := by
      cases h : x.sign <;> (simp [F32.scaled, h] at h0 ⊢; try omega)
    have hab : x.scaled.natAbs = x.mag := by
      cases h : x.sign <;> simp [F32.scaled, h]
    rw [hs, hab]
    simpa using F32.round_mag x hx 1 (by decide)

/-- `(±0) + x = x` for a finite `x` other than `−0.0`, bit for bit. -/
theorem F32.zero_add {x z : F32} (hx : x.isFinite = true) (hn : x.mag = 0 → x.sign = false) (hz : z.mag = 0) :
    z.add x = x := by
  rw [F32.add_comm (F32.isFinite_of_mag_zero hz) hx, F32.add_zero hx hn hz]

end Sys2Proof
end

