-- ==== Sys2Proof/Laws/Ops.lean ====
section
/-!
SUPPORT. Laws of the shared operations: single bits of a word, sample memory and its canonical form, the checks
before an effect, and taking an error.
-/

namespace Sys2Proof.Machine

/-! ## Single bits -/

theorem setBit_getLsbD (w : Word) (i k : Nat) (hi : i < 32) :
    (setBit w i).getLsbD k = (w.getLsbD k || decide (k = i)) := by
  simp only [setBit, BitVec.getLsbD_or, BitVec.getLsbD_shiftLeft, BitVec.getLsbD_one]
  by_cases h : k = i
  · subst h; simp [hi]
  · rcases Nat.lt_or_ge k 32 with h1 | h1
    · simp [h]; omega
    · simp [h]; omega

theorem clearBit_getLsbD (w : Word) (i k : Nat) :
    (clearBit w i).getLsbD k = (w.getLsbD k && !decide (k = i)) := by
  simp only [clearBit, BitVec.getLsbD_and, BitVec.getLsbD_not, BitVec.getLsbD_shiftLeft, BitVec.getLsbD_one]
  by_cases hk : k < 32
  · by_cases h : k = i
    · subst h; simp [hk]
    · simp [hk, h]; omega
  · have : w.getLsbD k = false := by apply BitVec.getLsbD_of_ge; omega
    simp [this]

/-- `setBit` as a union with one bit. -/
theorem setBit_eq_or_twoPow (w : Word) (i : Nat) : setBit w i = w ||| BitVec.twoPow 32 i := by
  simp [setBit, BitVec.twoPow]

/-- A bit below `n` keeps a word below `2^n`. -/
theorem setBit_toNat_lt {w : Word} {i n : Nat} (hw : w.toNat < 2 ^ n) (hi : i < n) : (setBit w i).toNat < 2 ^ n := by
  have h : (1#32 <<< i).toNat < 2 ^ n := by
    have h1 : (1#32 <<< i).toNat ≤ 2 ^ i := by
      simp only [BitVec.toNat_shiftLeft, BitVec.toNat_ofNat, Nat.shiftLeft_eq]
      exact le_trans (Nat.mod_le _ _) (by simp)
    exact lt_of_le_of_lt h1 (Nat.pow_lt_pow_right (by omega) hi)
  simpa [setBit, BitVec.toNat_or] using Nat.or_lt_two_pow hw h

/-- Clearing a bit keeps a word below `2^n`. -/
theorem clearBit_toNat_lt {w : Word} {i n : Nat} (hw : w.toNat < 2 ^ n) : (clearBit w i).toNat < 2 ^ n := by
  simp only [clearBit, BitVec.toNat_and]
  exact lt_of_le_of_lt Nat.and_le_left hw

/-! ## Sample memory -/

/-- Below every listed address a byte is unlisted. -/
theorem Memory.read_of_lt {m : Memory} {a : Nat} (h : ∀ c ∈ m, a < c.1) : Memory.read m a = unlistedByte := by
  induction m with
  | nil => rfl
  | cons c m ih =>
    obtain ⟨k, x⟩ := c
    have hk : a < k := h (k, x) (by simp)
    simp only [Memory.read, if_neg (show k ≠ a by omega)]
    exact ih fun c hc => h c (List.mem_cons_of_mem _ hc)

/-- The addresses a write can list: the old ones and the written one. -/
theorem Memory.mem_write {m : Memory} {a : Nat} {b : Byte} {c : Host.Cell} (h : c ∈ Memory.write m a b) :
    c ∈ m ∨ (c = (a, b) ∧ b ≠ unlistedByte) := by
  induction m with
  | nil =>
    simp only [Memory.write] at h
    split at h <;> simp_all
  | cons d m ih =>
    obtain ⟨k, x⟩ := d
    simp only [Memory.write] at h
    split at h
    · (split at h; simp_all; simp_all; tauto)
    · split at h
      · (split at h; simp_all; simp_all; tauto)
      · rcases List.mem_cons.1 h with h | h
        · exact .inl (by simp [h])
        · rcases ih h with h | h
          · exact .inl (by simp [h])
          · exact .inr h

/-- A write keeps the canonical form. -/
theorem Memory.write_wf {m : Memory} (h : Memory.wf m) (a : Nat) (b : Byte) : Memory.wf (Memory.write m a b) := by
  refine ⟨?_, fun c hc => ?_⟩
  · induction m with
    | nil => simp only [Memory.write]; split <;> simp
    | cons d m ih =>
      obtain ⟨k, x⟩ := d
      obtain ⟨hp, hn⟩ := h
      rw [List.pairwise_cons] at hp
      have hm : Memory.wf m := ⟨hp.2, fun c hc => hn c (List.mem_cons_of_mem _ hc)⟩
      simp only [Memory.write]
      split
      · rename_i hak
        split
        · exact List.pairwise_cons.2 hp
        · refine List.pairwise_cons.2 ⟨fun c hc => ?_, List.pairwise_cons.2 hp⟩
          rcases List.mem_cons.1 hc with rfl | hc
          · exact hak
          · exact lt_trans hak (hp.1 c hc)
      · split
        · rename_i h1 h2
          subst h2
          split
          · exact hp.2
          · exact List.pairwise_cons.2 ⟨hp.1, hp.2⟩
        · rename_i h1 h2
          refine List.pairwise_cons.2 ⟨fun c hc => ?_, ih hm⟩
          rcases Memory.mem_write hc with hc | ⟨rfl, -⟩
          · exact hp.1 c hc
          · simp only; omega
  · rcases Memory.mem_write hc with hc | ⟨rfl, hb⟩
    · exact h.2 c hc
    · exact hb

/-- A layout keeps the canonical form. -/
theorem Memory.load_wf {m : Memory} (h : Memory.wf m) (a : Nat) (bs : List Byte) : Memory.wf (Memory.load m a bs) := by
  induction bs generalizing m a with
  | nil => exact h
  | cons b bs ih => exact ih (Memory.write_wf h a b) (a + 1)

/-- A read after a write: the byte written at its address, the old byte at every other. -/
theorem Memory.read_write {m : Memory} (h : Memory.wf m) (a b : Nat) (x : Byte) :
    Memory.read (Memory.write m a x) b = if b = a then x else Memory.read m b := by
  induction m with
  | nil =>
    simp only [Memory.write]
    split <;> rename_i hx <;> simp only [Memory.read] <;> by_cases hb : b = a
    · simp [hb, hx]
    · simp [hb]
    · simp [hb]
    · simp [hb, show a ≠ b by omega]
  | cons d m ih =>
    obtain ⟨k, y⟩ := d
    obtain ⟨hp, hn⟩ := h
    rw [List.pairwise_cons] at hp
    have hm : Memory.wf m := ⟨hp.2, fun c hc => hn c (List.mem_cons_of_mem _ hc)⟩
    have hlow : ∀ c, c ≤ k → ∀ z ∈ m, c < z.1 := fun c hc z hz => lt_of_le_of_lt hc (hp.1 z hz)
    simp only [Memory.write]
    split
    · rename_i hak
      split
      · rename_i hx
        by_cases hb : b = a
        · subst hb
          simp [Memory.read, show k ≠ b by omega, Memory.read_of_lt (hlow b (by omega)), hx]
        · simp [hb]
      · by_cases hb : b = a
        · subst hb; simp [Memory.read]
        · simp [Memory.read, hb, show a ≠ b by omega]
    · split
      · rename_i h1 h2
        subst h2
        split
        · rename_i hx
          by_cases hb : b = a
          · subst hb
            simp [Memory.read_of_lt (hlow b le_rfl), hx]
          · simp [hb, Memory.read, show a ≠ b by omega]
        · by_cases hb : b = a
          · subst hb; simp [Memory.read]
          · simp [hb, Memory.read, show a ≠ b by omega]
      · rename_i h1 h2
        simp only [Memory.read, ih hm]
        by_cases hb : b = a
        · subst hb; simp [show k ≠ b by omega]
        · simp [hb]

theorem reset_memory_wf : Memory.wf State.reset.mem := ⟨List.Pairwise.nil, by simp [State.reset]⟩

/-! ## Checks before an effect -/

@[simp] theorem firstError_nil : firstError [] = none := rfl

theorem firstError_cons (b : Bool) (e : ErrSub) (l : List (Bool × ErrSub)) :
    firstError ((b, e) :: l) = if b then some e else firstError l := rfl

/-- No check fails exactly when none of them does. -/
theorem firstError_eq_none {l : List (Bool × ErrSub)} : firstError l = none ↔ ∀ c ∈ l, c.1 = false := by
  induction l with
  | nil => simp
  | cons c l ih =>
    obtain ⟨b, e⟩ := c
    cases b <;> simp [firstError_cons, ih]

/-- The error reported is one of the listed ones. -/
theorem firstError_mem {l : List (Bool × ErrSub)} {e : ErrSub} (h : firstError l = some e) : (true, e) ∈ l := by
  induction l with
  | nil => simp at h
  | cons c l ih =>
    obtain ⟨b, f⟩ := c
    cases b
    · simp [firstError_cons] at h; exact List.mem_cons_of_mem _ (ih h)
    · simp [firstError_cons] at h; simp [h]

/-- Everything a guarded command can do: take the first error, or have its effect with no check failing. -/
theorem guarded_cases {s t : State} {trk : BitVec 4} {n : Nat} {checks : List (Bool × ErrSub)} {effect : State → State}
    (h : guarded s trk n checks effect = .next t) :
    (∃ e, (true, e) ∈ checks ∧ firstError checks = some e ∧ t = s.takeError e trk n) ∨
    ((∀ c ∈ checks, c.1 = false) ∧ t = effect s) := by
  unfold guarded at h
  split at h
  · rename_i e he
    exact .inl ⟨e, firstError_mem he, he, by injection h with h; exact h.symm⟩
  · rename_i he
    exact .inr ⟨firstError_eq_none.1 he, by injection h with h; exact h.symm⟩

/-- A guarded command no check of which fails has its effect. -/
theorem guarded_of_pass {s : State} {trk : BitVec 4} {n : Nat} {checks : List (Bool × ErrSub)} {effect : State → State}
    (h : ∀ c ∈ checks, c.1 = false) : guarded s trk n checks effect = .next (effect s) := by
  simp [guarded, firstError_eq_none.2 h]

/-! ## Taking an error -/

/-- A fatal error: HALT and the cause, nothing else (R333, R337). -/
theorem takeError_fatal (s : State) (e : ErrSub) (trk : BitVec 4) (n : Nat) (h : e.kind.fatal = true) :
    s.takeError e trk n =
      { s with status := setBit s.status 1, errCause := errCauseWord e trk, errInfo := BitVec.ofNat 32 s.cp } := by
  unfold State.takeError
  cases hk : e.kind
  · rfl
  · simp [hk, ErrKind.fatal] at h
  · simp [hk, ErrKind.fatal] at h
  · rfl

/-- A DataError: the cause, DATAERR, the track's bits, and `cp` past the command (R333, R338). -/
theorem takeError_data (s : State) (e : ErrSub) (trk : BitVec 4) (n : Nat) (h : e.kind = .data) :
    s.takeError e trk n =
      { s with
          status := setBit s.status 4
          errCause := errCauseWord e trk
          errInfo := BitVec.ofNat 32 s.cp
          trkErr := setBit s.trkErr trk.toNat
          trkFine := setBit s.trkFine trk.toNat
          cp := s.cp + n } := by
  simp only [State.takeError, h]; rfl

/-- ResourceExhaustion: the cause and DROP (R227, R333). -/
theorem takeError_resource (s : State) (e : ErrSub) (trk : BitVec 4) (n : Nat) (h : e.kind = .resource) :
    s.takeError e trk n =
      { s with status := setBit s.status 2, errCause := errCauseWord e trk, errInfo := BitVec.ofNat 32 s.cp } := by
  simp only [State.takeError, h]; rfl

/-- ERRCAUSE stays in its sixteen bits (R35). -/
theorem errCauseWord_toNat_lt (e : ErrSub) (trk : BitVec 4) : (errCauseWord e trk).toNat < 2 ^ 16 := by
  have ht : trk.toNat < 16 := trk.isLt
  have hb : e.kind.code + e.code * 2 ^ 4 < 2 ^ 12 := by cases e <;> decide
  simp only [errCauseWord, BitVec.toNat_ofNat]
  refine lt_of_le_of_lt (Nat.mod_le _ _) ?_
  split <;> omega

end Sys2Proof.Machine
end

