-- ==== Sys2Proof/Laws/Params.lean ====
section
/-!
SUPPORT. The properties that 00_scope R17 grants of the open parameters: P-EXP2, P-SINC and P-PCMGAIN hold of the free
values as the machine reads them, and of what a legal launch states.
-/

namespace Sys2Proof

/-! ## Readings of a free word -/

theorem F32.isPosFinite_iff (x : F32) :
    x.isPosFinite = true ↔ x.sign = false ∧ x.magBits ≠ 0 ∧ x.magBits < F32.infBits := by
  simp only [F32.isPosFinite, Bool.and_eq_true, F32.isFinite_iff, Bool.not_eq_true', bne_iff_ne, ne_eq,
    F32.mag_eq_zero]
  tauto

theorem F32.posFiniteOf_isPosFinite (w : Word) : (F32.posFiniteOf w).isPosFinite = true := by
  have h : w.toNat % 0x7F7FFFFF + 1 < 2 ^ 31 := by omega
  have e : F32.posFiniteOf w = F32.pack false (w.toNat % 0x7F7FFFFF + 1) := by
    simp [F32.posFiniteOf, F32.pack]
  rw [F32.isPosFinite_iff, e, F32.sign_pack h, F32.magBits_pack h, F32.infBits]
  exact ⟨rfl, by omega, by omega⟩

/-- A number without sign, or a zero. -/
theorem F32.withZeroSign_spec {w : Word} {m : Nat} (h : m < 2 ^ 31) :
    (F32.withZeroSign w m).magBits = m ∧ ((F32.withZeroSign w m).sign = true → (F32.withZeroSign w m).mag = 0) := by
  refine ⟨F32.magBits_pack h, fun hs => ?_⟩
  rw [F32.withZeroSign, F32.sign_pack h] at hs
  rw [F32.mag_eq_zero, F32.withZeroSign, F32.magBits_pack h]
  simp only [Bool.and_eq_true, beq_iff_eq] at hs
  exact hs.2

theorem F32.nonnegFiniteOf_spec (w : Word) :
    (F32.nonnegFiniteOf w).isFinite = true ∧ ((F32.nonnegFiniteOf w).sign = true → (F32.nonnegFiniteOf w).mag = 0) := by
  have h := F32.withZeroSign_spec (w := w) (show w.toNat % 2 ^ 31 % 0x7F800000 < 2 ^ 31 by omega)
  refine ⟨?_, h.2⟩
  rw [F32.isFinite_iff, F32.nonnegFiniteOf, h.1, F32.infBits]
  omega

theorem F32.finiteOf_isFinite (w : Word) : (F32.finiteOf w).isFinite = true := by
  have h : w.toNat % 2 ^ 31 % 0x7F800000 < 2 ^ 31 := by omega
  rw [F32.isFinite_iff, F32.finiteOf, F32.magBits_pack h, F32.infBits]
  omega

theorem F32.unsignedOf_spec (w : Word) : (F32.unsignedOf w).sign = true → (F32.unsignedOf w).mag = 0 :=
  (F32.withZeroSign_spec (show w.toNat % 2 ^ 31 < 2 ^ 31 by omega)).2

/-! ## Rows of a stated function -/

/-- What `List.lookup` finds is a row. -/
theorem mem_of_lookup_eq_some {α β : Type} [BEq α] [LawfulBEq α] {rows : List (α × β)} {a : α} {b : β}
    (h : rows.lookup a = some b) : (a, b) ∈ rows := by
  induction rows with
  | nil => simp at h
  | cons r rs ih =>
    rw [List.lookup_cons] at h
    split at h
    · rename_i e
      rw [beq_iff_eq] at e
      obtain ⟨x, y⟩ := r
      injection h with h
      subst e h
      exact List.mem_cons_self
    · exact List.mem_cons_of_mem _ (ih h)

/-! ## P-EXP2 -/

theorem exp2_zero (p : Launch) : exp2 p F32.zero = F32.one := by rw [exp2, if_pos (by decide)]

theorem exp2_one (p : Launch) : exp2 p F32.one = F32.two := by rw [exp2, if_neg (by decide), if_pos rfl]

theorem exp2_negOne (p : Launch) : exp2 p F32.negOne = F32.half := by
  rw [exp2, if_neg (by decide), if_neg (by decide), if_pos rfl]

theorem exp2Open_isPosFinite {x : F32} (hx : x.inExp2Range = true) : (exp2Open x).isPosFinite = true := by
  rw [exp2Open, if_pos hx]; exact F32.posFiniteOf_isPosFinite _

/-- `Exp2(x)` is finite and positive for every finite `x` with `|x| ≤ 64`. -/
theorem exp2_isPosFinite {p : Launch} (hp : p.exp2Legal = true) {x : F32} (hx : x.inExp2Range = true) :
    (exp2 p x).isPosFinite = true := by
  unfold exp2
  split
  · decide
  · split
    · decide
    · split
      · decide
      · cases h : p.exp2.lookup x with
        | none => exact exp2Open_isPosFinite hx
        | some y =>
          have := List.all_eq_true.mp hp _ (mem_of_lookup_eq_some h)
          simpa [hx] using this

/-! ## NoiseRate -/

/-- A pitch the launch states no rate for has the default rate. -/
theorem noiseRate_default {p : Launch} {pitch : BitVec 16} (h : p.noiseRate.lookup pitch = none) :
    noiseRate p pitch = F32.ofNat 65536 := by simp [noiseRate, h, Config.noiseRateDefault]

/-- A property of all stated rates and of the default holds of `NoiseRate`. -/
theorem noiseRate_of_rows {p : Launch} {P : F32 → Prop} (hrow : ∀ r ∈ p.noiseRate, P r.2) (hd : P (F32.ofNat 65536))
    (pitch : BitVec 16) : P (noiseRate p pitch) := by
  unfold noiseRate
  cases h : p.noiseRate.lookup pitch with
  | none => exact hd
  | some y => exact hrow _ (mem_of_lookup_eq_some h)

/-! ## P-SINC -/

theorem kernelCoef_impulse (choice : KernelChoice) (free : F32 → F32 → Nat → Word) (k : Nat) :
    kernelCoef choice free F32.zero F32.one k = unitImpulse k := by simp [kernelCoef]

theorem sincKernel_impulse (p : Launch) (k : Nat) : sincKernel p F32.zero F32.one k = unitImpulse k :=
  kernelCoef_impulse _ _ _

theorem blepKernel_impulse (p : Launch) (k : Nat) : blepKernel p F32.zero F32.one k = unitImpulse k := by
  unfold blepKernel
  split
  · exact sincKernel_impulse p k
  · exact kernelCoef_impulse _ _ _

/-- The coefficients of a legal kernel are finite at finite arguments, the sixteen stated ones and the free ones. -/
theorem kernelCoef_isFinite {choice : KernelChoice} (hc : choice.legal = true) (free : F32 → F32 → Nat → Word)
    {fpos phaseInc : F32} (hf : fpos.isFinite = true) (hp : phaseInc.isFinite = true) (k : Nat) :
    (kernelCoef choice free fpos phaseInc k).isFinite = true := by
  have hget (coef : Vector F32 16) (h : coef.toList.all F32.isFinite = true) :
      (coef.toList.getD k F32.zero).isFinite = true := by
    rw [List.getD_eq_getElem?_getD]
    cases e : coef.toList[k]? with
    | none => decide
    | some x => exact List.all_eq_true.mp h x (List.mem_of_getElem? e)
  simp only [KernelChoice.legal, Bool.and_eq_true] at hc
  unfold kernelCoef
  split
  · unfold unitImpulse; split <;> decide
  · cases hr : choice.rows.lookup (fpos, phaseInc) with
    | some coef =>
      have := List.all_eq_true.mp hc.1 _ (mem_of_lookup_eq_some hr)
      simp only [hf, hp, Bool.and_self, Bool.not_true, Bool.false_or] at this
      exact hget coef this
    | none =>
      cases ho : choice.others with
      | some coef => simp only [Option.or]; exact hget coef (by simpa [ho] using hc.2)
      | none => simp only [Option.or, hf, hp, Bool.and_self, if_true]; exact F32.finiteOf_isFinite _

/-! ## P-PCMGAIN -/

/-- A gain left open is finite and not negative. -/
theorem pcmGain_open (p : Launch) (h : p.pcmGain = none) (v : BitVec 4) :
    (pcmGain p v).isFinite = true ∧ ((pcmGain p v).sign = true → (pcmGain p v).mag = 0) := by
  simp only [pcmGain, h]; exact F32.nonnegFiniteOf_spec _

end Sys2Proof
end

