-- ==== Sys2Proof/Laws/PerInstr.lean ====
section
/-!
SUPPORT. The laws stated once per command. `HeaderSelectsRow`: the header word a command is encoded with selects a row
of the opcode table, the row has the command's opcode, and its length is the number of words encoded.
-/

namespace Sys2Proof.Laws.HeaderSelectsRow

/-- The first word of `encode i` selects the row of `i`, whose length is that of `encode i`. -/
def Statement (i : Instr) : Prop :=
  ∃ h ops r, encode i = h :: ops ∧ headerRow h = some r ∧ r.opcode = i.opcode ∧ r.words = i.opcode.words ∧
    ops.length + 1 = r.words

/-- The row of a header given as its fields, found by its opcode and its unused fields. -/
theorem of_find {i : Instr} {op : BitVec 8} {trk f : BitVec 4} {a b : Byte} {ops : List Word} {r : OpRow}
    (he : encode i = header op trk f a b :: ops) (hr : headerRow (header op trk f a b) = some r)
    (ho : r.opcode = i.opcode) (hw : r.words = i.opcode.words) (hl : ops.length + 1 = r.words) : Statement i :=
  ⟨_, _, r, he, hr, ho, hw, hl⟩

theorem nop :
    Statement .nop := by
  exact of_find rfl (by simp [headerRow, opTable_header, OpRow.selects, header_and]; rfl) rfl rfl rfl

theorem cfg (config poly : Word) :
    Statement (.cfg config poly) := by
  exact of_find rfl (by simp [headerRow, opTable_header, OpRow.selects, header_and, header_inj]; rfl) rfl rfl rfl

theorem reset :
    Statement .reset := by
  exact of_find rfl (by simp [headerRow, opTable_header, OpRow.selects, header_and, header_inj]; rfl) rfl rfl rfl

theorem noteonPcm (trk : BitVec 4) (loopEnabled : Bool) (key vel : Byte) (adsr : Adsr) (pp : PitchPrio) (base midc loopPos endPos : Word) :
    Statement (.noteonPcm trk loopEnabled key vel adsr pp base midc loopPos endPos) := by
  have h : (0#3 ++ BitVec.ofBool loopEnabled) &&& 0xE#4 = 0 := by cases loopEnabled <;> rfl
  exact of_find rfl (by simp [headerRow, opTable_header, OpRow.selects, header_and, header_inj, h]; rfl) rfl rfl rfl

theorem noteonSq (trk : BitVec 4) (unit : SqUnit) (duty : Duty) (key vel : Byte) (adsr : Adsr) (pp : PitchPrio) :
    Statement (.noteonSq trk unit duty key vel adsr pp) := by
  have h : (0#1 ++ unit.code ++ duty.code) &&& 0x8#4 = 0 := by cases unit <;> cases duty <;> rfl
  exact of_find rfl (by simp [headerRow, opTable_header, OpRow.selects, header_and, header_inj, h]; rfl) rfl rfl rfl

theorem noteonWave (trk : BitVec 4) (key vel : Byte) (adsr : Adsr) (pp : PitchPrio) (waddr : Word) :
    Statement (.noteonWave trk key vel adsr pp waddr) := by
  exact of_find rfl (by simp [headerRow, opTable_header, OpRow.selects, header_and, header_inj]; rfl) rfl rfl rfl

theorem noteonNoise (trk : BitVec 4) (pattern : NoisePattern) (key vel : Byte) (adsr : Adsr) (pp : PitchPrio) :
    Statement (.noteonNoise trk pattern key vel adsr pp) := by
  have h : (0#3 ++ pattern.code) &&& 0xE#4 = 0 := by cases pattern <;> rfl
  exact of_find rfl (by simp [headerRow, opTable_header, OpRow.selects, header_and, header_inj, h]; rfl) rfl rfl rfl

theorem setpitch (trk : BitVec 4) (anykey : Bool) (key : Byte) (pitch : PitchWord) :
    Statement (.setpitch trk anykey key pitch) := by
  have h : (0#3 ++ BitVec.ofBool anykey) &&& 0xE#4 = 0 := by cases anykey <;> rfl
  exact of_find rfl (by simp [headerRow, opTable_header, OpRow.selects, header_and, header_inj, h]; rfl) rfl rfl rfl

theorem setvol (trk : BitVec 4) (vol pan : Byte) :
    Statement (.setvol trk vol pan) := by
  exact of_find rfl (by simp [headerRow, opTable_header, OpRow.selects, header_and, header_inj]; rfl) rfl rfl rfl

theorem release (trk : BitVec 4) (fast anykey : Bool) (key : Byte) :
    Statement (.release trk fast anykey key) := by
  have h : (0#2 ++ BitVec.ofBool fast ++ BitVec.ofBool anykey) &&& 0xC#4 = 0 := by cases fast <;> cases anykey <;> rfl
  exact of_find rfl (by simp [headerRow, opTable_header, OpRow.selects, header_and, header_inj, h]; rfl) rfl rfl rfl

theorem trkfine (trk : BitVec 4) (fine : Bool) :
    Statement (.trkfine trk fine) := by
  have h : (0#3 ++ BitVec.ofBool fine) &&& 0xE#4 = 0 := by cases fine <;> rfl
  exact of_find rfl (by simp [headerRow, opTable_header, OpRow.selects, header_and, header_inj, h]; rfl) rfl rfl rfl

theorem process :
    Statement .process := by
  exact of_find rfl (by simp [headerRow, opTable_header, OpRow.selects, header_and, header_inj]; rfl) rfl rfl rfl

theorem ended :
    Statement .ended := by
  exact of_find rfl (by simp [headerRow, opTable_header, OpRow.selects, header_and, header_inj]; rfl) rfl rfl rfl

theorem getbuf :
    Statement .getbuf := by
  exact of_find rfl (by simp [headerRow, opTable_header, OpRow.selects, header_and, header_inj]; rfl) rfl rfl rfl

theorem rdreg (reg : Byte) :
    Statement (.rdreg reg) := by
  exact of_find rfl (by simp [headerRow, opTable_header, OpRow.selects, header_and, header_inj]; rfl) rfl rfl rfl

end Sys2Proof.Laws.HeaderSelectsRow
end

