-- ==== Sys2Proof/Laws/Step.lean ====
section
/-!
SUPPORT. Everything a step can do.
-/

namespace Sys2Proof.Machine

/-- A step that answers a next state ran an illegal header's entry or a whole command, in a state that is not halted
(R113, R340). -/
theorem step_cases {s t : State} (h : step s = .next t) :
    s.halt = false ∧
    ((s.fetch = .illegal ∧ t = s.takeError .illOp 0 1) ∨ ∃ i n, s.fetch = .command i n ∧ exec i s = .next t) := by
  unfold step at h
  split at h
  · cases h
  · rename_i hh
    refine ⟨by simpa using hh, ?_⟩
    split at h
    · cases h
    · rename_i hf; exact .inl ⟨hf, by injection h with h; exact h.symm⟩
    · cases h
    · rename_i i n hf; exact .inr ⟨i, n, hf, h⟩

/-- The words placed for the next step stand where the step fetches (R84). -/
theorem placeWords_fetchWords (s : State) (ws : List Word) : ∃ rest, (s.placeWords ws).fetchWords = ws ++ rest := by
  have hl : (s.cmd.take s.cp ++ List.replicate (s.cp - s.cmd.length) (0 : Word)).length = s.cp := by
    simp only [List.length_append, List.length_take, List.length_replicate]; omega
  refine ⟨s.cmd.drop (s.cp + ws.length), ?_⟩
  simp only [State.fetchWords, State.placeWords, List.append_assoc]
  rw [← List.append_assoc, List.drop_append_of_le_length (by omega), List.drop_of_length_le (by omega)]
  rfl

end Sys2Proof.Machine
end

