-- ==== Sys2Proof/Tests/Slice0.lean ====
section
/-!
SUPPORT. Tests: the well-formedness smoke, words written out from the spec's encodings, the worked values of the spec
(95_test_vectors, cited as V), one step of each command, and for every statement with hypotheses a state and
operands that meet them all.
-/

set_option maxRecDepth 20000

namespace Sys2Proof.Tests

open Sys2Proof Sys2Proof.Machine

/-! ## Well-formedness: each check refuses an ill-formed term -/

def adsr0 : Adsr := ⟨255, 0, 255, 0⟩
def pp0 : PitchPrio := ⟨0, 0, 0⟩

theorem test_wf_config_reserved : (Instr.cfg 0x02000000#32 0).wf = false := by decide
theorem test_wf_poly_reserved : (Instr.cfg 0 0x00010000#32).wf = false := by decide
theorem test_wf_pcm_reserved : (Instr.noteonPcm 0 false 60 127 adsr0 ⟨1, 0, 0⟩ 0 0 0 0).wf = false := by decide
theorem test_wf_sq_reserved : (Instr.noteonSq 0 .sq1 .duty50 60 127 adsr0 ⟨0x80, 0, 0⟩).wf = false := by decide
theorem test_wf_wave_reserved : (Instr.noteonWave 0 60 127 adsr0 ⟨1, 0, 0⟩ 0).wf = false := by decide
theorem test_wf_noise_reserved : (Instr.noteonNoise 0 .fine 60 127 adsr0 ⟨1, 0, 0⟩).wf = false := by decide
theorem test_wf_pitch_reserved : (Instr.setpitch 0 true 0 ⟨1, 0⟩).wf = false := by decide
theorem test_wf_accepts : (Instr.cfg 0x01FFFFFF#32 0x0000FFFF#32).wf = true := by decide

/-! ## Decoding: words of 95_test_vectors section 3 and 30_encoding R117 -/

theorem test_decode_nop : decode [0x00000000#32] = .command .nop 1 := by decide
theorem test_decode_cfg : decode [0x01000000#32, 0x0016680F#32, 4#32] = .command (.cfg 0x0016680F#32 4) 3 := by decide
theorem test_decode_reset : decode [0x02000000#32] = .command .reset 1 := by decide
theorem test_decode_pcm :
    decode [0x10013C7F#32, 0x8000FF00#32, 0x00000000#32, 4#32, 0x46BB8000#32, 0#32, 4#32] =
      .command (.noteonPcm 0 true 60 127 ⟨128, 0, 255, 0⟩ ⟨0, 0, 0⟩ 4 0x46BB8000#32 0 4) 7 := by decide
theorem test_decode_pcm_noloop :
    decode [0x10003C64#32, 0xFF00FF00#32, 0x00190000#32, 0#32, 0x473B8000#32, 0#32, 0x10#32] =
      .command (.noteonPcm 0 false 60 100 adsr0 ⟨0, 25, 0⟩ 0 0x473B8000#32 0 16) 7 := by decide
theorem test_decode_sq2 :
    decode [0x11373C7F#32, 0xFF00FF00#32, 0x0007FB50#32] =
      .command (.noteonSq 3 .sq2 .duty75 60 127 adsr0 ⟨0, 7, BitVec.ofInt 16 (-1200)⟩) 3 := by decide
theorem test_decode_sq1 :
    decode [0x1101487F#32, 0xFF80C880#32, 0x000004B0#32] =
      .command (.noteonSq 0 .sq1 .duty25 72 127 ⟨255, 128, 200, 128⟩ ⟨0, 0, 1200⟩) 3 := by decide
theorem test_decode_wave :
    decode [0x12104064#32, 0xFF00FF00#32, 0#32, 0x200#32] = .command (.noteonWave 1 64 100 adsr0 pp0 0x200) 4 := by decide
theorem test_decode_noise :
    decode [0x13113C40#32, 0xFF00FF00#32, 0#32] = .command (.noteonNoise 1 .rough 60 64 adsr0 pp0) 3 := by decide
theorem test_decode_setpitch :
    decode [0x20203C00#32, 0x0000FB50#32] = .command (.setpitch 2 false 60 ⟨0, BitVec.ofInt 16 (-1200)⟩) 2 := by decide
theorem test_decode_setpitch_any : decode [0x20010000#32, 0x000004B0#32] = .command (.setpitch 0 true 0 ⟨0, 1200⟩) 2 := by decide
theorem test_decode_setvol : decode [0x213064C0#32] = .command (.setvol 3 100 (BitVec.ofInt 8 (-64))) 1 := by decide
theorem test_decode_release : decode [0x22003C00#32] = .command (.release 0 false false 60) 1 := by decide
theorem test_decode_release_fast : decode [0x22030000#32] = .command (.release 0 true true 0) 1 := by decide
theorem test_decode_trkfine : decode [0x23210000#32] = .command (.trkfine 2 true) 1 := by decide
theorem test_decode_process : decode [0x30000000#32] = .command .process 1 := by decide
theorem test_decode_ended : decode [0x31000000#32] = .command .ended 1 := by decide
theorem test_decode_getbuf : decode [0x32000000#32] = .command .getbuf 1 := by decide
theorem test_decode_rdreg : decode [0x33000010#32] = .command (.rdreg 16) 1 := by decide
theorem test_decode_illegal_op : decode [0x40000000#32] = .illegal := by decide
theorem test_decode_illegal_field : decode [0x00000001#32] = .illegal := by decide
theorem test_decode_illegal_sq : decode [0x11083C7F#32, 0xFF00FF00#32, 0#32] = .illegal := by decide
theorem test_decode_truncated : decode [0x11023C7F#32, 0xFF00FF00#32] = .truncated := by decide
theorem test_encode_pcm :
    encode (.noteonPcm 0 true 60 127 ⟨128, 0, 255, 0⟩ ⟨0, 0, 0⟩ 4 0x46BB8000#32 0 4) =
      [0x10013C7F#32, 0x8000FF00#32, 0x00000000#32, 4#32, 0x46BB8000#32, 0#32, 4#32] := by decide
theorem test_tableWord : decodeTableWord 64 0x000004B020010000 = some (.setpitch 0 true 0 ⟨0, 1200⟩) := by decide

/-! ## Small states -/

def impulse : Vector F32 16 := Vector.ofFn fun k => if k = 7 then F32.one else F32.zero

/-- A launch with 240 Hz as `MIXRATE[14]` (blocks of 4 samples), square and wave rates of 240 Hz, unit gains and kernels. -/
def testLaunch : Launch :=
  { resetLaunch with
      mixRate14 := some 240
      romSize := 16
      poolMax := some 3
      pcmGain := some (Vector.replicate 16 F32.one)
      sqRate0 := some (F32.ofNat 240)
      waveRate0 := some (F32.ofNat 240)
      sinc := .const impulse
      revTaps := [⟨1, 64, [⟨4, F32.half, F32.zero, F32.zero, F32.half⟩, ⟨1, F32.zero, F32.half, F32.half, F32.zero⟩]⟩] }

def start (words : List Word) : State := launched testLaunch [(0, 0x40), (1, 0x80)] words

/-- The block after `CFG 15, 64, 14, revType, NEAREST, 2, 1`, with no command left. -/
def ready (revType : Nat) : State :=
  { start [] with
      config := BitVec.ofNat 32 (0x0020740F + revType * 0x8000)
      poly := 1
      mixRate := 240
      bufCnt := 4
      rev := List.replicate 2 ⟨List.replicate 4 (F32.zero, F32.zero), 0⟩
      status := 1 }

/-- `s` with one command at `cp`. -/
def withCmd (s : State) (i : Instr) : State := { s with cmd := encode i, cp := 0 }

def midc240 : Word := (F32.ofNat 240).bits

def pcmVoice (prio : Byte) (e : EState) : Voice :=
  { newVoice (.pcm (pcmData false 0 midc240 0 4)) 0 60 127 adsr0 ⟨0, prio, 0⟩ F32.one with eState := e }

def sqVoice (e : EState) : Voice :=
  { newVoice (.square .sq1 .duty50) 0 60 127 adsr0 pp0 F32.one with eState := e }

/-- A state whose pool holds these voices. -/
def holding (vs : List Voice) : State := { ready 4 with pool := vs }

/-- The next state, or the start where there is none. -/
def after (o : Host.Outcome State Fault Refusal) : State :=
  match o with
  | .next t => t
  | .fault _ => State.reset
  | .refused _ => State.reset

/-! ## Worked values -/

/-- V4.3: the accumulation of `f32(0.1)` rounds; after ten steps the position is (1, 0x34000000). -/
theorem test_advance_rounds :
    let v := Nat.iterate advanceVoice 10 { sqVoice .sus with phaseInc := ⟨0x3DCCCCCD⟩ }
    v.ipos = 1 ∧ v.fpos = ⟨0x34000000⟩ := by decide

/-- V5.1. -/
theorem test_sample_scaling :
    [0x00, 0x01, 0x40, 0x7F, 0x80, 0xFF].map (fun b => (sampleValue b).bits) =
      [0#32, 0x3C000000#32, 0x3F000000#32, 0x3F7E0000#32, 0xBF800000#32, 0xBC000000#32] := by decide

/-- V5.2. -/
theorem test_wrap :
    pcmWrap (pcmData true 0 0 400 1000) 1601 = 401 ∧ pcmWrap (pcmData false 0 0 400 1000) 5000 = 1000 ∧
    pcmWrap (pcmData true 0 0 1000 1000) 1000 = 1000 := by decide

/-- V5.3: 8363.0 at 13379 Hz, 44100.0 an octave up at 13379 Hz. -/
theorem test_pcm_phase :
    pcmPhaseInc { ready 4 with mixRate := 13379 } ⟨0x4602AC00⟩ 0 = ⟨0x3F200583⟩ ∧
    pcmPhaseInc { ready 4 with mixRate := 13379 } (F32.ofNat 44100) 1200 = ⟨0x40D2F51D⟩ := by decide

/-- V6.3. -/
theorem test_nibbles :
    [0, 1, 5, 7, 8, 15].map (fun n => (nibbleValue (BitVec.ofNat 4 n)).bits) =
      [0xBF800000#32, 0xBF5DDDDE#32, 0xBEAAAAAB#32, 0xBD888889#32, 0x3D888889#32, 0x3F800000#32] := by decide

/-- V6.4: the output bits of ROUGH. -/
theorem test_lfsr_rough :
    (List.range 32).map (fun k => (lfsrAt .rough k).getLsbD 0) =
      ("11111110000001000001100001010001".toList.map (· == '1')) := by decide

/-- V6.4: the output bits of FINE. -/
theorem test_lfsr_fine :
    (List.range 32).map (fun k => (lfsrAt .fine k).getLsbD 0) =
      ("11111111111111100000000000000100".toList.map (· == '1')) := by decide

/-- V6.5. -/
theorem test_noise_phase :
    noisePhaseInc { ready 4 with mixRate := 48000 } 0 = ⟨0x3FAEC33E⟩ ∧
    noisePhaseInc { ready 4 with mixRate := 5734 } 7 = ⟨0x4136DEB2⟩ := by decide

/-- R207, 90_conflicts C11: a launch may state another rate for a pitch; here 48000.0 Hz at pitch 100. -/
theorem test_noise_rate_stated :
    let p := { testLaunch with noiseRate := [(100, F32.ofNat 48000)] }
    noiseRate p 100 = F32.ofNat 48000 ∧ noiseRate p 0 = F32.ofNat 65536 ∧ p.legal = true := by decide

/-- R17: a stated value of Exp2 is used where P-EXP2 leaves it open, and not where P-EXP2 fixes it. -/
theorem test_exp2_stated :
    let p := { testLaunch with exp2 := [(F32.two, F32.ofNat 4), (F32.one, F32.ofNat 3)] }
    exp2 p F32.two = F32.ofNat 4 ∧ exp2 p F32.one = F32.two ∧ exp2 p F32.negOne = F32.half ∧ p.legal = true := by decide

/-- R17: a kernel stated at one argument. -/
theorem test_kernel_stated :
    let p := { testLaunch with sinc := { rows := [((F32.half, F32.one), Vector.replicate 16 F32.half)], others := some impulse } }
    sincKernel p F32.half F32.one 3 = F32.half ∧ sincKernel p F32.half F32.two 3 = F32.zero ∧
    sincKernel p F32.zero F32.one 7 = F32.one ∧ p.legal = true := by decide

/-- R285: K is 2 for GS1 and GS2; MGAT takes any K from 1 on. -/
theorem test_tap_counts :
    let tap : Tap := ⟨4, F32.half, F32.zero, F32.zero, F32.half⟩
    [0, 1, 2, 3].map (fun k => (RevRow.mk 1 64 (List.replicate k tap)).legal 4) = [false, false, true, false] ∧
    [0, 1, 2, 3].map (fun k => (RevRow.mk 2 64 (List.replicate k tap)).legal 4) = [false, false, true, false] ∧
    [0, 1, 2, 3].map (fun k => (RevRow.mk 3 64 (List.replicate k tap)).legal 4) = [false, true, true, true] := by decide

/-- V7.1: level 255, velocity 100, volume 100, pan −32. -/
theorem test_pcm_volume :
    derivePcmVol { ready 4 with trkCtl := Vector.replicate 16 0x0000E064#32 }
      { pcmVoice 0 .sus with envLevel := 255, vel := 100 } = (⟨0x3EEE1499⟩, ⟨0x3E1EB866⟩) := by decide

/-- V7.2: level 200, velocity 100, volume 100, pan 21 and 22. -/
theorem test_cgb_volume :
    let v := { sqVoice .sus with envLevel := 200, vel := 100 }
    deriveCgbVol { ready 4 with trkCtl := Vector.replicate 16 0x00001564#32 } v = (.centre, ⟨0x3EE577C2⟩, ⟨0x3EE577C2⟩) ∧
    deriveCgbVol { ready 4 with trkCtl := Vector.replicate 16 0x00001664#32 } v = (.right, F32.zero, ⟨0x3EE577C2⟩) := by decide

/-- 95_test_vectors section 2: the whole life of one voice, `att = 100, dec = 128, sus = 60`. -/
theorem test_envelope_life :
    (List.range 6).map (fun n => ((envelopeSteps resetLaunch n { sqVoice .init with adsr := ⟨100, 128, 60, 64⟩ }).eState,
      (envelopeSteps resetLaunch n { sqVoice .init with adsr := ⟨100, 128, 60, 64⟩ }).envLevel)) =
      [(.init, 0), (.atk, 0), (.atk, 100), (.atk, 200), (.dec, 255), (.dec, 127)] := by decide

/-- 95_test_vectors section 2: release at `r = 128` from 255. -/
theorem test_release_levels :
    (List.range 9).map (fun n => (envelopeSteps resetLaunch n { sqVoice .rel with envLevel := 255, adsr := ⟨0, 0, 0, 128⟩ }).envLevel) =
      [255, 127, 63, 31, 15, 7, 3, 1, 0] := by decide

/-! ## One step of each command -/

theorem test_reset_state : State.reset.trkFine = 0x0000FFFF#32 ∧ State.reset.statusRead = 0 := by decide

theorem test_nop : (after (step (withCmd State.reset .nop))).cp = 1 := by decide

/-- R241's example: MIXRATE 48000, BUFCNT 800, STATUS 1. -/
theorem test_cfg :
    let t := after (exec (.cfg 0x0016680F 4) State.reset)
    t.mixRate = 48000 ∧ t.bufCnt = 800 ∧ t.status = 1 ∧ t.cp = 3 := by decide

/-- 95_test_vectors section 3: BADTRACKS. -/
theorem test_cfg_badtracks :
    let t := after (exec (.cfg 0x0112680F 4) State.reset)
    t.status = 2 ∧ t.errCause = 0x051 ∧ t.config = 0 ∧ t.cp = 0 := by decide

theorem test_reset : (after (exec .reset (holding [sqVoice .sus]))).pool = [] := by decide

theorem test_noteonPcm :
    let t := after (exec (.noteonPcm 0 false 60 127 adsr0 pp0 0 midc240 0 4) (ready 4))
    t.pool = [pcmVoice 0 .init] ∧ t.cp = 7 := by decide

/-- V5.4: `BASE = 0xFFFFFFFF, ENDPOS = 2` is SMPRANGE, without wrap-around. -/
theorem test_noteonPcm_range :
    let t := after (exec (.noteonPcm 0 false 60 127 adsr0 pp0 0xFFFFFFFF midc240 0 2) (ready 4))
    t.errCause = 0x122 ∧ t.pool = [] ∧ t.trkFine = 0xFFFF#32 ∧ t.cp = 7 := by decide

/-- R224: a NOTEON.SQ1 fast-releases the square voice before it and not the PCM voice. -/
theorem test_noteonSq :
    let t := after (exec (.noteonSq 0 .sq1 .duty12 60 127 adsr0 pp0) (holding [pcmVoice 0 .sus, sqVoice .sus]))
    t.pool.map (fun v => (v.eState, v.fastRelease)) = [(.sus, false), (.rel, true), (.init, false)] := by decide

/-- R197: bytes 0x40 and 0x80 unpack to nibbles 4, 0, 8, 0. -/
theorem test_noteonWave :
    (after (exec (.noteonWave 0 60 127 adsr0 pp0 0) (ready 4))).pool.map (·.source) =
      [.wave (Vector.ofFn fun i : Fin 32 =>
        if i = 0 then ⟨0xBEEEEEEF⟩ else if i = 2 then ⟨0x3D888889⟩ else ⟨0xBF800000⟩)] := by decide

theorem test_noteonWave_range : (after (exec (.noteonWave 0 60 127 adsr0 pp0 1) (ready 4))).errCause = 0x162 := by decide

theorem test_noteonNoise :
    ((after (exec (.noteonNoise 0 .rough 60 127 adsr0 pp0) (ready 4))).pool.map Voice.lfsr) = [some 0x7F#15] := by decide

/-- R175's example: an octave up doubles `phaseInc`. -/
theorem test_setpitch :
    (after (exec (.setpitch 0 true 0 ⟨0, 1200⟩) (holding [pcmVoice 0 .sus]))).pool.map (·.phaseInc) = [F32.two] := by decide

/-- R250's example, and V7.3. -/
theorem test_setvol :
    (after (exec (.setvol 1 0x64 0xC0) (ready 4))).trkCtl.get 1 = 0x0000C064#32 ∧
    (after (exec (.setvol 0 127 64) (ready 4))).errCause = 0x112 := by decide

/-- 95_test_vectors section 3: `RELEASE 0, *` with `a = 0xFF` is accepted, `RELEASE 0, 200` is KEYVEL. -/
theorem test_release :
    (after (exec (.release 0 false true 0xFF) (holding [sqVoice .dec]))).pool.map (·.eState) = [.rel] ∧
    (after (exec (.release 0 false false 200) (ready 4))).errCause = 0x102 ∧
    (after (exec (.release 0 false false 200) (ready 4))).statusRead = 0x19 := by decide

theorem test_trkfine : (after (exec (.trkfine 1 false) (ready 4))).trkFine = 0x0000FFFD#32 := by decide

/-- PROCESS by hand: a square voice at one source sample per output sample and sub-blocks of one sample is silent in the first
(INIT), then at full level (instant ATK, DEC, SUS), at half the amplitude (R192) on both sides. -/
theorem test_process_square :
    (after (exec .process { holding [sqVoice .init] with trkCtl := Vector.replicate 16 0x7F#32 })).audio =
      [⟨[[F32.zero, F32.zero, F32.half, F32.half, F32.half, F32.half, F32.half, F32.half],
          List.replicate 8 F32.zero],
        [F32.zero, F32.zero, F32.half, F32.half, F32.half, F32.half, F32.half, F32.half]⟩] := by decide

/-- R374, R375 by hand: a voice released while in INIT dies unheard in its first frame. -/
theorem test_process_reclaims :
    let t := after (exec .process { holding [sqVoice .rel] with trkCtl := Vector.replicate 16 0x7F#32 })
    t.pool = [] ∧ t.audio = [⟨List.replicate 2 (List.replicate 8 F32.zero), List.replicate 8 F32.zero⟩] := by decide

theorem test_ended :
    (after (exec .ended (ready 4))).responses = [1] ∧ (after (exec .ended (holding [sqVoice .sus]))).responses = [0] := by decide

theorem test_getbuf : (after (exec .getbuf (ready 4))).responses = [4] := by decide

theorem test_rdreg :
    (after (exec (.rdreg 4) (ready 4))).responses = [9] ∧
    (after (exec (.rdreg 10) (holding [pcmVoice 0 .rel, sqVoice .sus]))).responses = [1] := by decide

theorem test_withFetchWord :
    (after (step (State.reset.withFetchWord 32 0x33000007))).responses = [0x0000FFFF#32] := by decide

/-! ## Witnesses: states and operands that meet the hypotheses of each statement -/

/-- A square note, in the words of the spec's example. -/
def sqWords : List Word := [0x11023C7F#32, 0xFF00FF00#32, 0#32]
def sqNote : Instr := .noteonSq 0 .sq1 .duty50 60 127 adsr0 pp0

/-- A full pool under `POOL_MAX = 3`. -/
def full : State := holding [sqVoice .sus, sqVoice .rel, sqVoice .rel]

/-- A launch whose square and wave rates are infinite. -/
def loud : State :=
  { ready 4 with launch := { testLaunch with sqRate0 := some (F32.inf false), waveRate0 := some (F32.inf false) } }

theorem witness_EncodeOfDecode : decode (sqWords ++ [0]) = .command sqNote 3 := by decide

theorem witness_IllegalHeadersHalt_listed :
    let s := withCmd (ready 4) sqNote
    s.halt = false ∧ s.cmd.drop s.cp = 0x11023C7F#32 :: [0xFF00FF00#32, 0#32] ∧
    (0x11023C7F#32).extractLsb' 24 8 = 0x11#8 ∧ (0x11023C7F#32).getLsbD 19 = false := by decide

theorem witness_IllegalHeadersHalt_unlisted :
    let s := { ready 4 with cmd := [0x11083C7F#32], cp := 0 }
    let h := 0x11083C7F#32
    s.halt = false ∧ s.cmd.drop s.cp = h :: [] ∧ h.extractLsb' 24 8 = 0x11#8 ∧ h.getLsbD 19 = true := by decide

theorem witness_StepRunsDecodedCommand :
    let s := withCmd (ready 4) sqNote
    s.halt = false ∧ decode (s.cmd.drop s.cp) = .command sqNote 3 := by decide

theorem witness_NoStepWhenHaltedOrWaiting :
    (after (exec .process State.reset)).halt = true ∧
    ((ready 4).halt = false ∧ (ready 4).cmd.length ≤ (ready 4).cp) ∧
    (let s := { ready 4 with cmd := [0x11023C7F#32, 0xFF00FF00#32] }
     s.halt = false ∧ 0 < 2 ∧ 2 < sqNote.opcode.words ∧ s.cmd.drop s.cp = (encode sqNote).take 2) := by decide

/-- A step that answers a next state: for the statements over every step. -/
theorem witness_step_next :
    step (withCmd (ready 4) sqNote) = .next (after (step (withCmd (ready 4) sqNote))) := rfl

theorem witness_AppendedWordsChangeNoStep : ∃ s t, step s = .next t ∧ s ≠ t :=
  ⟨withCmd (ready 4) sqNote, _, witness_step_next, by decide⟩

/-- Both cases of CommandPointerMoves: a fatal error, and a command of three words. -/
theorem witness_CommandPointerMoves :
    (after (step (withCmd State.reset .process))).halt = true ∧ (after (step (withCmd (ready 4) sqNote))).cp = 3 ∧
    step (withCmd State.reset .process) = .next (after (step (withCmd State.reset .process))) :=
  ⟨by decide, by decide, rfl⟩

theorem witness_ConfiguredCheck : State.reset.configured = false ∧ (ready 4).configured = true := by decide

theorem witness_ReservedOperandBitHalts :
    ((Instr.setpitch 0 true 0 ⟨0x8000, 0⟩).wf = false ∧ (ready 4).configured = true) ∧
    ((Instr.cfg 0x0212680F 4).wf = false ∧ State.reset.configured = false) := by decide

theorem witness_TrackOutOfRangeHalts :
    (ready 4).configured = true ∧ (Instr.setvol 2 0 0).wf = true ∧ trackOf (.setvol 2 0 0) = some 2 ∧
    (ready 4).trackLimit ≤ (2 : BitVec 4).toNat := by decide

theorem witness_trackReady : trackReady (ready 4) 1 := ⟨by decide, by decide⟩

theorem witness_noteReady : noteReady (ready 4) 1 127 127 pp0 := ⟨witness_trackReady, rfl, by decide, by decide⟩

theorem witness_KeyOrVelocityAbove127 :
    trackReady (ready 4) 1 ∧ 127 < (128 : Byte).toNat ∧ pp0.rsvd = 0 := ⟨witness_trackReady, by decide, rfl⟩

/-- One clause each: MIDC at 0.0, LOOPINV at 5 and 4, SMPRANGE at 8 + 9, PHASE by overflow. -/
theorem witness_PcmValueErrorsInOrder :
    noteReady (ready 4) 1 127 127 ⟨0, 0, 1200⟩ ∧
    ¬ pcmReady (ready 4) false ⟨0, 0, 1200⟩ 0 0 0 4 ∧
    ¬ pcmReady (ready 4) true ⟨0, 0, 1200⟩ 0 midc240 5 4 ∧
    ¬ pcmReady (ready 4) false ⟨0, 0, 1200⟩ 8 midc240 0 9 ∧
    ¬ pcmReady (ready 4) false ⟨0, 0, 1200⟩ 8 0x7F7FFFFF 0 8 :=
  ⟨⟨witness_trackReady, rfl, by decide, by decide⟩, fun h => absurd h.1 (by decide), fun h => absurd (h.2.1 rfl) (by decide),
    fun h => absurd h.2.2.1 (by decide), fun h => absurd h.2.2.2 (by decide)⟩

theorem witness_CgbValueErrors :
    (noteReady loud 1 127 127 pp0 ∧ (sqPhaseInc loud 0).isFinite = false ∧
      (0 : Word).toNat + 16 ≤ loud.launch.romSize ∧ (wavePhaseInc loud 0).isFinite = false) ∧
    (noteReady (ready 4) 1 127 127 pp0 ∧ (ready 4).launch.romSize < (1 : Word).toNat + 16) ∧
    (noteReady { ready 4 with mixRate := 0 } 1 127 127 pp0 ∧
      (noisePhaseInc { ready 4 with mixRate := 0 } 0).isFinite = false) :=
  ⟨⟨⟨⟨by decide, by decide⟩, rfl, by decide, by decide⟩, by decide, by decide, by decide⟩,
    ⟨witness_noteReady, by decide⟩, ⟨⟨⟨by decide, by decide⟩, rfl, by decide, by decide⟩, by decide⟩⟩

/-- A configuration of each shape: NONE at the smallest block, and GS1 with its taps. -/
theorem witness_CfgConfigures :
    let s := start []
    s.configured = false ∧ (Instr.cfg 0x0022740F 1).wf = true ∧ mixRateOf s.launch 14 = some 240 ∧ 4 ≤ 240 / 60 ∧
    (0x0022740F#32).extractLsb' 11 4 = 14#4 ∧ (0x0022740F#32).extractLsb' 15 3 = 4#3 ∧
    (0x0022740F#32).extractLsb' 20 5 = 2#5 ∧ (0x0020F40F#32).extractLsb' 15 3 = 1#3 ∧
    (revTapsOf s.launch 1 64 4).isSome = true := by decide

/-- One CONFIG word for each refusal, in their order: 15, revType 5, resamp 3, 0 and 17 tracks, a block of 3, GS2 without taps. -/
theorem witness_CfgRefusesInOrder :
    let s := { start [] with launch := { testLaunch with mixRate14 := some 239 } }
    s.configured = false ∧
    ([0x00227C0F#32, 0x0022F40F#32, 0x002E740F#32, 0x0002740F#32, 0x0112740F#32, 0x0022740F#32].all
      (fun c => (Instr.cfg c 1).wf)) = true ∧
    mixRateOf s.launch ((0x00227C0F#32).extractLsb' 11 4) = none ∧ 4 < ((0x0022F40F#32).extractLsb' 15 3).toNat ∧
    (0x002E740F#32).extractLsb' 18 2 = 3#2 ∧ ((0x0002740F#32).extractLsb' 20 5).toNat = 0 ∧
    16 < ((0x0112740F#32).extractLsb' 20 5).toNat ∧ mixRateOf s.launch 14 = some 239 ∧ (239 : Word).toNat / 60 < 4 ∧
    (0x0021740F#32).extractLsb' 15 3 = 2#3 ∧ revTapsOf (ready 2).launch 2 64 4 = none := by decide

theorem witness_NopAndReset : (holding [sqVoice .sus]).configured = true := by decide

theorem witness_EndedAndGetbufRespond :
    ((ready 4).configured = true ∧ (∀ k < (ready 4).trackLimit, (ready 4).trkFine.getLsbD k = true) ∧ (ready 4).pool = []) ∧
    ((holding [sqVoice .sus]).configured = true ∧ ¬ ∀ v ∈ (holding [sqVoice .sus]).pool, v.eState = .dead) := by decide

theorem witness_RdregResponds :
    ((ready 4).configured = true ∧ (∀ k < (ready 4).trackLimit, (ready 4).trkFine.getLsbD k = true) ∧ (ready 4).pool = []) ∧
    State.reset.configured = false ∧ (11 ≤ (11 : Byte).toNat ∧ (15 : Byte).toNat ≤ 15) ∧ 32 ≤ (32 : Byte).toNat ∧
    (holding [sqVoice .sus]).pool.length < 2 ^ 32 := by decide

theorem witness_SetvolWritesTrkctl :
    trackReady (ready 4) 1 ∧ ((127 : Byte).toNat ≤ 127 ∧ -64 ≤ (0xC0 : Byte).toInt ∧ (0x3F : Byte).toInt ≤ 63) ∧
    (127 < (128 : Byte).toNat ∧ (0xBF : Byte).toInt < -64 ∧ 63 < (0x40 : Byte).toInt) :=
  ⟨witness_trackReady, by decide, by decide⟩

theorem witness_TrkfineWritesItsBit : trackReady (ready 4) 1 := witness_trackReady

theorem witness_ReleaseReleasesSelected :
    trackReady (holding [sqVoice .sus, pcmVoice 0 .rel]) 0 ∧ (127 : Byte).toNat ≤ 127 ∧ 127 < (128 : Byte).toNat :=
  ⟨⟨by decide, by decide⟩, by decide, by decide⟩

theorem witness_SetpitchRepitchesSelected :
    trackReady (holding [pcmVoice 0 .sus]) 0 ∧ 127 < (128 : Byte).toNat ∧
    ∀ v ∈ (holding [pcmVoice 0 .sus]).pool, (v.phaseIncAt (holding [pcmVoice 0 .sus]) 1200).isFinite = true :=
  ⟨⟨by decide, by decide⟩, by decide, by decide⟩

theorem witness_SetpitchRemovesUnpitchable :
    let s := { loud with pool := [sqVoice .sus, pcmVoice 0 .sus] }
    trackReady s 0 ∧ ∃ v ∈ s.pool, v.track = 0 ∧ v.eState ≠ .dead ∧ (v.phaseIncAt s 1200).isFinite = false :=
  ⟨⟨by decide, by decide⟩, by decide⟩

theorem witness_pcmReady (s : State) (h : s = ready 4 ∨ s = holding [pcmVoice 5 .sus] ∨ s = full ∨ s = holding [pcmVoice 9 .sus]) :
    noteReady s 1 127 127 ⟨0, 5, 0⟩ ∧ pcmReady s true ⟨0, 5, 0⟩ 12 midc240 4 4 := by
  rcases h with rfl | rfl | rfl | rfl <;>
    exact ⟨⟨⟨by decide, by decide⟩, rfl, by decide, by decide⟩, by decide, fun _ => by decide, by decide, by decide⟩

theorem witness_NoteonPcmBelowBudget :
    ((ready 4).pool.filter fun v => decide (v.kind = .pcm ∧ v.eState ≠ .dead)).length < ((ready 4).poly.extractLsb' 0 16).toNat ∧
    roomFor (ready 4) :=
  ⟨by decide, fun m h => by cases h; decide⟩

theorem witness_NoteonPcmTakesTheVictim :
    let s := holding [pcmVoice 5 .sus]
    (s.poly.extractLsb' 0 16).toNat ≤ (s.pool.filter fun v => decide (v.kind = .pcm ∧ v.eState ≠ .dead)).length ∧
    ∃ v ∈ s.pool, candidate 5 v :=
  ⟨by decide, pcmVoice 5 .sus, by decide, by decide, by decide, .inr (by decide)⟩

theorem witness_NoteonPcmDropped :
    (let s := holding [pcmVoice 9 .sus]
     (s.poly.extractLsb' 0 16).toNat ≤ (s.pool.filter fun v => decide (v.kind = .pcm ∧ v.eState ≠ .dead)).length ∧
     ∀ v ∈ s.pool, ¬ candidate 5 v) ∧
    ((full.pool.filter fun v => decide (v.kind = .pcm ∧ v.eState ≠ .dead)).length < (full.poly.extractLsb' 0 16).toNat ∧
     ¬ roomFor full) :=
  ⟨⟨by decide, fun v hv h => by
      have : v = pcmVoice 9 .sus := by simpa [holding] using hv
      subst this
      exact h.2.2.elim (by decide) (by decide)⟩,
    ⟨by decide, fun h => absurd (h 3 rfl) (by decide)⟩⟩

theorem witness_PolyphonyBudgetHolds :
    ∃ s t, exec (.noteonPcm 1 true 127 127 adsr0 ⟨0, 5, 0⟩ 12 midc240 4 4) s = .next t ∧ s.pcmCount < t.pcmCount :=
  ⟨ready 4, _, rfl, by decide⟩

theorem witness_CgbNotesCreate :
    noteReady (ready 4) 1 127 127 pp0 ∧ roomFor (ready 4) ∧ (sqPhaseInc (ready 4) 0).isFinite = true ∧
    (wavePhaseInc (ready 4) 0).isFinite = true ∧ (noisePhaseInc (ready 4) 0).isFinite = true ∧
    (0 : Word).toNat + 16 ≤ (ready 4).launch.romSize :=
  ⟨witness_noteReady, witness_NoteonPcmBelowBudget.2, by decide, by decide, by decide, by decide⟩

theorem witness_CgbNoteDroppedWhenPoolFull :
    noteReady full 1 127 127 pp0 ∧ ¬ roomFor full ∧ (sqPhaseInc full 0).isFinite = true ∧
    (wavePhaseInc full 0).isFinite = true ∧ (noisePhaseInc full 0).isFinite = true ∧
    (0 : Word).toNat + 16 ≤ full.launch.romSize :=
  ⟨(witness_pcmReady full (by simp)).1, witness_NoteonPcmDropped.2.2, by decide, by decide, by decide, by decide⟩

/-- A voice in each phase, for EnvelopeArms and PhaseAndLevelAreMonotone. -/
theorem witness_phases :
    [EState.init, .atk, .dec, .sus, .rel, .dead].map (fun e => (sqVoice e).eState) = [.init, .atk, .dec, .sus, .rel, .dead] ∧
    (let v := { sqVoice .dec with envLevel := 255 }; v.eState = .dec ∧ v.adsr.sus.toNat ≤ v.envLevel.toNat) := by decide

theorem witness_ReleaseEnds : ({ sqVoice .rel with envLevel := 255 }).eState = .rel := by decide

theorem witness_AttackLength :
    ∀ a ∈ [(1 : Byte), 254], let v := { sqVoice .atk with adsr := ⟨a, 0, 0, 0⟩ }
      v.eState = .atk ∧ v.envLevel = 0 ∧ 1 ≤ v.adsr.att.toNat ∧ v.adsr.att.toNat ≤ 254 := by decide

/-- A tick that advances and one that does not. -/
theorem witness_TickSetsUpTheRamp :
    ((sqVoice .atk).envInterStep = 0) ∧
    (let v := { pcmVoice 0 .atk with envInterStep := 3 }; v.envInterStep ≠ 0 ∧ v.kind = .pcm) := by decide

theorem witness_PitchLawAtOctaves :
    (F32.ofNat 48000).isFinite = true ∧ (ready 4).launch.noiseRate.lookup 0 = none := by decide

theorem witness_IdentityResampling :
    let v := { sqVoice .sus with source := .wave (Vector.replicate 32 (nibbleValue 7)) }
    v.fpos = F32.zero ∧ v.phaseInc = F32.one ∧ ∀ buf, v.source = .wave buf → ∀ x ∈ buf.toList, ∃ n : BitVec 4, x = nibbleValue n :=
  ⟨rfl, rfl, fun buf h x hx => ⟨7, by
    have : buf = Vector.replicate 32 (nibbleValue 7) := by injection h with h; exact h.symm
    subst this; simpa using hx⟩⟩

/-- Memories that differ just past the last sample, and agree on the samples. -/
theorem witness_PcmReadsOnlyItsSamples :
    let d := pcmData false 0 midc240 0 2
    let t := { ready 4 with mem := Memory.write (ready 4).mem 2 0x7F }
    (∀ k < d.endPos.toNat, (ready 4).memRead (d.base.toNat + k) = t.memRead (d.base.toNat + k)) ∧
    (ready 4).memRead 2 ≠ t.memRead 2 := by decide

theorem witness_PcmWrap :
    (3 < (pcmData true 0 0 0 4).endPos.toNat) ∧
    (let d := pcmData true 0 0 3 4; d.endPos.toNat ≤ 4 ∧ d.loopEnabled = true ∧ d.loopPos.toNat < d.endPos.toNat) ∧
    (let d := pcmData true 0 0 4 4; d.endPos.toNat ≤ 4 ∧ ¬ (d.loopEnabled = true ∧ d.loopPos.toNat < d.endPos.toNat)) := by
  decide

theorem witness_Process :
    let s := holding [pcmVoice 0 .sus, sqVoice .dec]
    s.configured = true ∧ s.samplesInMemory = true := by decide

theorem witness_EndOfStreamReleasesOnce :
    let v := { pcmVoice 0 .sus with ipos := 4 }
    let d := pcmData false 0 midc240 0 4
    v.source = .pcm d ∧ 0 < 1 ∧ ¬ (d.loopEnabled = true ∧ d.loopPos.toNat < d.endPos.toNat) ∧ v.ipos = d.endPos := by decide

theorem witness_NormalReverbFrame :
    (let s := ready 0; let l : RevLine := ⟨List.replicate 4 (F32.one, F32.half), 0⟩
     s.config.extractLsb' 15 3 = 0#3 ∧ l.line.length = s.blockSamples ∧ l.pos = 0) ∧
    (ready 4).config.extractLsb' 15 3 = 4#3 := by decide

theorem witness_TapReverbFrame :
    let s := ready 1
    s.config.extractLsb' 15 3 = 1#3 ∧
    revTapsOf s.launch (s.config.extractLsb' 15 3) (s.config.extractLsb' 4 7) s.blockSamples =
      some [⟨4, F32.half, F32.zero, F32.zero, F32.half⟩, ⟨1, F32.zero, F32.half, F32.half, F32.zero⟩] ∧
    (List.replicate 4 (F32.one, F32.half)).length = s.blockSamples := by decide

theorem witness_ReverbZeroInZeroOut : 3 < 4 ∧ 4 = (ready 1).blockSamples := by decide

theorem witness_NormalTailDecays :
    let s := ready 0
    let l : RevLine := ⟨List.replicate 4 (⟨0x7F7FFFFF⟩, ⟨1⟩), 0⟩
    s.config.extractLsb' 15 3 = 0#3 ∧ l.line.length = s.blockSamples ∧ l.pos = 0 ∧
    ∀ e ∈ l.line, e.1.isFinite = true ∧ e.2.isFinite = true := by decide

/-- The noise clause of SourceValues is met by iterating the step of R204 from `0x7F`. -/
theorem witness_SourceValues_noise :
    ∃ x : Nat → BitVec 15, x 0 = 0x7F#15 ∧
      ∀ j, x (j + 1) = (x j >>> 1) ||| (if (x j).getLsbD 0 = (x j).getLsbD 1 then 0#15 else 0x40#15) :=
  ⟨fun j => Nat.rec 0x7F#15 (fun _ y => (y >>> 1) ||| (if y.getLsbD 0 = y.getLsbD 1 then 0#15 else 0x40#15)) j, rfl, fun _ => rfl⟩

/-- PCM at its last sample and at its end, with a loop and without; a square, a wave and a noise voice. -/
theorem witness_SourceValues :
    (3 < (pcmData false 0 midc240 0 4).endPos.toNat) ∧ ((pcmData true 0 midc240 3 4).endPos.toNat ≤ 4 ∧ loops (pcmData true 0 midc240 3 4)) ∧
    ((pcmData true 0 midc240 4 4).endPos.toNat ≤ 4 ∧ ¬ loops (pcmData true 0 midc240 4 4)) ∧
    (sqVoice .sus).source = .square .sq1 .duty50 ∧ ((-1 : Int) % 32 = ((31 : Fin 32).val : Int)) := by decide

/-- A voice at end of stream and one just before it, and a position that advances by a whole sample. -/
theorem witness_OneOutputSample :
    (let v := { pcmVoice 0 .sus with ipos := 4 }
     let d := pcmData false 0 midc240 0 4
     v.source = .pcm d ∧ ¬ loops d ∧ d.endPos.toNat ≤ v.ipos.toNat) ∧
    (let v := { pcmVoice 0 .sus with ipos := 3 }
     ¬ (pcmData false 0 midc240 0 4).endPos.toNat ≤ v.ipos.toNat) ∧
    (let t := (sqVoice .sus).fpos.add (sqVoice .sus).phaseInc
     t.isFinite = true ∧ t.unsigned = true ∧ t.floorNat = 1) ∧
    [(0 : Nat), 1, 2].map (fun r => ((0x0022740F#32 ||| BitVec.ofNat 32 (r * 0x40000)).extractLsb' 18 2)) = [0#2, 1#2, 2#2] := by decide

theorem witness_InputsNeverChange : ∃ s t, step s = .next t ∧ s ≠ t := witness_AppendedWordsChangeNoStep

/-- A step from a state with the sticky bits set. -/
theorem witness_NothingIsForgotten :
    let s := { withCmd (ready 4) sqNote with status := 0x15, trkErr := 3 }
    s.configured = true ∧ s.drop = true ∧ s.dataErr = true ∧ s.trkErr.getLsbD 1 = true ∧ (after (step s)).cp = 3 := by decide

theorem witness_WhoWritesWhat : ∃ t, exec sqNote (ready 4) = .next t ∧ t.pool ≠ (ready 4).pool :=
  ⟨_, rfl, by decide⟩

theorem witness_StepKeepsRegistersLegal : (withCmd (ready 1) sqNote).registersLegal := by decide

theorem witness_StepKeepsPoolLegal :
    (withCmd (holding [pcmVoice 0 .sus, { sqVoice .dec with envLevel := 255 }]) .process).poolLegal := by decide

theorem witness_StepKeepsPositionsLegal :
    testLaunch.legal = true ∧ (withCmd (holding [pcmVoice 0 .sus]) sqNote).poolLegal ∧
    (withCmd (holding [pcmVoice 0 .sus]) sqNote).positionsLegal := by decide

theorem witness_StepKeepsCgbUnique :
    (withCmd (holding [sqVoice .sus, sqVoice .rel]) sqNote).cgbUnique ∧
    ¬ (holding [sqVoice .sus, sqVoice .atk]).cgbUnique := by decide

theorem witness_NoRunLeavesSampleMemory :
    Reaches (launched testLaunch [] (encode .nop)) (after (step (launched testLaunch [] (encode .nop)))) :=
  .step .refl rfl

end Sys2Proof.Tests
end

section
/-!
PROOFS. The family of spec 30_encoding: illegal headers (R108), the command pointer (R112), reserved operand
bits (R109).
-/

namespace Sys2Proof

/-! ## Zero fields of a word -/

/-- A field of a word is zero exactly when its lower and its upper part are. -/
theorem extractLsb'_add_eq_zero (h : Word) (i n m : Nat) :
    h.extractLsb' i (n + m) = 0 ↔ h.extractLsb' i n = 0 ∧ h.extractLsb' (i + n) m = 0 := by
  simp only [BitVec.eq_of_getLsbD_eq_iff, BitVec.getLsbD_extractLsb', BitVec.ofNat_eq_ofNat, BitVec.getLsbD_zero]
  constructor
  · intro H
    refine ⟨fun k hk => ?_, fun k hk => ?_⟩
    · simpa [hk, show k < n + m by omega] using H k (by omega)
    · simpa [hk, Nat.add_assoc] using H (n + k) (by omega)
  · rintro ⟨hlow, hhigh⟩ k hk
    rcases Nat.lt_or_ge k n with hn | hn
    · simpa [hn, hk] using hlow k hn
    · simpa [hk, show k - n < m by omega, show i + n + (k - n) = i + k by omega] using hhigh (k - n) (by omega)

/-- The masks of R100 on the flag field `f`, as the bits of the word they test. -/
theorem flags_and_eq_zero (h : Word) :
    (h.extractLsb' 16 4 &&& 0xE = 0 ↔ h.extractLsb' 17 3 = 0) ∧
    (h.extractLsb' 16 4 &&& 0xC = 0 ↔ h.extractLsb' 18 2 = 0) ∧
    (h.extractLsb' 16 4 &&& 0x8 = 0 ↔ h.getLsbD 19 = false) := by
  have small : ∀ f : BitVec 4, (f &&& 0xE = 0 ↔ f.extractLsb' 1 3 = 0) ∧
      (f &&& 0xC = 0 ↔ f.extractLsb' 2 2 = 0) ∧ (f &&& 0x8 = 0 ↔ f.getLsbD 3 = false) := by decide
  have he : (h.extractLsb' 16 4).extractLsb' 1 3 = h.extractLsb' 17 3 := by ext k hk; simp; grind
  have hc : (h.extractLsb' 16 4).extractLsb' 2 2 = h.extractLsb' 18 2 := by ext k hk; simp; grind
  simpa [he, hc] using small (h.extractLsb' 16 4)

/-- The unused fields of R100 that reach over several header fields, field by field. -/
theorem unused_fields_eq_zero (h : Word) :
    (h.extractLsb' 0 24 = 0 ↔ headerB h = 0 ∧ headerA h = 0 ∧ h.extractLsb' 16 4 = 0 ∧ headerTrk h = 0) ∧
    (h.extractLsb' 0 16 = 0 ↔ headerB h = 0 ∧ headerA h = 0) ∧
    (h.extractLsb' 8 16 = 0 ↔ headerA h = 0 ∧ h.extractLsb' 16 4 = 0 ∧ headerTrk h = 0) := by
  have hmid : h.extractLsb' 8 16 = 0 ↔ headerA h = 0 ∧ h.extractLsb' 16 4 = 0 ∧ headerTrk h = 0 := by
    rw [extractLsb'_add_eq_zero h 8 8 8, extractLsb'_add_eq_zero h 16 4 4]
    rfl
  refine ⟨?_, extractLsb'_add_eq_zero h 0 8 8, hmid⟩
  rw [extractLsb'_add_eq_zero h 0 8 16, hmid]
  rfl

/-! ## The rows a header selects -/

/-- A row whose mask has the whole opcode byte selects a header field by field. -/
theorem selects_header_iff (op : Opcode) (n : Nat) (p : BitVec 8) (mt mf : BitVec 4) (ma mb : Byte) (h : Word) :
    OpRow.selects ⟨op, n, header p 0 0 0 0, header 0xFF mt mf ma mb⟩ h = true ↔
      h.extractLsb' 24 8 = p ∧ headerTrk h &&& mt = 0 ∧ h.extractLsb' 16 4 &&& mf = 0 ∧
      headerA h &&& ma = 0 ∧ headerB h &&& mb = 0 := by
  have hmask : h &&& header 0xFF mt mf ma mb = header (h.extractLsb' 24 8) (headerTrk h &&& mt)
      (h.extractLsb' 16 4 &&& mf) (headerA h &&& ma) (headerB h &&& mb) := by
    conv_lhs => rw [← header_eta h, header_and]
    congr 1
    exact BitVec.and_allOnes
  simp only [OpRow.selects, beq_iff_eq, hmask, header_inj]

/-- The headers R100 lists: the opcode of a row, and zero in every field the row does not use. -/
def ListedHeader (h : Word) : Prop :=
  (h.extractLsb' 24 8 ∈ [0x00#8, 0x01#8, 0x02#8, 0x30#8, 0x31#8, 0x32#8] ∧ h.extractLsb' 0 24 = 0) ∨
  (h.extractLsb' 24 8 = 0x10#8 ∧ h.extractLsb' 17 3 = 0) ∨
  (h.extractLsb' 24 8 = 0x11#8 ∧ h.getLsbD 19 = false) ∨
  (h.extractLsb' 24 8 = 0x12#8 ∧ h.extractLsb' 16 4 = 0) ∨
  (h.extractLsb' 24 8 = 0x13#8 ∧ h.extractLsb' 17 3 = 0) ∨
  (h.extractLsb' 24 8 = 0x20#8 ∧ h.extractLsb' 17 3 = 0 ∧ h.extractLsb' 0 8 = 0) ∨
  (h.extractLsb' 24 8 = 0x21#8 ∧ h.extractLsb' 16 4 = 0) ∨
  (h.extractLsb' 24 8 = 0x22#8 ∧ h.extractLsb' 18 2 = 0 ∧ h.extractLsb' 0 8 = 0) ∨
  (h.extractLsb' 24 8 = 0x23#8 ∧ h.extractLsb' 17 3 = 0 ∧ h.extractLsb' 0 16 = 0) ∨
  (h.extractLsb' 24 8 = 0x33#8 ∧ h.extractLsb' 8 16 = 0)

/-- A header selects a row exactly when it is listed (R100, R108). -/
theorem headerRow_ne_none_iff (h : Word) : headerRow h ≠ none ↔ ListedHeader h := by
  obtain ⟨hmaskE, hmaskC, hmask8⟩ := flags_and_eq_zero h
  obtain ⟨hall, hab, hmid⟩ := unused_fields_eq_zero h
  have hb : h.extractLsb' 0 8 = 0 ↔ headerB h = 0 := Iff.rfl
  have and_ones4 (x : BitVec 4) : x &&& 0xF = x := BitVec.and_allOnes
  have and_ones8 (x : BitVec 8) : x &&& 0xFF = x := BitVec.and_allOnes
  have and_zero4 (x : BitVec 4) : x &&& 0 = 0 := BitVec.and_zero
  have and_zero8 (x : BitVec 8) : x &&& 0 = 0 := BitVec.and_zero
  have hrows : headerRow h ≠ none ↔ ∃ r ∈ opTable, r.selects h = true := by
    simp [headerRow, List.find?_eq_none]
  rw [hrows, opTable_header]
  simp only [List.mem_cons, List.not_mem_nil, or_false, exists_eq_or_imp, exists_eq_left, selects_header_iff,
    and_ones4, and_ones8, and_zero4, and_zero8, true_and, and_true]
  rw [hmaskE, hmaskC, hmask8]
  simp only [ListedHeader, List.mem_cons, List.not_mem_nil, or_false, hall, hab, hmid, hb, or_and_right]
  exact iff_of_eq (by ac_rfl)

/-! ## What a decoded command is -/

/-- Decoding at a header that selects no row (R108). -/
theorem decode_of_no_row {h : Word} (hr : headerRow h = none) (rest : List Word) : decode (h :: rest) = .illegal := by
  simp only [decode, hr]

/-- Decoding at a header that selects a row: the row's command, if its words are all there (R113). -/
theorem decode_of_row {h : Word} {r : OpRow} (hr : headerRow h = some r) (rest : List Word) :
    decode (h :: rest) =
      if rest.length + 1 < r.words then .truncated else .command (buildInstr r.opcode h rest) r.words := by
  simp only [decode, hr]

/-- Decoding answers illegal exactly when the header selects no row (R108). -/
theorem decode_eq_illegal_iff (h : Word) (rest : List Word) : decode (h :: rest) = .illegal ↔ headerRow h = none := by
  cases hr : headerRow h with
  | none => simp [decode_of_no_row hr]
  | some r =>
    rw [decode_of_row hr]
    split <;> simp

/-- A row builds a command with the row's opcode. -/
@[simp] theorem buildInstr_opcode (op : Opcode) (h : Word) (ops : List Word) : (buildInstr op h ops).opcode = op := by
  cases op <;> rfl

/-- A row the header selects gives the length of its opcode (R90, R100). -/
theorem headerRow_words {h : Word} {r : OpRow} (hr : headerRow h = some r) : r.words = r.opcode.words := by
  have table : ∀ r ∈ opTable, r.words = r.opcode.words := by decide
  exact table r (List.mem_of_find?_eq_some hr)

/-- The length decoded is that of the command's opcode (R90). -/
theorem decode_command_words {ws : List Word} {i : Instr} {n : Nat} (hd : decode ws = .command i n) :
    n = i.opcode.words := by
  cases ws with
  | nil => cases hd
  | cons h rest =>
    cases hr : headerRow h with
    | none =>
      rw [decode_of_no_row hr] at hd
      cases hd
    | some r =>
      rw [decode_of_row hr] at hd
      split at hd
      · cases hd
      · simp only [Decoded.command.injEq] at hd
        obtain ⟨rfl, rfl⟩ := hd
        rw [buildInstr_opcode, headerRow_words hr]

end Sys2Proof

namespace Sys2Proof.Machine

/-! ## Fatal errors -/

/-- Taking a fatal error leads to the state R333 and R337 give, whatever track or length it is taken with. -/
theorem takeError_eq_afterFatal (s : State) {e : ErrSub} (trk : BitVec 4) (n : Nat) (hf : e.kind.fatal = true) :
    s.takeError e trk n = afterFatal s (e.kind.code + e.code * 2 ^ 4) := by
  rw [takeError_fatal s e trk n hf]
  simp [afterFatal, setBit, errCauseWord, hf]

/-- A guarded command whose first failing check is fatal halts with that check's error (R340). -/
theorem guarded_fatal {s : State} {trk : BitVec 4} {n : Nat} {checks : List (Bool × ErrSub)} {effect : State → State}
    {e : ErrSub} (he : firstError checks = some e) (hf : e.kind.fatal = true) :
    guarded s trk n checks effect = .next (afterFatal s (e.kind.code + e.code * 2 ^ 4)) := by
  simp only [guarded, he, takeError_eq_afterFatal s trk n hf]

/-- An illegal header at `cp` halts with ILLOP (R108). -/
theorem step_of_illegal {s : State} (hs : s.halt = false) (hf : s.fetch = .illegal) :
    step s = .next (afterFatal s 0x305) := by
  simp only [step, hs, hf, Bool.false_eq_true, if_false]
  exact congrArg _ (takeError_eq_afterFatal s 0 1 rfl)

/-- Settles O3: the masks of the opcode table, read field by field, select exactly the listed headers. -/
theorem illegalHeadersHalt : Obligations.IllegalHeadersHalt := by
  intro s h rest hs hcmd listed
  have hlisted : decode (h :: rest) ≠ .illegal ↔ listed :=
    (not_congr (decode_eq_illegal_iff h rest)).trans (headerRow_ne_none_iff h)
  refine ⟨hlisted.2, fun hn => step_of_illegal hs ?_⟩
  rw [State.fetch, State.fetchWords, hcmd]
  exact not_not.1 (mt hlisted.1 hn)

/-! ## Reserved operand bits -/

/-- With the configured check passed, a reserved bit is the first failing check, whatever follows (R109, R340). -/
theorem firstError_reserved {s : State} {reservedZero : Bool} (hs : s.configured = true) (hr : reservedZero = false)
    (rest : List (Bool × ErrSub)) :
    firstError (needConfigured s ++ needZero reservedZero ++ rest) = some .rsvd := by
  simp [needConfigured, needZero, firstError_cons, hs, hr]

/-- A NOTEON with a reserved bit of PP set halts with RSVD (R93, R109). -/
theorem noteon_reserved {s : State} {trk : BitVec 4} {n : Nat} {key vel : Byte} {pp : PitchPrio}
    {rest : List (Bool × ErrSub)} {effect : State → State} (hs : s.configured = true) (hwf : pp.wf = false) :
    guarded s trk n (noteonDecode s trk pp ++ noteonKeyVel key vel ++ rest) effect = .next (afterFatal s 0x315) := by
  have herr : firstError (noteonDecode s trk pp ++ noteonKeyVel key vel ++ rest) = some .rsvd := by
    rw [noteonDecode, List.append_assoc, List.append_assoc _ (needTrack s trk)]
    exact firstError_reserved hs hwf _
  exact guarded_fatal herr rfl

/-- SETPITCH with a reserved bit of PITCH set halts with RSVD (R94, R109). -/
theorem execSetpitch_reserved {s : State} {trk : BitVec 4} {anykey : Bool} {key : Byte} {pitch : PitchWord}
    (hs : s.configured = true) (hwf : pitch.wf = false) :
    execSetpitch trk anykey key pitch s = .next (afterFatal s 0x315) := by
  have herr : firstError (needConfigured s ++ needZero (pitch.rsvd == 0) ++ needTrack s trk ++ needKey anykey key) =
      some .rsvd := by
    rw [List.append_assoc _ (needTrack s trk)]
    exact firstError_reserved hs hwf _
  exact guarded_fatal herr rfl

/-- CFG with a reserved bit of CONFIG or POLY set halts with CFGRSVD where it is not yet configured (R109, R241). -/
theorem execCfg_reserved {s : State} {c p : Word} (hs : s.configured = false)
    (hwf : (Instr.cfg c p).wf = false) : execCfg c p s = .next (afterFatal s 0x011) := by
  have hbits : (cfgReserved c != 0 || polyReserved p != 0) = true := by
    simpa [Instr.wf, configWordWf, polyWordWf, cfgReserved, polyReserved, imp_iff_not_or] using hwf
  have herr : firstError (cfgChecks s c p) = some .cfgRsvd := by
    simp only [cfgChecks, firstError_cons, hs, hbits, Bool.false_eq_true, if_false, if_true]
  exact guarded_fatal herr rfl

/-- Settles O10: of the commands with a reserved operand bit, CFG tests it after RECFG and the others after NOTCFG. -/
theorem reservedOperandBitHalts : Obligations.ReservedOperandBitHalts := by
  intro s i hwf
  refine ⟨fun hs hne => ?_, ?_⟩
  · cases i with
    | cfg c p => exact absurd rfl (hne c p)
    | noteonPcm | noteonSq | noteonWave | noteonNoise =>
      rw [exec]
      exact noteon_reserved hs hwf
    | setpitch => exact execSetpitch_reserved hs hwf
    | nop | reset | setvol | release | trkfine | process | ended | getbuf | rdreg => cases hwf
  · rintro hs ⟨c, p, rfl⟩
    exact execCfg_reserved hs hwf

/-! ## HALT under the updates of the state -/

@[simp] theorem advance_halt (s : State) (n : Nat) : (s.advance n).halt = s.halt := rfl

@[simp] theorem cfgEffect_halt (c p : Word) (s : State) : (cfgEffect c p s).halt = s.halt :=
  (setBit_getLsbD s.status 0 1 (by decide)).trans (Bool.or_false _)

/-- The fatal kinds set HALT and no other error touches it (R337). -/
@[simp] theorem takeError_halt (s : State) (e : ErrSub) (trk : BitVec 4) (n : Nat) :
    (s.takeError e trk n).halt = (s.halt || e.kind.fatal) := by
  cases hk : e.kind <;> simp only [State.takeError, hk] <;> exact setBit_getLsbD s.status _ 1 (by decide)

/-- Only a DataError moves `cp` itself (R337 to R339). -/
@[simp] theorem takeError_cp (s : State) (e : ErrSub) (trk : BitVec 4) (n : Nat) :
    (s.takeError e trk n).cp = if e.kind = .data then s.cp + n else s.cp := by
  cases hk : e.kind <;> simp [State.takeError, hk]

/-- A dropped note halts nothing and leaves `cp` to its command (R227, R339). -/
theorem dropNote_moves (s : State) {e : ErrSub} (trk : BitVec 4) (he : e.kind = .resource) :
    (s.dropNote e trk).halt = s.halt ∧ (s.dropNote e trk).cp = s.cp := by
  simp [State.dropNote, he, ErrKind.fatal]

/-- Placing a voice or dropping its note leaves HALT and `cp`. -/
theorem placeVoice_moves (s : State) (v : Voice) : (s.placeVoice v).halt = s.halt ∧ (s.placeVoice v).cp = s.cp := by
  unfold State.placeVoice
  split
  · exact ⟨rfl, rfl⟩
  · exact dropNote_moves _ _ rfl

/-- Admitting a PCM note leaves HALT and `cp`. -/
theorem admitPcm_moves (s : State) (v : Voice) : (s.admitPcm v).halt = s.halt ∧ (s.admitPcm v).cp = s.cp := by
  unfold State.admitPcm
  split
  · exact placeVoice_moves s v
  · split
    · exact dropNote_moves _ _ rfl
    · exact ⟨rfl, rfl⟩

/-- Admitting a CGB note leaves HALT and `cp`. -/
theorem admitCgb_moves (s : State) (v : Voice) : (s.admitCgb v).halt = s.halt ∧ (s.admitCgb v).cp = s.cp :=
  placeVoice_moves (s.cgbPreempt v.track v.kind) v

/-! ## The command pointer -/

/-- How a command of `n` words may leave HALT and `cp` (R112): halted where it began, or running past it. -/
def MovesBy (s t : State) (n : Nat) : Prop :=
  (t.halt = true ∧ t.cp = s.cp) ∨ (t.halt = false ∧ t.cp = s.cp + n)

/-- An update that leaves HALT and `cp`, then the `advance` of its command. -/
theorem advance_movesBy {s t : State} (hs : s.halt = false) (hkeep : t.halt = s.halt ∧ t.cp = s.cp) (n : Nat) :
    MovesBy s (t.advance n) n := by
  obtain ⟨hhalt, hcp⟩ := hkeep
  exact .inr ⟨by simp [hhalt, hs], by simp [hcp]⟩

/-- Taking an error moves `cp` as R112 says, where it does not drop a note: a fatal one halts, a DataError goes on. -/
theorem takeError_movesBy {s : State} (hs : s.halt = false) {e : ErrSub} (trk : BitVec 4) (n : Nat)
    (he : e.kind ≠ .resource) : MovesBy s (s.takeError e trk n) n := by
  unfold MovesBy
  cases hk : e.kind with
  | config | logic => left; simp [hk, ErrKind.fatal]
  | data => right; simp [hk, hs, ErrKind.fatal]
  | resource => exact absurd hk he

/-- A guarded command moves `cp` as R112 says, if its effect does and none of its checks drops a note. -/
theorem guarded_movesBy {s t : State} {trk : BitVec 4} {n : Nat} {checks : List (Bool × ErrSub)} {effect : State → State}
    (hs : s.halt = false) (h : guarded s trk n checks effect = .next t)
    (hchecks : (checks.all fun c => c.2.kind != .resource) = true) (heffect : MovesBy s (effect s) n) :
    MovesBy s t n := by
  obtain ⟨e, hmem, -, rfl⟩ | ⟨-, rfl⟩ := guarded_cases h
  · have he : e.kind ≠ .resource := by simpa using List.all_eq_true.1 hchecks _ hmem
    exact takeError_movesBy hs trk n he
  · exact heffect

/-- SETPITCH moves `cp` past itself, with the DataError PHASE or without (R175). -/
theorem setpitchEffect_movesBy {s : State} (hs : s.halt = false) (trk : BitVec 4) (anykey : Bool) (key : Byte)
    (pitch : BitVec 16) : MovesBy s (setpitchEffect trk anykey key pitch s) 2 := by
  unfold setpitchEffect
  dsimp only
  split
  · exact takeError_movesBy (s := { s with pool := _ }) (e := .phase) hs trk 2 (by decide)
  · exact .inr ⟨hs, rfl⟩

/-- PROCESS moves `cp` as R112 says where it has a next state. -/
theorem execProcess_movesBy {s t : State} (hs : s.halt = false) (h : execProcess s = .next t) : MovesBy s t 1 := by
  unfold execProcess at h
  split at h
  · rename_i e he
    injection h with h
    subst h
    have hmem := firstError_mem he
    simp only [needConfigured, List.mem_singleton, Prod.mk.injEq] at hmem
    exact takeError_movesBy hs 0 1 (by simp [hmem.2, ErrSub.kind])
  · split at h
    · injection h with h
      subst h
      exact .inr ⟨hs, rfl⟩
    · cases h

/-- Every command that has a next state halts where it began or moves `cp` past itself (R112). -/
theorem exec_movesBy {s t : State} (hs : s.halt = false) {i : Instr} (h : exec i s = .next t) :
    MovesBy s t i.opcode.words := by
  cases i with
  | nop =>
    injection h with h
    subst h
    exact .inr ⟨hs, rfl⟩
  | cfg c p => exact guarded_movesBy hs h rfl (.inr ⟨(cfgEffect_halt c p s).trans hs, rfl⟩)
  | noteonPcm =>
    rw [exec] at h
    exact guarded_movesBy hs h rfl (advance_movesBy hs (admitPcm_moves s _) 7)
  | noteonSq | noteonWave | noteonNoise =>
    rw [exec] at h
    exact guarded_movesBy hs h rfl (advance_movesBy hs (admitCgb_moves s _) _)
  | setpitch => exact guarded_movesBy hs h rfl (setpitchEffect_movesBy hs _ _ _ _)
  | process => exact execProcess_movesBy hs h
  | reset | setvol | release | trkfine | ended | getbuf | rdreg =>
    rw [exec] at h
    exact guarded_movesBy hs h rfl (.inr ⟨hs, rfl⟩)

/-- A halted pipeline has no next state (R337). -/
theorem step_ne_next_of_halt {s : State} (hs : s.halt = true) (u : State) : step s ≠ .next u := by
  intro h
  simp [(step_cases h).1] at hs

/-- Settles O8: an illegal header halts where it stands; a whole command moves as `exec_movesBy` says. -/
theorem commandPointerMoves : Obligations.CommandPointerMoves := by
  intro s t h
  obtain ⟨hs, ⟨-, rfl⟩ | ⟨i, n, hf, he⟩⟩ := step_cases h
  · have hhalt : (s.takeError .illOp 0 1).halt = true := by simp [ErrSub.kind, ErrKind.fatal]
    exact .inl ⟨hhalt, rfl, step_ne_next_of_halt hhalt⟩
  · obtain ⟨hhalt, hcp⟩ | ⟨hrun, hcp⟩ := exec_movesBy hs he
    · exact .inl ⟨hhalt, hcp, step_ne_next_of_halt hhalt⟩
    · have hn : n = i.opcode.words := decode_command_words hf
      exact .inr ⟨hrun, i, n, hf, hn, by rw [hcp, hn]⟩

end Sys2Proof.Machine
end

section
/-!
PROOFS. The family of spec 40_envelope: the release (R130, R131), the arms of one envelope step (R122 to R127), the
tick that sets up the volume ramp (R132, R133, R134).
-/

namespace Sys2Proof.Machine

/-! ## Data errors -/

/-- Taking a DataError leads to the state R333 and R338 give. -/
theorem takeError_eq_afterDataError (s : State) {e : ErrSub} (trk : BitVec 4) (n : Nat) (he : e.kind = .data) :
    s.takeError e trk n = afterDataError s e.code trk n := by
  have hcause : errCauseWord e trk = BitVec.ofNat 32 (2 + 16 * e.code + 4096 * trk.toNat) := by
    simp [errCauseWord, he, ErrKind.code, ErrKind.fatal, Nat.mul_comm]
  rw [takeError_data s e trk n he, hcause, setBit_eq_or_twoPow, setBit_eq_or_twoPow]
  rfl

/-- A guarded command whose first failing check is a DataError's takes that error (R338, R340). -/
theorem guarded_data {s : State} {trk : BitVec 4} {n : Nat} {checks : List (Bool × ErrSub)} {effect : State → State}
    {e : ErrSub} (herr : firstError checks = some e) (he : e.kind = .data) :
    guarded s trk n checks effect = .next (afterDataError s e.code trk n) := by
  simp only [guarded, herr, takeError_eq_afterDataError s trk n he]

/-- Checks that pass leave the error to the checks after them (R340). -/
theorem firstError_append {l : List (Bool × ErrSub)} (h : firstError l = none) (rest : List (Bool × ErrSub)) :
    firstError (l ++ rest) = firstError rest := by
  induction l with
  | nil => rfl
  | cons c l ih =>
    obtain ⟨failed, e⟩ := c
    cases failed with
    | true => simp [firstError_cons] at h
    | false => exact ih h

/-- A command whose track is ready passes its decode checks (R336, R340). -/
theorem firstError_of_trackReady {s : State} {trk : BitVec 4} (h : trackReady s trk) :
    firstError (needConfigured s ++ needTrack s trk) = none := by
  obtain ⟨hconf, htrk⟩ := h
  simp [needConfigured, needTrack, firstError_cons, hconf, htrk]

/-! ## Selection and release of a voice -/

/-- A voice is selected when it is live and the track and key hold it (R104). -/
theorem selected_iff_heldBy (v : Voice) (trk : BitVec 4) (anykey : Bool) (key : Byte) :
    v.selected trk anykey key = true ↔ heldBy trk anykey key v := by
  have hkey : v.key.setWidth 8 = key ↔ v.key.toNat = key.toNat := by
    have := v.key.isLt
    rw [← BitVec.toNat_inj, BitVec.toNat_setWidth, Nat.mod_eq_of_lt (by omega)]
  simp [Voice.selected, heldBy, hkey, and_assoc]

theorem releaseVoice_of_beforeRel {v : Voice} (h : v.eState.beforeRel = true) (fast : Bool) :
    releaseVoice fast v = { v with eState := .rel, fastRelease := fast } :=
  if_pos h

/-- In REL a release can only make the rest of it fast (R130). -/
theorem releaseVoice_of_rel {v : Voice} (h : v.eState = .rel) (fast : Bool) :
    releaseVoice fast v = { v with fastRelease := v.fastRelease || fast } := by
  rw [releaseVoice, if_neg (by rw [h]; decide)]
  cases fast with
  | true => rw [if_pos ⟨h, rfl⟩, Bool.or_true]
  | false => rw [if_neg (by simp), Bool.or_false]

/-- RELEASE on a ready track, with a key it need not compare or a legal one, releases the pool (R131). -/
theorem execRelease_of_legal {s : State} {trk : BitVec 4} {anykey : Bool} {key : Byte} (hs : trackReady s trk)
    (hkey : anykey = true ∨ key.toNat ≤ 127) (fast : Bool) :
    execRelease trk fast anykey key s =
      .next { s with pool := releasePool trk fast anykey key s.pool, cp := s.cp + 1 } := by
  have hpass : firstError (needConfigured s ++ needTrack s trk ++ needKey anykey key) = none := by
    rw [firstError_append (firstError_of_trackReady hs)]
    rcases hkey with h | h <;> simp [needKey, firstError_cons, above127, h]
  exact guarded_of_pass (firstError_eq_none.1 hpass)

/-- RELEASE on a ready track with a key above 127 to compare is the DataError KEYVEL (R104, R332). -/
theorem execRelease_keyVel {s : State} {trk : BitVec 4} {key : Byte} (hs : trackReady s trk)
    (hkey : 127 < key.toNat) (fast : Bool) :
    execRelease trk fast false key s = .next (afterDataError s 0x10 trk 1) := by
  have herr : firstError (needConfigured s ++ needTrack s trk ++ needKey false key) = some .keyVel := by
    rw [firstError_append (firstError_of_trackReady hs)]
    simp [needKey, firstError_cons, above127, hkey]
  exact guarded_data herr rfl

/-- Settles O22: the decode checks pass, the key check decides, and each voice is released by its phase. -/
theorem releaseReleasesSelected : Obligations.ReleaseReleasesSelected := by
  intro s trk fast anykey key hs
  refine ⟨?_, fun hkey => ?_⟩
  · rintro rfl hkey
    exact execRelease_keyVel hs hkey fast
  · rw [exec, execRelease_of_legal hs hkey, releasePool]
    congr 3
    funext v
    simp only [selected_iff_heldBy, heldBy]
    cases hphase : v.eState with
    | dead => simp
    | rel => simp [releaseVoice_of_rel hphase, hphase]
    | init | atk | dec | sus => simp [releaseVoice_of_beforeRel, hphase, EState.beforeRel, EState.rank]

/-! ## Levels -/

/-- A product of two bytes, shifted down, is again a byte (R140). -/
theorem byte_mul_div_lt (x y : Byte) : x.toNat * y.toNat / 256 < 256 :=
  Nat.div_lt_of_lt_mul (Nat.mul_lt_mul'' x.isLt y.isLt)

@[simp] theorem scaleLevel_toNat (level factor : Byte) :
    (scaleLevel level factor).toNat = level.toNat * factor.toNat / 256 :=
  Nat.mod_eq_of_lt (byte_mul_div_lt level factor)

@[simp] theorem attackLevel_toNat (level att : Byte) :
    (attackLevel level att).toNat = min (level.toNat + att.toNat) 255 :=
  Nat.mod_eq_of_lt (by omega)

@[simp] theorem decayLevel_toNat (level dec sus : Byte) :
    (decayLevel level dec sus).toNat = max (level.toNat * dec.toNat / 256) sus.toNat :=
  Nat.mod_eq_of_lt (max_lt (byte_mul_div_lt level dec) sus.isLt)

/-- An attack of 255 reaches the top from any level (R123). -/
@[simp] theorem attackLevel_255 (level : Byte) : attackLevel level 255#8 = 255#8 :=
  BitVec.eq_of_toNat_eq (by simp)

/-! ## The arms of one envelope step -/

section arms

variable {v : Voice} (p : Launch)

/-- Arm INIT: the bound 255 on the peak never cuts a byte, so the peak is `att` itself (R122). -/
theorem stepEnvelope_init (h : v.eState = .init) :
    stepEnvelope p v = { v with envLevel := 0, envPeak := v.adsr.att, eState := .atk } := by
  have hpeak : (if v.adsr.att.toNat < 255 then v.adsr.att else 255) = v.adsr.att := by
    split
    · rfl
    · exact BitVec.eq_of_toNat_eq (by have := v.adsr.att.isLt; simp; omega)
  simp only [stepEnvelope, h, stepInit, hpeak]

/-- Arm ATK, the instantaneous attack and the gradual one (R123). -/
theorem stepEnvelope_atk (h : v.eState = .atk) :
    stepEnvelope p v =
      { v with
          envLevel := attackLevel v.envLevel v.adsr.att
          fromEnvLevel := if v.adsr.att = 255 then 255 else v.fromEnvLevel
          eState := if attackLevel v.envLevel v.adsr.att = 255 then .dec else .atk } := by
  simp only [stepEnvelope, h, stepAtk]
  split
  · next hatt => simp [hatt]
  · rfl

/-- Arm DEC (R124). -/
theorem stepEnvelope_dec (h : v.eState = .dec) :
    stepEnvelope p v =
      { v with
          envLevel := decayLevel v.envLevel v.adsr.dec v.adsr.sus
          eState := if (decayLevel v.envLevel v.adsr.dec v.adsr.sus).toNat ≤ v.adsr.sus.toNat then .sus else .dec } := by
  simp only [stepEnvelope, h, stepDec]

/-- Arm SUS (R125). -/
theorem stepEnvelope_sus (h : v.eState = .sus) :
    stepEnvelope p v = { v with envLevel := v.adsr.sus, eState := if v.adsr.sus = 0 then .dead else .sus } := by
  simp only [stepEnvelope, h, stepSus]
  split
  · next hsus => rw [hsus]
  · rw [← h]

/-- Arm REL (R126). -/
theorem stepEnvelope_rel (h : v.eState = .rel) :
    stepEnvelope p v =
      { v with
          envLevel := scaleLevel v.envLevel (releaseRate p v)
          eState := if scaleLevel v.envLevel (releaseRate p v) = 0 then .dead else .rel } := by
  simp only [stepEnvelope, h, stepRel]

/-- A DEAD voice stays as it is (R127). -/
theorem stepEnvelope_dead (h : v.eState = .dead) : stepEnvelope p v = v := by
  simp only [stepEnvelope, h]

/-- The instantaneous step (R120, R123). -/
theorem stepInstant_iff : stepInstant v = true ↔ v.eState = .atk ∧ v.adsr.att = 255 := by
  simp [stepInstant]

/-- What one envelope step writes, in any phase: the phase and the level by its arm, the peak in INIT, and the level
a ramp starts from by an instantaneous attack (R120 to R123). -/
theorem stepEnvelope_writes (v : Voice) :
    stepEnvelope p v =
      { v with
          eState := (stepEnvelope p v).eState
          envLevel := (stepEnvelope p v).envLevel
          fromEnvLevel := if v.eState = .atk ∧ v.adsr.att = 255 then 255 else v.fromEnvLevel
          envPeak := if v.eState = .init then v.adsr.att else v.envPeak } := by
  cases h : v.eState with
  | init => simp [stepEnvelope_init p h]
  | atk => simp [stepEnvelope_atk p h]
  | dec => simp [stepEnvelope_dec p h]
  | sus => simp [stepEnvelope_sus p h]
  | rel => simp [stepEnvelope_rel p h]
  | dead => simp [stepEnvelope_dead p h]

theorem stepEnvelope_fromEnvLevel (v : Voice) :
    (stepEnvelope p v).fromEnvLevel = if v.eState = .atk ∧ v.adsr.att = 255 then 255 else v.fromEnvLevel :=
  congrArg Voice.fromEnvLevel (stepEnvelope_writes p v)

theorem stepEnvelope_envPeak (v : Voice) :
    (stepEnvelope p v).envPeak = if v.eState = .init then v.adsr.att else v.envPeak :=
  congrArg Voice.envPeak (stepEnvelope_writes p v)

/-- One envelope step writes the phase and the levels only (R120). -/
theorem stepEnvelope_frame (v : Voice) :
    stepEnvelope p v =
      { v with
          eState := (stepEnvelope p v).eState
          envLevel := (stepEnvelope p v).envLevel
          fromEnvLevel := (stepEnvelope p v).fromEnvLevel
          envPeak := (stepEnvelope p v).envPeak } := by
  rw [stepEnvelope_fromEnvLevel, stepEnvelope_envPeak]
  exact stepEnvelope_writes p v

end arms

/-- Settles O32: the frame of a step, then each arm from its equation. -/
theorem envelopeArms : Obligations.EnvelopeArms := by
  intro p v
  refine ⟨stepEnvelope_frame p v, fun h => ?peak, fun h => ?fromLevel, fun h => ?init, fun h => ?atk, stepInstant_iff,
    fun h => ?dec, fun h => ?sus, fun h => ?rel, fun h => stepEnvelope_dead p h⟩
  case peak => rw [stepEnvelope_envPeak, if_neg h]
  case fromLevel => rw [stepEnvelope_fromEnvLevel, if_neg fun hatk => h hatk.1]
  case init => simp [stepEnvelope_init p h]
  case atk => rw [stepEnvelope_atk p h]; exact ⟨attackLevel_toNat _ _, rfl, rfl⟩
  case dec => rw [stepEnvelope_dec p h]; exact ⟨decayLevel_toNat _ _ _, rfl⟩
  case sus => rw [stepEnvelope_sus p h]; exact ⟨rfl, rfl⟩
  case rel => rw [stepEnvelope_rel p h]; exact ⟨scaleLevel_toNat _ _, rfl⟩

/-! ## The tick -/

theorem isPcm_iff (v : Voice) : v.isPcm = true ↔ v.kind = .pcm := by
  simp [Voice.isPcm]

/-- When a tick advances the envelope: every fourth one, and each one of a CGB voice at four steps a frame (R132). -/
theorem tickAdvances_iff (s : State) (v : Voice) :
    tickAdvances s v = true ↔ v.envInterStep = 0 ∨ (v.kind ≠ .pcm ∧ s.launch.cgbEnvRate = .four) := by
  simp [tickAdvances, Voice.isPcm, Launch.cgbFour]

/-- The interval a ramp covers: the whole block, or one sub-block of a CGB voice at four steps a frame (R133, R134). -/
theorem rampLength_eq (s : State) (q : Nat) (v : Voice) :
    rampLength s q v = if v.kind = .pcm ∨ s.launch.cgbEnvRate = .one then s.blockSamples
      else (q + 1) * s.blockSamples / 4 - q * s.blockSamples / 4 := by
  cases hrate : s.launch.cgbEnvRate <;> simp [rampLength, Voice.isPcm, Launch.cgbFour, subBound, hrate]

/-- A tick that does not advance only counts (R132, R133). -/
theorem tickEnvelope_of_not_advances {s : State} {v : Voice} (h : ¬ tickAdvances s v = true) (q : Nat) :
    tickEnvelope s q v = { v with envInterStep := v.envInterStep + 1 } := by
  rw [tickEnvelope, if_neg h]

/-- A tick writes the envelope and the volumes only (R133). -/
theorem tickEnvelope_frame (s : State) (q : Nat) (v : Voice) :
    let w := tickEnvelope s q v
    w = { v with
            eState := w.eState, envLevel := w.envLevel, fromEnvLevel := w.fromEnvLevel, envPeak := w.envPeak,
            envInterStep := w.envInterStep, volL := w.volL, volR := w.volR, fromVolL := w.fromVolL,
            fromVolR := w.fromVolR, curL := w.curL, curR := w.curR, stepL := w.stepL, stepR := w.stepR,
            pan := w.pan, fromPan := w.fromPan } := by
  rw [← tickEnvelope_source s v q, ← tickEnvelope_track s v q, ← tickEnvelope_key s v q, ← tickEnvelope_vel s v q,
    ← tickEnvelope_prio s v q, ← tickEnvelope_adsr s v q, ← tickEnvelope_fastRelease s v q,
    ← tickEnvelope_pitch s v q, ← tickEnvelope_phaseInc s v q, ← tickEnvelope_ipos s v q, ← tickEnvelope_fpos s v q]

/-! ### The volumes -/

/-- The PCM volumes of a voice depend on its level, its velocity and its track only (R251). -/
theorem derivePcmVol_congr {v w : Voice} (s : State) (hlevel : v.envLevel = w.envLevel) (hvel : v.vel = w.vel)
    (htrack : v.track = w.track) : derivePcmVol s v = derivePcmVol s w := by
  simp only [derivePcmVol, pcmLevel, hlevel, hvel, htrack]

/-- The CGB volumes of a voice depend on its level, its velocity and its track only (R252). -/
theorem deriveCgbVol_congr {v w : Voice} (s : State) (hlevel : v.envLevel = w.envLevel) (hvel : v.vel = w.vel)
    (htrack : v.track = w.track) : deriveCgbVol s v = deriveCgbVol s w := by
  simp only [deriveCgbVol, cgbLevel, hlevel, hvel, htrack]

/-- The new volumes of a PCM voice, whose pan fields stay (R133). -/
theorem setVolumes_pcm {v : Voice} (s : State) (h : v.kind = .pcm) :
    ((setVolumes s v).volL, (setVolumes s v).volR) = derivePcmVol s v ∧ (setVolumes s v).pan = v.pan := by
  rw [setVolumes, if_pos ((isPcm_iff v).2 h)]
  exact ⟨rfl, rfl⟩

/-- The new pan position and volumes of a CGB voice (R133). -/
theorem setVolumes_cgb {v : Voice} (s : State) (h : v.kind ≠ .pcm) :
    ((setVolumes s v).pan, (setVolumes s v).volL, (setVolumes s v).volR) = deriveCgbVol s v := by
  rw [setVolumes, if_neg (mt (isPcm_iff v).1 h)]

@[simp] theorem applyInstant_fromVolL (v : Voice) (b : Bool) :
    (applyInstant b v).fromVolL = if b = true then v.volL else v.fromVolL := by
  cases b <;> rfl

@[simp] theorem applyInstant_fromVolR (v : Voice) (b : Bool) :
    (applyInstant b v).fromVolR = if b = true then v.volR else v.fromVolR := by
  cases b <;> rfl

/-! ### Latching the old targets -/

/-- Latching changes neither the phase an envelope step leads to nor the level (R133). -/
theorem stepEnvelope_latchFrom (p : Launch) (v : Voice) :
    (stepEnvelope p (latchFrom v)).eState = (stepEnvelope p v).eState ∧
    (stepEnvelope p (latchFrom v)).envLevel = (stepEnvelope p v).envLevel := by
  have hlatch : (latchFrom v).eState = v.eState := rfl
  cases h : v.eState with
  | init => rw [stepEnvelope_init p h, stepEnvelope_init p (hlatch.trans h)]; exact ⟨rfl, rfl⟩
  | atk => rw [stepEnvelope_atk p h, stepEnvelope_atk p (hlatch.trans h)]; exact ⟨rfl, rfl⟩
  | dec => rw [stepEnvelope_dec p h, stepEnvelope_dec p (hlatch.trans h)]; exact ⟨rfl, rfl⟩
  | sus => rw [stepEnvelope_sus p h, stepEnvelope_sus p (hlatch.trans h)]; exact ⟨rfl, rfl⟩
  | rel => rw [stepEnvelope_rel p h, stepEnvelope_rel p (hlatch.trans h)]; exact ⟨rfl, rfl⟩
  | dead => rw [stepEnvelope_dead p h, stepEnvelope_dead p (hlatch.trans h)]; exact ⟨rfl, rfl⟩

/-! ### A tick that advances -/

/-- The voice of an advancing tick before its ramp is set up: the old targets latched, one envelope step made, the new
volumes derived (R133). -/
def tickTargets (s : State) (v : Voice) : Voice := setVolumes s (stepEnvelope s.launch (latchFrom v))

/-- An advancing tick counts and sets up the ramp to its targets (R133). -/
theorem tickEnvelope_of_advances {s : State} {v : Voice} (h : tickAdvances s v = true) (q : Nat) :
    tickEnvelope s q v =
      { startRamp (rampLength s q v) (applyInstant (stepInstant v) (tickTargets s v)) with
          envInterStep := v.envInterStep + 1 } := by
  rw [← tickEnvelope_envInterStep s v q, tickEnvelope, if_pos h]
  rfl

section tickTargets

variable (s : State) (v : Voice)

@[simp] theorem tickTargets_eState : (tickTargets s v).eState = (stepEnvelope s.launch v).eState :=
  (setVolumes_eState s _).trans (stepEnvelope_latchFrom s.launch v).1

@[simp] theorem tickTargets_envLevel : (tickTargets s v).envLevel = (stepEnvelope s.launch v).envLevel :=
  (setVolumes_envLevel s _).trans (stepEnvelope_latchFrom s.launch v).2

@[simp] theorem tickTargets_envPeak :
    (tickTargets s v).envPeak = if v.eState = .init then v.adsr.att else v.envPeak :=
  (setVolumes_envPeak s _).trans (stepEnvelope_envPeak s.launch (latchFrom v))

@[simp] theorem tickTargets_fromEnvLevel :
    (tickTargets s v).fromEnvLevel = if v.eState = .atk ∧ v.adsr.att = 255 then 255 else v.envLevel :=
  (setVolumes_fromEnvLevel s _).trans (stepEnvelope_fromEnvLevel s.launch (latchFrom v))

@[simp] theorem tickTargets_fromVolL : (tickTargets s v).fromVolL = v.volL := by
  simp [tickTargets, latchFrom]

@[simp] theorem tickTargets_fromVolR : (tickTargets s v).fromVolR = v.volR := by
  simp [tickTargets, latchFrom]

@[simp] theorem tickTargets_fromPan :
    (tickTargets s v).fromPan = if v.kind = .pcm then v.fromPan else v.pan := by
  simp [tickTargets, latchFrom, Voice.isPcm]

@[simp] theorem tickTargets_vel : (tickTargets s v).vel = v.vel := by
  simp [tickTargets, latchFrom]

@[simp] theorem tickTargets_track : (tickTargets s v).track = v.track := by
  simp [tickTargets, latchFrom]

/-- An envelope step leaves the kind of a voice, latched or not (R45). -/
theorem stepEnvelope_latchFrom_kind (p : Launch) : (stepEnvelope p (latchFrom v)).kind = v.kind := by
  simp [Voice.kind, latchFrom]

/-- The targets of a PCM voice are the volumes of its new level (R133, R251). -/
theorem tickTargets_pcm {v : Voice} (h : v.kind = .pcm) :
    ((tickTargets s v).volL, (tickTargets s v).volR) = derivePcmVol s (tickTargets s v) ∧
    (tickTargets s v).pan = v.pan := by
  obtain ⟨hvol, hpan⟩ := setVolumes_pcm s ((stepEnvelope_latchFrom_kind v s.launch).trans h)
  refine ⟨hvol.trans (derivePcmVol_congr s ?_ ?_ ?_), hpan.trans (stepEnvelope_pan s.launch (latchFrom v))⟩
  all_goals simp [tickTargets]

/-- The targets of a CGB voice are the pan position and the volumes of its new level (R133, R252). -/
theorem tickTargets_cgb {v : Voice} (h : v.kind ≠ .pcm) :
    ((tickTargets s v).pan, (tickTargets s v).volL, (tickTargets s v).volR) = deriveCgbVol s (tickTargets s v) := by
  have hkind : (stepEnvelope s.launch (latchFrom v)).kind ≠ .pcm := by
    rwa [stepEnvelope_latchFrom_kind]
  refine (setVolumes_cgb s hkind).trans (deriveCgbVol_congr s ?_ ?_ ?_)
  all_goals simp [tickTargets]

end tickTargets

section advancingTick

variable {s : State} {v : Voice} (h : tickAdvances s v = true) (q : Nat)

include h

/-- The phase and the levels an advancing tick leaves (R133). -/
theorem tickEnvelope_levels :
    (tickEnvelope s q v).eState = (stepEnvelope s.launch v).eState ∧
    (tickEnvelope s q v).envLevel = (stepEnvelope s.launch v).envLevel ∧
    (tickEnvelope s q v).envPeak = (if v.eState = .init then v.adsr.att else v.envPeak) ∧
    (tickEnvelope s q v).fromEnvLevel = (if v.eState = .atk ∧ v.adsr.att = 255 then 255 else v.envLevel) := by
  simp [tickEnvelope_of_advances h, startRamp]

/-- A ramp starts from the old targets, or after an instantaneous attack from the new ones (R133). -/
theorem tickEnvelope_fromVol :
    (tickEnvelope s q v).fromVolL =
      (if v.eState = .atk ∧ v.adsr.att = 255 then (tickEnvelope s q v).volL else v.volL) ∧
    (tickEnvelope s q v).fromVolR =
      (if v.eState = .atk ∧ v.adsr.att = 255 then (tickEnvelope s q v).volR else v.volR) := by
  simp [tickEnvelope_of_advances h, startRamp, stepInstant_iff]

/-- The volumes and pan fields an advancing tick leaves in a PCM voice (R133, R251). -/
theorem tickEnvelope_pcm (hk : v.kind = .pcm) :
    ((tickEnvelope s q v).volL, (tickEnvelope s q v).volR) = derivePcmVol s (tickEnvelope s q v) ∧
    (tickEnvelope s q v).pan = v.pan ∧ (tickEnvelope s q v).fromPan = v.fromPan := by
  obtain ⟨hvol, hpan⟩ := tickTargets_pcm s hk
  have hsame : derivePcmVol s (tickEnvelope s q v) = derivePcmVol s (tickTargets s v) := by
    apply derivePcmVol_congr <;> simp [tickEnvelope_of_advances h, startRamp]
  rw [hsame, ← hvol]
  simp [tickEnvelope_of_advances h, startRamp, hpan, hk]

/-- The volumes and pan fields an advancing tick leaves in a CGB voice (R133, R252). -/
theorem tickEnvelope_cgb (hk : v.kind ≠ .pcm) :
    ((tickEnvelope s q v).pan, (tickEnvelope s q v).volL, (tickEnvelope s q v).volR) =
      deriveCgbVol s (tickEnvelope s q v) ∧
    (tickEnvelope s q v).fromPan = v.pan := by
  have hsame : deriveCgbVol s (tickEnvelope s q v) = deriveCgbVol s (tickTargets s v) := by
    apply deriveCgbVol_congr <;> simp [tickEnvelope_of_advances h, startRamp]
  rw [hsame, ← tickTargets_cgb s hk]
  simp [tickEnvelope_of_advances h, startRamp, hk]

/-- The running volumes start at the `from` volumes; each step is an equal share of the way to the targets (R133). -/
theorem tickEnvelope_ramp :
    let w := tickEnvelope s q v
    w.curL = w.fromVolL ∧ w.curR = w.fromVolR ∧
    w.stepL = (w.volL.sub w.fromVolL).div (F32.ofNat (rampLength s q v)) ∧
    w.stepR = (w.volR.sub w.fromVolR).div (F32.ofNat (rampLength s q v)) := by
  rw [tickEnvelope_of_advances h]
  exact ⟨rfl, rfl, rfl, rfl⟩

end advancingTick

/-- Settles O36: an advancing tick steps, derives and sets up its ramp, field by field; any other tick only counts. -/
theorem tickSetsUpTheRamp : Obligations.TickSetsUpTheRamp := by
  intro s q v
  refine ⟨tickEnvelope_envInterStep s v q, fun h => ?advances, fun h => ?counts⟩
  case counts => exact tickEnvelope_of_not_advances (mt (tickAdvances_iff s v).1 h) q
  case advances =>
    have hadv : tickAdvances s v = true := (tickAdvances_iff s v).2 h
    obtain ⟨hphase, hlevel, hpeak, hfromLevel⟩ := tickEnvelope_levels hadv q
    obtain ⟨hfromL, hfromR⟩ := tickEnvelope_fromVol hadv q
    rw [← rampLength_eq s q v]
    exact ⟨tickEnvelope_frame s q v, hphase, hlevel, hpeak, hfromL, hfromR, hfromLevel,
      tickEnvelope_pcm hadv q, tickEnvelope_cgb hadv q, tickEnvelope_ramp hadv q⟩

end Sys2Proof.Machine
end

section
/-!
PROOFS. The family of spec 42_pcm_channel: SETPITCH (R175) and end of stream (R178).
-/

namespace Sys2Proof.Machine

/-! ## The checks of SETPITCH -/

/-- A key that need not be compared, or a legal one, passes the key check (R104). -/
theorem needKey_passes {anykey : Bool} {key : Byte} (hkey : anykey = true ∨ key.toNat ≤ 127) :
    firstError (needKey anykey key) = none := by
  rcases hkey with h | h <;> simp [needKey, firstError_cons, above127, h]

/-- A key above 127 to compare fails it with KEYVEL (R104, R332). -/
theorem needKey_keyVel {key : Byte} (hkey : 127 < key.toNat) : firstError (needKey false key) = some .keyVel := by
  simp [needKey, firstError_cons, above127, hkey]

/-- On a ready track, SETPITCH with its reserved bits zero is decided by the key check (R336, R340). -/
theorem setpitch_firstError {s : State} {trk : BitVec 4} (hs : trackReady s trk) (anykey : Bool) (key : Byte) :
    firstError (needConfigured s ++ needZero ((0 : BitVec 16) == 0) ++ needTrack s trk ++ needKey anykey key) =
      firstError (needKey anykey key) := by
  have hready : firstError (needConfigured s ++ needZero ((0 : BitVec 16) == 0) ++ needTrack s trk) = none := by
    obtain ⟨hconf, htrk⟩ := hs
    simp [needConfigured, needZero, needTrack, firstError_cons, hconf, htrk]
  exact firstError_append hready _

/-- SETPITCH on a ready track with a key above 127 to compare is the DataError KEYVEL (R104, R332). -/
theorem execSetpitch_keyVel {s : State} {trk : BitVec 4} {key : Byte} (hs : trackReady s trk)
    (hkey : 127 < key.toNat) (pitch : BitVec 16) :
    execSetpitch trk false key ⟨0, pitch⟩ s = .next (afterDataError s 0x10 trk 2) :=
  guarded_data ((setpitch_firstError hs false key).trans (needKey_keyVel hkey)) rfl

/-- SETPITCH on a ready track, with a key it need not compare or a legal one, has its effect (R175). -/
theorem execSetpitch_of_legal {s : State} {trk : BitVec 4} {anykey : Bool} {key : Byte} (hs : trackReady s trk)
    (hkey : anykey = true ∨ key.toNat ≤ 127) (pitch : BitVec 16) :
    execSetpitch trk anykey key ⟨0, pitch⟩ s = .next (setpitchEffect trk anykey key pitch s) :=
  guarded_of_pass (firstError_eq_none.1 ((setpitch_firstError hs anykey key).trans (needKey_passes hkey)))

/-! ## The pool under SETPITCH -/

section repitch

variable (s : State) (trk : BitVec 4) (anykey : Bool) (key : Byte) (pitch : BitVec 16)

/-- A selected voice whose new `phaseInc` is not finite: SETPITCH removes it (R175). -/
abbrev Unpitchable (v : Voice) : Prop := heldBy trk anykey key v ∧ (v.phaseIncAt s pitch).isFinite = false

/-- A voice SETPITCH keeps: with the new pitch where it is selected, as it was where it is not (R175). -/
def repitched (v : Voice) : Voice :=
  if heldBy trk anykey key v then { v with pitch := pitch, phaseInc := v.phaseIncAt s pitch } else v

/-- SETPITCH removes the unpitchable voices and re-pitches the others (R175). -/
theorem repitch_eq (v : Voice) :
    repitch s trk anykey key pitch v =
      if Unpitchable s trk anykey key pitch v then none else some (repitched s trk anykey key pitch v) := by
  by_cases hheld : heldBy trk anykey key v
  · rw [repitch, if_pos ((selected_iff_heldBy v trk anykey key).2 hheld), repitched, if_pos hheld]
    by_cases hfin : (v.phaseIncAt s pitch).isFinite = true
    · exact (if_pos hfin).trans (if_neg fun hun => Bool.false_ne_true (hun.2.symm.trans hfin)).symm
    · exact (if_neg hfin).trans (if_pos ⟨hheld, Bool.eq_false_of_not_eq_true hfin⟩).symm
  · rw [repitch, if_neg (mt (selected_iff_heldBy v trk anykey key).1 hheld), repitched, if_neg hheld,
      if_neg fun hun => hheld hun.1]

theorem repitch_isNone_iff (v : Voice) :
    (repitch s trk anykey key pitch v).isNone = true ↔ Unpitchable s trk anykey key pitch v := by
  rw [repitch_eq]
  split
  · next hun => exact iff_of_true rfl hun
  · next hun => exact iff_of_false Bool.false_ne_true hun

/-- The loop of SETPITCH over a pool, as a selection and a map (R175). -/
theorem filterMap_repitch (pool : List Voice) :
    pool.filterMap (repitch s trk anykey key pitch) =
      (pool.filter fun v => decide (¬ Unpitchable s trk anykey key pitch v)).map (repitched s trk anykey key pitch) := by
  rw [← List.filterMap_eq_map, List.filterMap_filter]
  congr 1
  funext v
  rw [repitch_eq]
  by_cases h : Unpitchable s trk anykey key pitch v <;> simp [h]

/-- With no unpitchable voice, SETPITCH re-pitches the pool and moves `cp` (R175). -/
theorem setpitchEffect_of_pitchable (h : ∀ v ∈ s.pool, ¬ Unpitchable s trk anykey key pitch v) :
    setpitchEffect trk anykey key pitch s =
      { s with pool := s.pool.map (repitched s trk anykey key pitch), cp := s.cp + 2 } := by
  have hnone : ¬ s.pool.any (fun v => (repitch s trk anykey key pitch v).isNone) = true := by
    simpa only [List.any_eq_true, repitch_isNone_iff, not_exists, not_and] using h
  have hall : s.pool.filter (fun v => decide (¬ Unpitchable s trk anykey key pitch v)) = s.pool :=
    List.filter_eq_self.2 fun v hv => decide_eq_true (h v hv)
  rw [setpitchEffect, if_neg hnone, filterMap_repitch, hall]
  rfl

/-- With an unpitchable voice, SETPITCH re-pitches the others and takes one DataError PHASE (R175). -/
theorem setpitchEffect_of_unpitchable (h : ∃ v ∈ s.pool, Unpitchable s trk anykey key pitch v) :
    setpitchEffect trk anykey key pitch s = afterDataError
      { s with
          pool := (s.pool.filter fun v => decide (¬ Unpitchable s trk anykey key pitch v)).map
            (repitched s trk anykey key pitch) } 0x15 trk 2 := by
  have hsome : s.pool.any (fun v => (repitch s trk anykey key pitch v).isNone) = true := by
    simpa only [List.any_eq_true, repitch_isNone_iff] using h
  rw [setpitchEffect, if_pos hsome, filterMap_repitch]
  exact takeError_eq_afterDataError _ trk 2 rfl

end repitch

/-- Settles O23: the key check decides, then whether the pool holds an unpitchable voice. -/
theorem setpitchRepitchesSelected : Obligations.SetpitchRepitchesSelected := by
  intro s trk anykey key pitch hs
  refine ⟨?keyVel, fun hkey hfin => ?pitchable, fun hkey hinf => ?unpitchable⟩
  case keyVel =>
    rintro rfl hkey
    exact execSetpitch_keyVel hs hkey pitch
  case pitchable =>
    have hall : ∀ v ∈ s.pool, ¬ Unpitchable s trk anykey key pitch v := by
      rintro v hv ⟨hheld, hnot⟩
      simp [hfin v hv hheld] at hnot
    rw [exec, execSetpitch_of_legal hs hkey, setpitchEffect_of_pitchable s trk anykey key pitch hall]
    rfl
  case unpitchable =>
    rw [exec, execSetpitch_of_legal hs hkey, setpitchEffect_of_unpitchable s trk anykey key pitch hinf]
    rfl

/-! ## End of stream -/

/-- A ramp, its first step taken apart (R246). -/
theorem rampAt_succ_left (cur step : F32) (n : Nat) : rampAt cur step (n + 1) = rampAt (cur.add step) step n := by
  induction n with
  | zero => rfl
  | succ n ih => rw [rampAt, ih, rampAt]

@[simp] theorem afterSample_curL (v : Voice) : (afterSample v).curL = v.curL.add v.stepL := by
  simp [afterSample, stepVolumes]

@[simp] theorem afterSample_curR (v : Voice) : (afterSample v).curR = v.curR.add v.stepR := by
  simp [afterSample, stepVolumes]

@[simp] theorem afterSample_stepL (v : Voice) : (afterSample v).stepL = v.stepL := by
  simp [afterSample, stepVolumes]

@[simp] theorem afterSample_stepR (v : Voice) : (afterSample v).stepR = v.stepR := by
  simp [afterSample, stepVolumes]

/-- The volumes move along their ramps at every output sample (R246). -/
theorem renderVoice_ramps (s : State) (n : Nat) (v : Voice) :
    (renderVoice s n v).2.curL = rampAt v.curL v.stepL n ∧ (renderVoice s n v).2.curR = rampAt v.curR v.stepR n := by
  induction n generalizing v with
  | zero => exact ⟨rfl, rfl⟩
  | succ n ih =>
    simp only [renderVoice, rampAt_succ_left]
    simpa using ih (afterSample v)

/-- A fast release takes a live voice to a fast REL and leaves a DEAD one (R130). -/
theorem releaseVoice_true_phase (v : Voice) :
    (releaseVoice true v).eState = (if v.eState = .dead then v.eState else .rel) ∧
    (releaseVoice true v).fastRelease = (if v.eState = .dead then v.fastRelease else true) := by
  cases h : v.eState with
  | dead => simp [releaseVoice, h, EState.beforeRel, EState.rank]
  | rel => simp [releaseVoice_of_rel h, h]
  | init | atk | dec | sus => simp [releaseVoice_of_beforeRel, h, EState.beforeRel, EState.rank]

/-- A PCM voice that has run past its last sample and plays no loop (R178). -/
structure StreamEnded (v : Voice) (d : PcmData) : Prop where
  source : v.source = .pcm d
  noLoop : ¬ loops d
  past : d.endPos.toNat ≤ v.ipos.toNat

namespace StreamEnded

variable {v : Voice} {d : PcmData} (h : StreamEnded v d)

include h

theorem looping_eq : d.looping = false := by
  simpa [PcmData.looping] using h.noLoop

theorem atEnd : v.atEnd = true := by
  simp [Voice.atEnd, h.source, h.looping_eq, PcmData.len, h.past]

theorem eos_eq : v.eos = d.eos := by
  rw [Voice.eos, h.source]

theorem setEos_eq : v.setEos = { v with source := .pcm { d with eos := true } } := by
  rw [Voice.setEos, h.source]

/-- At end of stream a voice adds `+0.0` times its running volumes (R178, R246). -/
theorem contribution_eq (s : State) : contribution s v = (F32.zero.mul v.curL, F32.zero.mul v.curR) := by
  simp [contribution, outputValue, h.atEnd]

/-- End of stream sets `eos`, whether or not it was set (R178). -/
theorem endStream_source : (endStream v).source = .pcm { d with eos := true } := by
  rw [endStream, h.atEnd, h.eos_eq]
  cases heos : d.eos with
  | false => simp [h.setEos_eq]
  | true => simpa [heos] using h.source.trans (congrArg Source.pcm (by rw [← heos]))

/-- End of stream releases the voice fast where `eos` was not yet set (R178). -/
theorem endStream_phase :
    (endStream v).eState = (if d.eos = true ∨ v.eState = .dead then v.eState else .rel) ∧
    (endStream v).fastRelease = (if d.eos = true ∨ v.eState = .dead then v.fastRelease else true) := by
  rw [endStream, h.atEnd, h.eos_eq]
  cases d.eos with
  | false => simpa [h.setEos_eq] using releaseVoice_true_phase v.setEos
  | true => simp

/-- The position wraps to `endPos` (R173). -/
theorem wrap_eq {i : Nat} (hi : d.endPos.toNat ≤ i) : v.wrap i = d.endPos.toNat := by
  simp [Voice.wrap, h.source, pcmWrap, h.looping_eq, PcmData.len, Nat.not_lt.2 hi]

theorem advanceVoice_ipos : (advanceVoice v).ipos = d.endPos := by
  simp only [advanceVoice, h.wrap_eq (Nat.le_add_right_of_le h.past), BitVec.ofNat_toNat, BitVec.setWidth_eq]

/-- The release and the ramp leave a voice at end of stream, with `eos` set (R178). -/
theorem stepVolumes_endStream : StreamEnded (stepVolumes (endStream v)) { d with eos := true } :=
  ⟨h.endStream_source, h.noLoop, by simpa [stepVolumes] using h.past⟩

/-- An output sample brings a voice at end of stream to `endPos` (R173, R178). -/
theorem afterSample_ipos : (afterSample v).ipos = d.endPos :=
  h.stepVolumes_endStream.advanceVoice_ipos

/-- A voice at end of stream stays there, with `eos` set (R178, R179). -/
theorem afterSample_streamEnded : StreamEnded (afterSample v) { d with eos := true } :=
  ⟨h.endStream_source, h.noLoop, h.afterSample_ipos.symm ▸ Nat.le_refl _⟩

/-- From end of stream on, every contribution is `+0.0` times the volumes of the ramp (R178, R246). -/
theorem renderVoice_contributions (s : State) (n : Nat) :
    (renderVoice s n v).1 = (List.range n).map fun i =>
      (F32.zero.mul (rampAt v.curL v.stepL i), F32.zero.mul (rampAt v.curR v.stepR i)) := by
  induction n generalizing v d with
  | zero => rfl
  | succ n ih =>
    simp only [renderVoice, h.contribution_eq, ih h.afterSample_streamEnded, List.range_succ_eq_map, List.map_cons,
      List.map_map, Function.comp_def, Nat.succ_eq_add_one, rampAt_succ_left, afterSample_curL, afterSample_curR,
      afterSample_stepL, afterSample_stepR]
    rfl

/-- Once `eos` is set, rendering leaves the source, the position and the phase (R178). -/
theorem renderVoice_of_eos (heos : d.eos = true) (hpos : v.ipos = d.endPos) (s : State) (n : Nat) :
    let w := (renderVoice s n v).2
    w.source = .pcm d ∧ w.ipos = d.endPos ∧ w.eState = v.eState ∧ w.fastRelease = v.fastRelease := by
  have hd : { d with eos := true } = d := by rw [← heos]
  induction n generalizing v with
  | zero => exact ⟨h.source, hpos, rfl, rfl⟩
  | succ n ih =>
    obtain ⟨hphase, hfast⟩ := h.endStream_phase
    rw [if_pos (.inl heos)] at hphase hfast
    obtain ⟨hsource, hipos, hstate, hrelease⟩ := ih (hd ▸ h.afterSample_streamEnded) h.afterSample_ipos
    exact ⟨hsource, hipos, hstate.trans hphase, hrelease.trans hfast⟩

/-- Any positive number of output samples leaves `eos` set, `ipos` at `endPos`, and the phase of the one fast release
(R178). -/
theorem renderVoice_succ (s : State) (n : Nat) :
    let w := (renderVoice s (n + 1) v).2
    w.source = .pcm { d with eos := true } ∧ w.ipos = d.endPos ∧
    w.eState = (if d.eos = true ∨ v.eState = .dead then v.eState else .rel) ∧
    w.fastRelease = (if d.eos = true ∨ v.eState = .dead then v.fastRelease else true) := by
  obtain ⟨hphase, hfast⟩ := h.endStream_phase
  obtain ⟨hsource, hipos, hstate, hrelease⟩ := h.afterSample_streamEnded.renderVoice_of_eos rfl h.afterSample_ipos s n
  exact ⟨hsource, hipos, hstate.trans hphase, hrelease.trans hfast⟩

end StreamEnded

/-- Settles O45: the first output sample ends the stream, and the samples after it only go along the ramps. -/
theorem endOfStreamReleasesOnce : Obligations.EndOfStreamReleasesOnce := by
  intro s v d n hsource hn hloop hpast
  have h : StreamEnded v d := ⟨hsource, hloop, hpast⟩
  obtain ⟨m, rfl⟩ := Nat.exists_eq_succ_of_ne_zero hn.ne'
  obtain ⟨hcurL, hcurR⟩ := renderVoice_ramps s (m + 1) v
  obtain ⟨heos, hipos, hphase, hfast⟩ := h.renderVoice_succ s m
  exact ⟨h.renderVoice_contributions s (m + 1), hcurL, hcurR, heos, hipos, renderVoice_envLevel s v (m + 1),
    hphase, hfast⟩

end Sys2Proof.Machine
end

section
/-!
PROOFS. The family of spec 43_cgb_channels: NOTEON.WAVE (R196, R197) with the preemption and the record every CGB note
shares (R224, R231).
-/

namespace Sys2Proof.Machine

/-! ## The checks of a legal note -/

/-- A ready note passes the decode and KEYVEL checks of its command (R98, R336, R340). -/
theorem firstError_of_noteReady {s : State} {trk : BitVec 4} {key vel : Byte} {pp : PitchPrio}
    (h : noteReady s trk key vel pp) : firstError (noteonDecode s trk pp ++ noteonKeyVel key vel) = none := by
  obtain ⟨⟨hconf, htrk⟩, hrsvd, hkey, hvel⟩ := h
  simp [noteonDecode, noteonKeyVel, needConfigured, needZero, needTrack, firstError_cons, above127, hconf, hrsvd,
    Nat.not_le.2 htrk, Nat.not_lt.2 hkey, Nat.not_lt.2 hvel]

/-- A ready note whose own value checks pass has its effect (R340). -/
theorem guarded_of_noteReady {s : State} {trk : BitVec 4} {n : Nat} {key vel : Byte} {pp : PitchPrio}
    {values : List (Bool × ErrSub)} (h : noteReady s trk key vel pp) (hvalues : firstError values = none)
    (effect : State → State) :
    guarded s trk n (noteonDecode s trk pp ++ noteonKeyVel key vel ++ values) effect = .next (effect s) :=
  guarded_of_pass (firstError_eq_none.1 ((firstError_append (firstError_of_noteReady h) values).trans hvalues))

/-- The value checks of NOTEON.WAVE pass where its 16 bytes lie in sample memory and its `phaseInc` is finite (R196). -/
theorem waveChecks_pass {s : State} {waddr : Word} {phaseInc : F32} (hrange : waddr.toNat + 16 ≤ s.launch.romSize)
    (hfin : phaseInc.isFinite = true) :
    firstError [(decide (s.launch.romSize < waddr.toNat + 16), .wavRange), (!phaseInc.isFinite, .phase)] = none := by
  simp [firstError_cons, Nat.not_lt.2 hrange, hfin]

/-! ## The record, the preemption and the place of a note -/

/-- The record of a new voice is the one R231 lists: the low seven bits are the value modulo 128. -/
theorem newVoice_eq_noteVoice : newVoice = noteVoice := rfl

/-- A fast release takes every live voice to a fast REL (R130). -/
theorem releaseVoice_true_of_live {v : Voice} (h : v.eState ≠ .dead) :
    releaseVoice true v = { v with eState := .rel, fastRelease := true } := by
  cases hphase : v.eState with
  | dead => exact absurd hphase h
  | rel => rw [releaseVoice_of_rel hphase, Bool.or_true, ← hphase]
  | init | atk | dec | sus => exact releaseVoice_of_beforeRel (by rw [hphase]; rfl) true

/-- One voice under preemption: fast-released where it is a live one of that track and kind (R224). -/
theorem preemptVoice_eq (trk : BitVec 4) (kind : Kind) (v : Voice) :
    preemptVoice trk kind v =
      if v.track = trk ∧ v.kind = kind ∧ v.eState ≠ .dead then { v with eState := .rel, fastRelease := true } else v := by
  simp only [preemptVoice, Bool.and_eq_true, beq_iff_eq, bne_iff_ne, and_assoc]
  split
  · next h =>
    obtain ⟨-, -, hlive⟩ := h
    exact releaseVoice_true_of_live hlive
  · rfl

/-- `CgbPreempt` changes the pool alone, as R224 says. -/
theorem cgbPreempt_eq (s : State) (trk : BitVec 4) (kind : Kind) :
    s.cgbPreempt trk kind = { s with pool := preempted trk kind s.pool } :=
  congrArg (fun f => { s with pool := s.pool.map f }) (funext (preemptVoice_eq trk kind))

@[simp] theorem preempted_length (trk : BitVec 4) (kind : Kind) (pool : List Voice) :
    (preempted trk kind pool).length = pool.length :=
  List.length_map _

/-- Preemption frees no place: a fast-released voice stays in the pool (R224, R229). -/
theorem roomFor_preempted_iff (s : State) (trk : BitVec 4) (kind : Kind) :
    roomFor { s with pool := preempted trk kind s.pool } ↔ roomFor s := by
  simp [roomFor]

theorem poolHasRoom_iff (s : State) : s.poolHasRoom = true ↔ roomFor s := by
  unfold State.poolHasRoom roomFor
  cases s.launch.poolMax <;> simp

/-- With room in the pool, a CGB note preempts and its voice goes to the end of the pool (R224, R229, R231). -/
theorem admitCgb_of_room {s : State} (hroom : roomFor s) (v : Voice) :
    s.admitCgb v = { s with pool := preempted v.track v.kind s.pool ++ [v] } := by
  have hplace : (s.cgbPreempt v.track v.kind).poolHasRoom = true := by
    rw [poolHasRoom_iff, cgbPreempt_eq, roomFor_preempted_iff]
    exact hroom
  rw [State.admitCgb, State.placeVoice, if_pos hplace, cgbPreempt_eq]
  rfl

/-! ## The waveform -/

/-- `Unpack` puts the high nibble of byte `j` at `2j` and its low nibble at `2j + 1` (R74, R197). -/
theorem unpackWave_getElem (s : State) (waddr : Word) (j : Nat) (h : j < 16) :
    (unpackWave s waddr)[2 * j] = nibbleValue ((s.memRead (waddr.toNat + j)).extractLsb' 4 4) ∧
    (unpackWave s waddr)[2 * j + 1] = nibbleValue ((s.memRead (waddr.toNat + j)).extractLsb' 0 4) := by
  have heven : 2 * j / 2 = j := by omega
  have hodd : (2 * j + 1) / 2 = j ∧ (2 * j + 1) % 2 = 1 := by omega
  simp [unpackWave, waveNibble, heven, hodd]

/-- A legal NOTEON.WAVE with room in the pool, with the waveform it unpacks (R196, R224, R231). -/
theorem execNoteonWave_of_room {s : State} {trk : BitVec 4} {key vel : Byte} {pp : PitchPrio} {waddr : Word}
    (hs : noteReady s trk key vel pp) (hrange : waddr.toNat + 16 ≤ s.launch.romSize)
    (hfin : (wavePhaseInc s pp.pitch).isFinite = true) (hroom : roomFor s) (adsr : Adsr) :
    execNoteonWave trk key vel adsr pp waddr s = .next
      { s with
          pool := preempted trk .wave s.pool ++
            [noteVoice (.wave (unpackWave s waddr)) trk key vel adsr pp (wavePhaseInc s pp.pitch)]
          cp := s.cp + 4 } := by
  rw [execNoteonWave, guarded_of_noteReady hs (waveChecks_pass hrange hfin), admitCgb_of_room hroom,
    newVoice_eq_noteVoice]
  rfl

/-- Settles O29: the checks pass, the preemption leaves the room there was, and the waveform is the one `Unpack` reads. -/
theorem noteonWavePreemptsAndCreates : Obligations.NoteonWavePreemptsAndCreates := by
  intro s trk key vel adsr pp waddr hs hrange hfin hroom
  refine ⟨unpackWave s waddr, unpackWave_getElem s waddr, ?_⟩
  rw [exec, execNoteonWave_of_room hs hrange hfin hroom]

end Sys2Proof.Machine
end

section
/-!
PROOFS. The family of spec 44_voice_allocation: the victim of NOTEON.PCM at the budget (R226, R228) and its dropped note
(R227, R229).
-/

namespace Sys2Proof.Machine

/-! ## The victim order -/

theorem evictable_iff (prio : Byte) (v : Voice) : v.evictable prio = true ↔ candidate prio v := by
  simp [Voice.evictable, candidate, isPcm_iff, and_assoc]

theorem goesBefore_iff (x y : Voice) :
    x.goesBefore y = true ↔
      (x.eState = .rel ∧ y.eState ≠ .rel) ∨
      ((x.eState = .rel ↔ y.eState = .rel) ∧ x.prio.toNat < y.prio.toNat) := by
  by_cases hx : x.eState = .rel <;> by_cases hy : y.eState = .rel <;> simp [Voice.goesBefore, hx, hy]

/-- Against an older voice, the tests on phase and priority decide alone (R228). -/
theorem victimBefore_older_iff {i j : Nat} (h : j < i) (x y : Voice) :
    victimBefore i x j y ↔ x.goesBefore y = true := by
  simp [victimBefore, goesBefore_iff, Nat.not_lt_of_gt h]

/-- Against a younger voice, a tie in phase and priority is enough (R228). -/
theorem victimBefore_younger_iff {i j : Nat} (h : i < j) (x y : Voice) :
    victimBefore i x j y ↔ y.goesBefore x = false := by
  rw [← Bool.not_eq_true, goesBefore_iff, victimBefore]
  by_cases hx : x.eState = .rel <;> by_cases hy : y.eState = .rel <;> simp [hx, hy] <;> omega

/-- Only the order of the two places counts (R228). -/
theorem victimBefore_succ_iff (i j : Nat) (x y : Voice) :
    victimBefore (i + 1) x (j + 1) y ↔ victimBefore i x j y := by
  simp [victimBefore]

theorem victimBefore_trans {i j k : Nat} {x y z : Voice} (hxy : victimBefore i x j y) (hyz : victimBefore j y k z) :
    victimBefore i x k z := by
  rcases hxy with ⟨hx, hy⟩ | ⟨hxyRel, hxyPrio⟩ <;> rcases hyz with ⟨hy', hz⟩ | ⟨hyzRel, hyzPrio⟩
  · exact .inl ⟨hx, hz⟩
  · exact .inl ⟨hx, mt hyzRel.2 hy⟩
  · exact .inl ⟨hxyRel.2 hy', hz⟩
  · exact .inr ⟨hxyRel.trans hyzRel, by omega⟩

/-! ## The search for a victim -/

/-- The search fails exactly when no voice is a candidate (R226). -/
theorem findVictim_eq_none_iff (prio : Byte) (pool : List Voice) :
    findVictim prio pool = none ↔ ∀ v ∈ pool, ¬ candidate prio v := by
  simp only [findVictim_eq_none, ← evictable_iff, Bool.not_eq_true]

theorem exists_victim {prio : Byte} {pool : List Voice} (h : ∃ v ∈ pool, candidate prio v) :
    ∃ i w, findVictim prio pool = some (i, w) := by
  have hsome : findVictim prio pool ≠ none := by
    simpa [findVictim_eq_none_iff] using h
  obtain ⟨⟨i, w⟩, hvictim⟩ := Option.ne_none_iff_exists'.1 hsome
  exact ⟨i, w, hvictim⟩

/-- The victim is the head, where the victim of the tail does not go before it, or the victim of the tail, where it goes
before a head that is a candidate (R228). -/
theorem findVictim_cons {prio : Byte} {v w : Voice} {vs : List Voice} {i : Nat}
    (h : findVictim prio (v :: vs) = some (i, w)) :
    (i = 0 ∧ w = v ∧ ∀ k u, findVictim prio vs = some (k, u) → u.goesBefore v = false) ∨
    ∃ k, i = k + 1 ∧ findVictim prio vs = some (k, w) ∧ (candidate prio v → w.goesBefore v = true) := by
  rw [findVictim] at h
  cases hvs : findVictim prio vs with
  | none =>
    simp only [hvs, Option.ite_none_right_eq_some, Option.some.injEq, Prod.mk.injEq] at h
    obtain ⟨-, rfl, rfl⟩ := h
    exact .inl ⟨rfl, rfl, by simp⟩
  | some best =>
    obtain ⟨k, u⟩ := best
    simp only [hvs] at h
    split at h
    · next hhead =>
      obtain ⟨-, hnot⟩ : _ ∧ u.goesBefore v = false := by simpa using hhead
      simp only [Option.some.injEq, Prod.mk.injEq] at h ⊢
      obtain ⟨rfl, rfl⟩ := h
      exact .inl ⟨rfl, rfl, by rintro _ _ ⟨rfl, rfl⟩; exact hnot⟩
    · next htail =>
      simp only [Option.some.injEq, Prod.mk.injEq] at h
      obtain ⟨rfl, rfl⟩ := h
      exact .inr ⟨k, rfl, rfl, by simpa [evictable_iff] using htail⟩

/-- The victim comes before every other candidate of the pool (R228). -/
theorem findVictim_first {prio : Byte} {pool : List Voice} {i : Nat} {w : Voice}
    (h : findVictim prio pool = some (i, w)) {j : Nat} {x : Voice} (hx : pool[j]? = some x) (hc : candidate prio x)
    (hne : j ≠ i) : victimBefore i w j x := by
  induction pool generalizing i w j with
  | nil => cases h
  | cons v vs ih =>
    rcases findVictim_cons h with ⟨rfl, rfl, hhead⟩ | ⟨k, rfl, hvs, htail⟩
    · obtain ⟨l, rfl⟩ := Nat.exists_eq_succ_of_ne_zero hne
      rw [Nat.succ_eq_add_one, List.getElem?_cons_succ] at hx
      obtain ⟨k, u, hvs⟩ := exists_victim ⟨x, List.mem_of_getElem? hx, hc⟩
      have hwu : victimBefore 0 w (k + 1) u := (victimBefore_younger_iff k.succ_pos w u).2 (hhead k u hvs)
      by_cases hlk : l = k
      · subst hlk
        obtain ⟨hu, -⟩ := findVictim_spec hvs
        obtain rfl : u = x := Option.some.inj (hu.symm.trans hx)
        exact hwu
      · exact victimBefore_trans hwu ((victimBefore_succ_iff k l u x).2 (ih hvs hx hlk))
    · cases j with
      | zero =>
        obtain rfl : v = x := Option.some.inj hx
        exact (victimBefore_older_iff k.succ_pos w v).2 (htail hc)
      | succ l => exact (victimBefore_succ_iff k l w x).2 (ih hvs hx (mt (congrArg Nat.succ) hne))

/-! ## What admission does with a note -/

/-- The live PCM voices the budget counts (R225). -/
theorem pcmCount_eq (s : State) :
    s.pcmCount = (s.pool.filter fun v => decide (v.kind = .pcm ∧ v.eState ≠ .dead)).length := by
  rw [State.pcmCount, List.countP_eq_length_filter]
  congr 2
  funext v
  rw [Bool.eq_iff_iff]
  simp [isPcm_iff]

/-- A dropped note of a command of `n` words leads to the state R227 and R333 give. -/
theorem dropNote_advance (s : State) {e : ErrSub} (trk : BitVec 4) (n : Nat) (he : e.kind = .resource) :
    (s.dropNote e trk).advance n = afterDrop s e.code trk n := by
  have hcause : errCauseWord e trk = BitVec.ofNat 32 (4 + 16 * e.code + 4096 * trk.toNat) := by
    simp [errCauseWord, he, ErrKind.code, ErrKind.fatal, Nat.mul_comm]
  rw [State.dropNote, takeError_resource s e trk 0 he, hcause, setBit_eq_or_twoPow]
  rfl

/-- A full pool drops the note with POOLFULL (R229). -/
theorem placeVoice_of_full {s : State} (hfull : ¬ roomFor s) (v : Voice) :
    s.placeVoice v = s.dropNote .poolFull v.track := by
  rw [State.placeVoice, if_neg (mt (poolHasRoom_iff s).1 hfull)]

/-- Below the budget no voice is removed (R226). -/
theorem admitPcm_of_below_budget {s : State} (h : s.pcmCount < polyLimit s.poly) (v : Voice) :
    s.admitPcm v = s.placeVoice v :=
  if_pos h

/-- At the budget the victim's place in the pool is freed, and the voice goes to its end (R226, R231). -/
theorem admitPcm_of_victim {s : State} (h : polyLimit s.poly ≤ s.pcmCount) {v w : Voice} {i : Nat}
    (hvictim : findVictim v.prio s.pool = some (i, w)) :
    s.admitPcm v = { s with pool := s.pool.eraseIdx i ++ [v] } := by
  rw [State.admitPcm, if_neg (Nat.not_lt.2 h), hvictim]
  rfl

/-- At the budget and without a candidate, the note is dropped with POLY (R226). -/
theorem admitPcm_of_no_victim {s : State} (h : polyLimit s.poly ≤ s.pcmCount) {v : Voice}
    (hnone : findVictim v.prio s.pool = none) : s.admitPcm v = s.dropNote .poly v.track := by
  rw [State.admitPcm, if_neg (Nat.not_lt.2 h), hnone]

/-! ## NOTEON.PCM -/

/-- The value checks of a legal NOTEON.PCM pass (R170). -/
theorem pcmChecks_pass {s : State} {l : Bool} {pp : PitchPrio} {base midc loopPos endPos : Word}
    (h : pcmReady s l pp base midc loopPos endPos) : firstError (pcmChecks s l pp base midc loopPos endPos) = none := by
  obtain ⟨hmidc, hloop, hrange, hfin⟩ := h
  have hinv : (l && decide (endPos.toNat < loopPos.toNat)) = false := by
    simpa using hloop
  simp [pcmChecks, firstError_cons, hmidc, hinv, Nat.not_lt.2 hrange, hfin]

/-- A legal NOTEON.PCM asks for the admission of its voice and goes on (R170, R226). -/
theorem exec_noteonPcm_of_ready {s : State} {trk : BitVec 4} {l : Bool} {key vel : Byte} {pp : PitchPrio}
    {base midc loopPos endPos : Word} (hs : noteReady s trk key vel pp)
    (hvalues : pcmReady s l pp base midc loopPos endPos) (adsr : Adsr) :
    exec (.noteonPcm trk l key vel adsr pp base midc loopPos endPos) s =
      .next ((s.admitPcm (pcmNote s trk l key vel adsr pp base midc loopPos endPos)).advance 7) := by
  rw [exec, execNoteonPcm, guarded_of_noteReady hs (pcmChecks_pass hvalues), newVoice_eq_noteVoice]
  rfl

/-- Settles O25: at the budget the search finds a victim, which stands before every other candidate. -/
theorem noteonPcmTakesTheVictim : Obligations.NoteonPcmTakesTheVictim := by
  intro s trk l key vel adsr pp base midc loopPos endPos hs hvalues hbudget hcandidate
  rw [← pcmCount_eq] at hbudget
  obtain ⟨i, w, hvictim⟩ := exists_victim hcandidate
  obtain ⟨hplace, hevictable⟩ := findVictim_spec hvictim
  refine ⟨i, w, hplace, (evictable_iff pp.prio w).1 hevictable, fun j x => findVictim_first hvictim, ?_⟩
  rw [exec_noteonPcm_of_ready hs hvalues, admitPcm_of_victim hbudget hvictim]
  rfl

/-- Settles O26: without a candidate the search finds no victim, and below the budget the full pool decides. -/
theorem noteonPcmDropped : Obligations.NoteonPcmDropped := by
  intro s trk l key vel adsr pp base midc loopPos endPos hs hvalues
  simp only [← pcmCount_eq]
  refine ⟨fun hbudget hnone => ?poly, fun hbelow hfull => ?poolFull⟩
  case poly =>
    rw [exec_noteonPcm_of_ready hs hvalues,
      admitPcm_of_no_victim hbudget ((findVictim_eq_none_iff pp.prio s.pool).2 hnone), dropNote_advance s _ 7 rfl]
    rfl
  case poolFull =>
    rw [exec_noteonPcm_of_ready hs hvalues, admitPcm_of_below_budget hbelow, placeVoice_of_full hfull,
      dropNote_advance s _ 7 rfl]
    rfl

end Sys2Proof.Machine
end

section
/-!
PROOFS. The family of spec 45_stream_generator: PROCESS voice by voice and sum by sum (R244 to R249), SETVOL (R250), the
volumes of a voice (R251, R252), TRKFINE (R259), and the system commands (R240, R242, R260 to R262).
-/

namespace Sys2Proof.Machine

/-! ## A voice over the sub-blocks of a frame -/

/-- What one voice does in the first `q` sub-blocks of a frame: its contributions so far, and itself after them (R245). -/
def voiceUpTo (s : State) : Nat → Voice → List Stereo × Voice
  | 0, v => ([], v)
  | q + 1, v =>
    let a := voiceUpTo s q v
    let b := voiceSubBlock s a.2 q
    (a.1 ++ b.1, b.2)

/-- A whole frame is four sub-blocks (R245). -/
theorem voiceUpTo_four (s : State) : voiceUpTo s 4 = voiceFrame s := rfl

theorem voiceUpTo_succ_snd (s : State) (q : Nat) (v : Voice) :
    (voiceUpTo s (q + 1) v).2 = (voiceSubBlock s (voiceUpTo s q v).2 q).2 := rfl

theorem subBound_mono (b q : Nat) : subBound b q ≤ subBound b (q + 1) :=
  Nat.div_le_div_right (Nat.mul_le_mul_right b q.le_succ)

/-- The fourth sub-block ends with the block (R12). -/
@[simp] theorem subBound_four (b : Nat) : subBound b 4 = b :=
  Nat.mul_div_cancel_left b (by decide)

@[simp] theorem voiceSubBlock_track (s : State) (v : Voice) (q : Nat) : (voiceSubBlock s v q).2.track = v.track := by
  simp [voiceSubBlock]

@[simp] theorem voiceUpTo_track (s : State) (q : Nat) (v : Voice) : (voiceUpTo s q v).2.track = v.track := by
  induction q with
  | zero => rfl
  | succ q ih => rw [voiceUpTo_succ_snd, voiceSubBlock_track, ih]

/-- One contribution for each output index of the sub-blocks (R12, R246). -/
@[simp] theorem voiceUpTo_length (s : State) (q : Nat) (v : Voice) :
    (voiceUpTo s q v).1.length = subBound s.blockSamples q := by
  induction q with
  | zero => simp [voiceUpTo, subBound]
  | succ q ih =>
    have hmono := subBound_mono s.blockSamples q
    simp only [voiceUpTo, voiceSubBlock, List.length_append, ih, renderVoice_length]
    omega

/-- A sub-block leaves the contributions of the sub-blocks before it. -/
theorem voiceUpTo_succ_getD_of_lt {s : State} {q i : Nat} (h : i < subBound s.blockSamples q) (v : Voice) :
    (voiceUpTo s (q + 1) v).1.getD i silence = (voiceUpTo s q v).1.getD i silence :=
  List.getD_append _ _ _ _ (by simpa using h)

/-- The contributions of a sub-block begin at its first index. -/
theorem voiceUpTo_succ_getD_of_le {s : State} {q i : Nat} (h : subBound s.blockSamples q ≤ i) (v : Voice) :
    (voiceUpTo s (q + 1) v).1.getD i silence =
      (voiceSubBlock s (voiceUpTo s q v).2 q).1.getD (i - subBound s.blockSamples q) silence := by
  rw [voiceUpTo, List.getD_append_right _ _ _ _ (by simpa using h), voiceUpTo_length]

/-! ## The tracks' buffers -/

/-- The sum from `+0.0` of the contributions at one output index of a track's voices, in pool order (R246). -/
def mixedAt (s : State) (contributions : Voice → List Stereo) (t i : Nat) : Stereo :=
  (s.pool.filter fun v => decide (v.track.toNat = t)).foldl
    (fun acc v => addStereo acc ((contributions v).getD i silence)) silence

/-- A track's buffer after the first `q` sub-blocks: the sums where they reach, `+0.0` beyond (R245, R246). -/
def mixedUpTo (s : State) (q t : Nat) : List Stereo :=
  (List.range s.blockSamples).map fun i =>
    if i < subBound s.blockSamples q then mixedAt s (fun v => (voiceUpTo s q v).1) t i else silence

/-- Before the first sub-block the buffers are the zeroed ones (R245). -/
theorem map_mixedUpTo_zero (s : State) : (List.range s.trackLimit).map (mixedUpTo s 0) = zeroBuffers s := by
  have hzero : mixedUpTo s 0 = fun _ => List.replicate s.blockSamples silence := by
    funext t
    simp [mixedUpTo, subBound, List.map_const']
  rw [hzero, List.map_const', List.length_range, zeroBuffers]

/-- After the fourth, a track's buffer is the sum of its voices over the whole frame (R246). -/
theorem mixedUpTo_four (s : State) (t : Nat) : mixedUpTo s 4 t = mixedTrack s t := by
  refine List.map_congr_left fun i hi => ?_
  rw [subBound_four, if_pos (List.mem_range.1 hi), voiceUpTo_four]
  rfl

/-- Each track's buffer is modified by the voices of that track alone, in their order (R246). -/
theorem foldl_modify_track (f : Voice → List Stereo → List Stereo) (vs : List Voice) (bufs : List (List Stereo))
    (t : Nat) :
    (vs.foldl (fun bs v => bs.modify v.track.toNat (f v)) bufs)[t]? =
      bufs[t]?.map ((vs.filter fun v => decide (v.track.toNat = t)).foldl fun b v => f v b) := by
  induction vs generalizing bufs with
  | nil => simp
  | cons v vs ih =>
    rw [List.foldl_cons, ih, List.getElem?_modify]
    by_cases htrack : v.track.toNat = t
    · simp [htrack, Function.comp_def]
    · simp [htrack]

/-- Voices that contribute `n` samples from index `lo` on are summed there in their order, and change no other index
(R246). -/
theorem foldl_mixInto_getElem? {contributions : Voice → List Stereo} {n : Nat}
    (hlen : ∀ v, (contributions v).length = n) (lo : Nat) (vs : List Voice) (buf : List Stereo) (i : Nat) :
    (vs.foldl (fun b v => mixInto lo (contributions v) b) buf)[i]? = buf[i]?.map fun x =>
      if lo ≤ i ∧ i < lo + n then vs.foldl (fun acc v => addStereo acc ((contributions v).getD (i - lo) silence)) x
      else x := by
  induction vs generalizing buf with
  | nil => simp
  | cons v vs ih =>
    rw [List.foldl_cons, ih, mixInto_getElem?, Option.map_map]
    congr 1
    funext x
    by_cases hlo : lo ≤ i
    · by_cases hhi : i < lo + n
      · have hin : i - lo < (contributions v).length := by rw [hlen]; omega
        simp [hlo, hhi, hin]
      · have hout : (contributions v).length ≤ i - lo := by rw [hlen]; omega
        simp [hlo, hhi, hout]
    · simp [hlo]

/-- Sub-block `q` takes a track's buffer from its first `q` sub-blocks to its first `q + 1` (R245, R246). -/
theorem foldl_mixInto_mixedUpTo (s : State) (q t : Nat) :
    (s.pool.filter fun v => decide (v.track.toNat = t)).foldl
        (fun b v => mixInto (subBound s.blockSamples q) (voiceSubBlock s (voiceUpTo s q v).2 q).1 b) (mixedUpTo s q t) =
      mixedUpTo s (q + 1) t := by
  have hmono := subBound_mono s.blockSamples q
  have hlen : ∀ v, (voiceSubBlock s (voiceUpTo s q v).2 q).1.length =
      subBound s.blockSamples (q + 1) - subBound s.blockSamples q := fun v => renderVoice_length _ _ _
  refine List.ext_getElem? fun i => ?_
  rw [foldl_mixInto_getElem? hlen, mixedUpTo, mixedUpTo, List.getElem?_map, List.getElem?_map, Option.map_map]
  rcases Nat.lt_or_ge i s.blockSamples with hi | hi
  · rw [List.getElem?_range hi, Option.map_some, Option.map_some, Function.comp_apply]
    congr 1
    rcases Nat.lt_or_ge i (subBound s.blockSamples q) with hq | hq
    · have hbefore : ¬ (subBound s.blockSamples q ≤ i ∧ i < subBound s.blockSamples q +
          (subBound s.blockSamples (q + 1) - subBound s.blockSamples q)) := by omega
      rw [if_neg hbefore, if_pos hq, if_pos (hq.trans_le hmono)]
      simp only [mixedAt, voiceUpTo_succ_getD_of_lt hq]
    · rw [if_neg (Nat.not_lt.2 hq)]
      simp only [mixedAt, voiceUpTo_succ_getD_of_le hq]
      exact if_congr (by omega) rfl rfl
  · rw [List.getElem?_eq_none (by simpa using hi)]
    rfl

/-- The loops over the pool and the sub-blocks, taken voice by voice: after the first `q` sub-blocks every voice is where
it would be by itself, and every track's buffer holds the sums of its own voices (R245, R246). -/
theorem subBlock_voiceUpTo (s : State) (q : Nat) :
    subBlock s (s.pool.map fun v => (voiceUpTo s q v).2, (List.range s.trackLimit).map (mixedUpTo s q)) q =
      (s.pool.map fun v => (voiceUpTo s (q + 1) v).2, (List.range s.trackLimit).map (mixedUpTo s (q + 1))) := by
  refine Prod.ext ?pool ?buffers
  case pool => simp only [subBlock_fst, List.map_map]; rfl
  case buffers =>
    refine List.ext_getElem? fun t => ?_
    rw [subBlock, renderPool_snd, List.map_map, List.foldl_map]
    simp only [Function.comp_apply, tickEnvelope_track, voiceUpTo_track]
    rw [foldl_modify_track fun v => mixInto _ (renderVoice s _ (tickEnvelope s q (voiceUpTo s q v).2)).1,
      List.getElem?_map, List.getElem?_map, Option.map_map]
    rcases Nat.lt_or_ge t s.trackLimit with ht | ht
    · rw [List.getElem?_range ht]
      exact congrArg some (foldl_mixInto_mixedUpTo s q t)
    · rw [List.getElem?_eq_none (by simpa using ht)]
      rfl

/-- The four sub-blocks, voice by voice: every voice after its own frame, every track's buffer the sum of its voices
(R245). -/
theorem produceFrame_eq (s : State) :
    produceFrame s = (s.pool.map fun v => (voiceFrame s v).2, (List.range s.trackLimit).map (mixedTrack s)) := by
  have hstart : (s.pool, zeroBuffers s) =
      (s.pool.map fun v => (voiceUpTo s 0 v).2, (List.range s.trackLimit).map (mixedUpTo s 0)) := by
    rw [map_mixedUpTo_zero]
    exact congrArg (·, _) (List.map_id _).symm
  have hend : mixedTrack s = mixedUpTo s 4 := (funext (mixedUpTo_four s)).symm
  rw [produceFrame, hstart, hend, ← voiceUpTo_four]
  simp only [List.foldl_cons, List.foldl_nil, subBlock_voiceUpTo]

/-! ## Reverb and master -/

@[simp] theorem mixedTrack_length (s : State) (t : Nat) : (mixedTrack s t).length = s.blockSamples := by
  simp [mixedTrack]

/-- Every variant delivers one output for each input (R281). -/
@[simp] theorem reverb_length (s : State) (l : RevLine) (buf : List Stereo) :
    (reverb s l buf).1.length = buf.length := by
  unfold reverb
  split
  · rfl
  · split <;> exact runReverb_length _ _ _ _

/-- The reverb of each track runs over the buffer of that track (R281). -/
theorem reverbTracks_map_range (s : State) (buf : Nat → List Stereo) :
    reverbTracks s ((List.range s.trackLimit).map buf) =
      (List.range s.trackLimit).map fun t => reverb s (s.rev.getD t { line := [], pos := 0 }) (buf t) := by
  refine List.map_congr_left fun t ht => ?_
  simp [List.mem_range.1 ht]

/-- Buffers added one after the other are, at every index, added there one after the other (R248). -/
theorem foldl_zipWith_addStereo {b : Nat} {outs : List (List Stereo)} (houts : ∀ o ∈ outs, o.length = b)
    {m : List Stereo} (hm : m.length = b) :
    outs.foldl (fun m o => List.zipWith addStereo m o) m =
      (List.range b).map fun i => outs.foldl (fun x o => addStereo x (o.getD i silence)) (m.getD i silence) := by
  induction outs generalizing m with
  | nil =>
    subst hm
    refine List.ext_getElem (by simp) fun i hi _ => ?_
    have hin : i < m.length := hi
    simp [hin]
  | cons o outs ih =>
    obtain ⟨ho, houts⟩ := List.forall_mem_cons.1 houts
    rw [List.foldl_cons, ih houts (by simp [hm, ho])]
    refine List.map_congr_left fun i hi => ?_
    have hib := List.mem_range.1 hi
    simp [hm, ho, hib]

/-- The master is, at every index, the sum from `+0.0` of the tracks' outputs in ascending order (R248). -/
theorem mixMaster_eq {b : Nat} {outs : List (List Stereo)} (houts : ∀ o ∈ outs, o.length = b) :
    mixMaster b outs =
      (List.range b).map fun i => outs.foldl (fun x o => addStereo x (o.getD i silence)) silence := by
  rw [mixMaster, foldl_zipWith_addStereo houts (List.length_replicate ..)]
  refine List.map_congr_left fun i hi => ?_
  simp [List.mem_range.1 hi]

/-! ## PROCESS -/

/-- The live voices, tested and said. -/
theorem live_eq : (fun v : Voice => v.eState != .dead) = fun v => decide (v.eState ≠ .dead) := by
  funext v
  simp [bne, beq_eq_decide]

/-- PROCESS of a configured block whose voices are inside sample memory runs its frame (R244). -/
theorem exec_process_of_samplesInMemory {s : State} (hs : s.configured = true) (hmem : s.samplesInMemory = true) :
    exec .process s = .next (processFrame s) := by
  simp [exec, execProcess, needConfigured, firstError_cons, hs, hmem]

/-- Settles O44: a voice's frame does not depend on the other voices, a buffer's index is summed in one sub-block alone,
and the master's indices are summed apart. -/
theorem processMixesInPoolOrder : Obligations.ProcessMixesInPoolOrder := by
  intro s hs hmem outs master
  have houts : reverbTracks s (produceFrame s).2 = outs := by
    rw [produceFrame_eq]
    exact reverbTracks_map_range s (mixedTrack s)
  have hlen : ∀ o ∈ outs.map (·.1), o.length = s.blockSamples := by
    simp [outs]
  have hmaster : mixMaster s.blockSamples (outs.map (·.1)) = master := by
    rw [mixMaster_eq hlen]
    simp only [master, List.foldl_map]
  rw [exec_process_of_samplesInMemory hs hmem, processFrame]
  simp only [houts, frameOf, hmaster, live_eq, List.map_map, Function.comp_def]
  rw [produceFrame_eq]

/-! ## SETVOL and TRKFINE -/

/-- The pan stands above the volume, in bits 15:8 (R40, R250). -/
theorem trkCtlWord_toNat (vol pan : Byte) : (trkCtlWord vol pan).toNat = 256 * pan.toNat + vol.toNat := by
  have hvol : vol.toNat < 2 ^ 8 := vol.isLt
  have hpan : pan.toNat < 2 ^ 8 := pan.isLt
  have hshift : (pan.setWidth 32 <<< 8).toNat = pan.toNat <<< 8 := by
    simp only [BitVec.toNat_shiftLeft, BitVec.toNat_setWidth, Nat.shiftLeft_eq]
    omega
  rw [trkCtlWord, BitVec.toNat_or, hshift, BitVec.toNat_setWidth, Nat.mod_eq_of_lt (by omega),
    ← Nat.shiftLeft_add_eq_or_of_lt hvol, Nat.shiftLeft_eq]
  omega

theorem setTrkCtl_get_same (s : State) (trk : BitVec 4) (w : Word) : (s.setTrkCtl trk w).trkCtl.get trk.toFin = w := by
  simp [Vector.get_eq_getElem]

theorem setTrkCtl_get_of_ne (s : State) {trk : BitVec 4} {u : Fin 16} (h : u ≠ trk.toFin) (w : Word) :
    (s.setTrkCtl trk w).trkCtl.get u = s.trkCtl.get u := by
  have hval : trk.toNat ≠ u.val := fun he => h (Fin.ext he.symm)
  simp [Vector.get_eq_getElem, hval]

/-- SETVOL on a ready track with legal operands writes its TRKCTL (R250). -/
theorem execSetvol_of_legal {s : State} {trk : BitVec 4} {vol pan : Byte} (hs : trackReady s trk)
    (hvol : vol.toNat ≤ 127) (hlo : -64 ≤ pan.toInt) (hhi : pan.toInt ≤ 63) :
    execSetvol trk vol pan s = .next ((s.setTrkCtl trk (trkCtlWord vol pan)).advance 1) := by
  have hpass : firstError (needConfigured s ++ needTrack s trk ++ [(above127 vol, .volPan), (panIllegal pan, .volPan)]) =
      none := by
    rw [firstError_append (firstError_of_trackReady hs)]
    simp [firstError_cons, above127, panIllegal, Nat.not_lt.2 hvol, Int.not_lt.2 hlo, Int.not_lt.2 hhi]
  exact guarded_of_pass (firstError_eq_none.1 hpass)

/-- SETVOL on a ready track with a volume or a pan out of range is the DataError VOLPAN (R250). -/
theorem execSetvol_volPan {s : State} {trk : BitVec 4} {vol pan : Byte} (hs : trackReady s trk)
    (h : 127 < vol.toNat ∨ pan.toInt < -64 ∨ 63 < pan.toInt) :
    execSetvol trk vol pan s = .next (afterDataError s 0x11 trk 1) := by
  have herr : firstError (needConfigured s ++ needTrack s trk ++ [(above127 vol, .volPan), (panIllegal pan, .volPan)]) =
      some .volPan := by
    rw [firstError_append (firstError_of_trackReady hs)]
    rcases h with h | h <;> simp [firstError_cons, above127, panIllegal, h]
  exact guarded_data herr rfl

/-- Settles O20: the two checks decide, and the write reaches the track's word alone. -/
theorem setvolWritesTrkctl : Obligations.SetvolWritesTrkctl := by
  intro s trk vol pan hs
  refine ⟨fun hvol hlo hhi => ⟨_, execSetvol_of_legal hs hvol hlo hhi, rfl, ?same, fun u hu => ?other⟩,
    execSetvol_volPan hs⟩
  case same => rw [advance_trkCtl, setTrkCtl_get_same, trkCtlWord_toNat]
  case other => rw [advance_trkCtl, setTrkCtl_get_of_ne s hu]

theorem assignBit_getLsbD_same (w : Word) {i : Nat} (hi : i < 32) (b : Bool) : (assignBit w i b).getLsbD i = b := by
  cases b with
  | true => exact (setBit_getLsbD w i i hi).trans (by simp)
  | false => exact (clearBit_getLsbD w i i).trans (by simp)

theorem assignBit_getLsbD_of_ne (w : Word) {i k : Nat} (hi : i < 32) (hk : k ≠ i) (b : Bool) :
    (assignBit w i b).getLsbD k = w.getLsbD k := by
  cases b with
  | true => exact (setBit_getLsbD w i k hi).trans (by simp [hk])
  | false => exact (clearBit_getLsbD w i k).trans (by simp [hk])

/-- TRKFINE on a ready track writes its bit (R259). -/
theorem execTrkfine_of_ready {s : State} {trk : BitVec 4} (hs : trackReady s trk) (fine : Bool) :
    execTrkfine trk fine s =
      .next { s with trkFine := assignBit s.trkFine trk.toNat fine, cp := s.cp + 1 } :=
  guarded_of_pass (firstError_eq_none.1 (firstError_of_trackReady hs))

/-- Settles O21: assigning one bit of the word leaves the others. -/
theorem trkfineWritesItsBit : Obligations.TrkfineWritesItsBit := by
  intro s trk fine hs
  have htrk : trk.toNat < 32 := trk.isLt.trans (by decide)
  exact ⟨_, execTrkfine_of_ready hs fine, rfl, assignBit_getLsbD_same s.trkFine htrk fine,
    fun k hk => assignBit_getLsbD_of_ne s.trkFine htrk hk fine⟩

/-! ## The volumes of a voice -/

/-- The volume table halves its index (R209). -/
theorem volLut_getD {i : Nat} (hi : i ≤ 15) : volLut.getD i 0 = i / 2 := by
  interval_cases i <;> rfl

/-- The volume index of a CGB voice has four bits (R252). -/
theorem cgbVolIndex_le (vol vel : BitVec 7) : cgbVolIndex vol.toNat vel.toNat ≤ 15 := by
  have hvol : vol.toNat ≤ 127 := Nat.le_of_lt_succ vol.isLt
  have hvel : vel.toNat ≤ 127 := Nat.le_of_lt_succ vel.isLt
  have hmul : vol.toNat * vel.toNat ≤ 127 * 127 := Nat.mul_le_mul hvol hvel
  unfold cgbVolIndex
  omega

/-- The thresholds of the three pan positions (R252). -/
theorem cgbPan_eq (p : Int) : cgbPan p = if p ≤ -22 then .left else if 22 ≤ p then .right else .centre := by
  rw [cgbPan, Config.panCgbThresh]

/-- The amplitude of a CGB voice on the sides of its pan position (R252). -/
theorem deriveCgbVol_eq (s : State) (v : Voice) :
    deriveCgbVol s v =
      if ctlPan (s.trkCtlOf v.track) ≤ -22 then (.left, cgbLevel s v, F32.zero)
      else if 22 ≤ ctlPan (s.trkCtlOf v.track) then (.right, F32.zero, cgbLevel s v)
      else (.centre, cgbLevel s v, cgbLevel s v) := by
  rw [deriveCgbVol, cgbPan_eq]
  split
  · simp
  · split <;> simp

/-- Settles O37: the PCM formula is R251's as it stands, and the CGB amplitude reads its table below 16. -/
theorem voiceVolumes : Obligations.VoiceVolumes := by
  intro s v w vol p env g v4 a
  have hindex : v4 ≤ 15 := cgbVolIndex_le (ctlVol w) v.vel
  have hlevel : cgbLevel s v = a := by
    change ((F32.ofNat (volLut.getD v4 0)).div (F32.ofNat 7)).mul env = a
    rw [volLut_getD hindex]
  refine ⟨rfl, hindex, ?_⟩
  rw [deriveCgbVol_eq, hlevel]
  rfl

/-! ## The system commands -/

/-- A command with the configured check alone has its effect in a configured block (R336). -/
theorem guarded_of_configured {s : State} (hs : s.configured = true) (trk : BitVec 4) (n : Nat)
    (effect : State → State) : guarded s trk n (needConfigured s) effect = .next (effect s) :=
  guarded_of_pass (by simp [needConfigured, hs])

/-- Settles O17: NOP has no check, RESET the configured check alone. -/
theorem nopAndReset : Obligations.NopAndReset := by
  intro s
  refine ⟨rfl, fun hs => ?_⟩
  rw [exec, execReset, guarded_of_configured hs]
  rfl

/-- No voice is live exactly when every voice is DEAD (R39). -/
theorem voiceCount_eq_zero_iff (s : State) : s.voiceCount = 0 ↔ ∀ v ∈ s.pool, v.eState = .dead := by
  simp [State.voiceCount, List.countP_eq_zero]

/-- The end predicate, as R260 says it. -/
theorem ended_iff (s : State) :
    s.ended = true ↔ (∀ k < s.trackLimit, s.trkFine.getLsbD k = true) ∧ ∀ v ∈ s.pool, v.eState = .dead := by
  simp [State.ended, voiceCount_eq_zero_iff]

/-- STATUS as read has ENDED set on a configured block that has ended (R34). -/
theorem statusRead_of_ended {s : State} (hs : s.configured = true) (h : s.ended = true) :
    s.statusRead = s.status ||| 0x00000008#32 := by
  rw [State.statusRead, if_pos (by rw [hs, h]; rfl)]
  rfl

/-- STATUS as read is STATUS as stored elsewhere (R34). -/
theorem statusRead_of_not_ended {s : State} (h : ¬ (s.configured = true ∧ s.ended = true)) :
    s.statusRead = s.status := by
  rw [State.statusRead, if_neg (by simpa using h)]

/-- ENDED responds the end predicate (R260). -/
theorem execEnded_of_configured {s : State} (hs : s.configured = true) :
    execEnded s = .next { s with responses := s.responses ++ [if s.ended then 1 else 0], cp := s.cp + 1 } :=
  guarded_of_configured hs 0 1 _

/-- Settles O18: the end predicate decides ENDED's response and the bit of STATUS that is read. -/
theorem endedAndGetbufRespond : Obligations.EndedAndGetbufRespond := by
  intro s hs
  simp only [← ended_iff]
  refine ⟨fun hended => ⟨?_, ?_⟩, fun hnot => ⟨?_, fun hbit => ?_⟩, ?_⟩
  · rw [exec, execEnded_of_configured hs, if_pos hended]
  · rw [statusRead_of_ended hs hended, BitVec.getLsbD_or]
    simp
  · rw [exec, execEnded_of_configured hs, if_neg hnot]
  · rw [statusRead_of_not_ended fun h => hnot h.2, hbit]
  · rw [exec, execGetbuf, guarded_of_configured hs]
    rfl

/-- The live voices VOICECNT counts (R39). -/
theorem voiceCount_eq (s : State) :
    s.voiceCount = (s.pool.filter fun v => decide (v.eState ≠ .dead)).length := by
  rw [State.voiceCount, List.countP_eq_length_filter, live_eq]

/-- Above the control registers only TRKCTL is readable, as the registers 16 to 31 (R40, R41). -/
theorem readCR_of_le {n : Nat} (h : 11 ≤ n) (s : State) :
    s.readCR n = if h : 16 ≤ n ∧ n < 32 then some (s.trkCtl.get ⟨n - 16, by omega⟩) else none := by
  obtain ⟨m, rfl⟩ := Nat.exists_eq_add_of_le' h
  rfl

theorem readCR_trkCtl (s : State) (t : Fin 16) : s.readCR (16 + t.val) = some (s.trkCtl.get t) := by
  have ht := t.isLt
  rw [readCR_of_le (by omega), dif_pos (by omega)]
  simp

theorem readCR_eq_none {n : Nat} (h : (11 ≤ n ∧ n ≤ 15) ∨ 32 ≤ n) (s : State) : s.readCR n = none := by
  rw [readCR_of_le (by omega), dif_neg (by omega)]

/-- RDREG of a register that exists responds it, configured or not (R262). -/
theorem execRdreg_of_some {s : State} {n : Byte} {w : Word} (h : s.readCR n.toNat = some w) :
    execRdreg n s = .next { s with responses := s.responses ++ [w], cp := s.cp + 1 } := by
  rw [execRdreg, guarded_of_pass (by simp [h]), h]
  rfl

/-- RDREG of a register that does not exist halts with BADREG (R262). -/
theorem execRdreg_of_none {s : State} {n : Byte} (h : s.readCR n.toNat = none) :
    execRdreg n s = .next (afterFatal s 0x355) := by
  rw [execRdreg, guarded_fatal (e := .badReg) (by rw [h]; rfl) rfl]
  rfl

/-- Settles O19: each register by its row of `readCR`, STATUS by the end predicate, the counts by their filters. -/
theorem rdregResponds : Obligations.RdregResponds := by
  intro s reads
  simp only [← ended_iff, ← voiceCount_eq, ← pcmCount_eq]
  have hreads : ∀ (n : Byte) (w : Word), s.readCR n.toNat = some w → reads n w := fun _ _ => execRdreg_of_some
  refine ⟨hreads 0 _ rfl, hreads 1 _ rfl, hreads 2 _ rfl, hreads 3 _ rfl, fun h => ?ended, fun h => ?running,
    hreads 5 _ rfl, hreads 6 _ rfl, hreads 7 _ rfl, hreads 8 _ rfl, fun _ => ⟨hreads 9 _ rfl, hreads 10 _ rfl⟩,
    fun t => ?trkCtl, fun n hn => execRdreg_of_none (readCR_eq_none hn s)⟩
  case ended => exact hreads 4 _ (congrArg some (statusRead_of_ended h.1 h.2))
  case running => exact hreads 4 _ (congrArg some (statusRead_of_not_ended h))
  case trkCtl =>
    have hn : (BitVec.ofNat 8 (16 + t.val)).toNat = 16 + t.val := by
      have := t.isLt
      rw [BitVec.toNat_ofNat, Nat.mod_eq_of_lt (by omega)]
    exact hreads _ _ ((congrArg s.readCR hn).trans (readCR_trkCtl s t))

end Sys2Proof.Machine
end

section
/-!
PROOFS. The family of spec 46_reverb: NORMAL and NONE over a frame (R283, R284), GS1, GS2 and MGAT over a frame (R285).
-/

namespace Sys2Proof.Machine

/-! ## A delay line within a frame -/

/-- A delay line of `d` entries within a frame (R282): the outputs `done` of this frame stand below `revPos`, the
outputs `old` of the previous frame from there on. -/
def partWay (d : Nat) (done old : List Stereo) : RevLine :=
  { line := done ++ old, pos := done.length % d }

section
variable {d : Nat} {done old : List Stereo}

/-- Between frames the line holds the previous frame's outputs alone (R282). -/
theorem eq_partWay_nil {l : RevLine} (hpos : l.pos = 0) : l = partWay d [] l.line := by
  obtain ⟨line, pos⟩ := l
  subst hpos
  simp [partWay]

/-- At the end of a frame `revPos` is 0 again (R282). -/
theorem partWay_full (h : done.length = d) : partWay d done [] = { line := done, pos := 0 } := by
  simp [partWay, h]

/-- An output takes the place of the oldest entry (R282). -/
theorem partWay_push (h : done.length < d) (o y : Stereo) :
    (partWay d done (o :: old)).push d y = partWay d (done ++ [y]) old := by
  simp [partWay, RevLine.push, Nat.mod_eq_of_lt h]

/-- The entry about to be overwritten is the previous frame's output at the same index (R283). -/
theorem partWay_entry_pos (h : done.length < d) :
    (partWay d done old).entry (partWay d done old).pos = old.getD 0 silence := by
  rw [RevLine.entry, partWay, Nat.mod_eq_of_lt h, List.getD_append_right _ _ _ _ (Nat.le_refl _), Nat.sub_self]

/-- The output `delay` samples earlier, of this frame or else of the previous one (R285). -/
theorem partWay_delayed {delay : Nat} (h : done.length < d) (hlo : 1 ≤ delay) (hhi : delay ≤ d) :
    (partWay d done old).delayed d delay =
      if delay ≤ done.length then done.getD (done.length - delay) silence else old.getD (d - delay) silence := by
  have hindex : (((done.length : Int) + d - delay) % (d : Int)).toNat =
      if delay ≤ done.length then done.length - delay else done.length + (d - delay) := by
    split
    · rw [show (done.length : Int) + d - delay = ((done.length - delay : Nat) : Int) + d by omega, Int.add_emod_right,
        Int.emod_eq_of_lt (by omega) (by omega), Int.toNat_natCast]
    · rw [Int.emod_eq_of_lt (by omega) (by omega)]
      omega
  rw [RevLine.delayed, RevLine.entry, partWay, Nat.mod_eq_of_lt h, hindex]
  split
  · exact List.getD_append _ _ _ _ (by omega)
  · rw [List.getD_append_right _ _ _ _ (by omega), Nat.add_sub_cancel_left]

end

/-! ## A variant over a frame -/

/-- What is left of a frame: at every index the variant sees the outputs so far and what is left of the previous frame's,
and afterwards the line holds this frame's outputs (R282). -/
theorem runReverb_partWay {d : Nat} (f : RevLine → Stereo → Stereo) {done old xs : List Stereo}
    (hd : done.length + old.length = d) (hxs : xs.length = old.length) :
    (runReverb d f (partWay d done old) xs).2 = partWay d (done ++ (runReverb d f (partWay d done old) xs).1) [] ∧
    ∀ i < xs.length, (runReverb d f (partWay d done old) xs).1.getD i silence =
      f (partWay d (done ++ (runReverb d f (partWay d done old) xs).1.take i) (old.drop i)) (xs.getD i silence) := by
  induction xs generalizing done old with
  | nil =>
    obtain rfl := List.length_eq_zero_iff.1 hxs.symm
    simp [runReverb]
  | cons x xs ih =>
    obtain ⟨o, old, rfl⟩ := List.exists_cons_of_length_eq_add_one hxs.symm
    simp only [List.length_cons] at hd hxs
    have hpush := partWay_push (old := old) (show done.length < d by omega) o (f (partWay d done (o :: old)) x)
    obtain ⟨hline, hout⟩ :=
      ih (done := done ++ [f (partWay d done (o :: old)) x]) (old := old) (by simp; omega) (by omega)
    simp only [runReverb, hpush]
    refine ⟨by simpa using hline, fun i hi => ?_⟩
    cases i with
    | zero => simp
    | succ i => simpa using hout i (by simpa using hi)

/-- A whole frame: the line then holds its outputs and `revPos` is 0 again (R282). -/
theorem runReverb_frame {d : Nat} (f : RevLine → Stereo → Stereo) {l : RevLine} {buf : List Stereo}
    (hl : l.line.length = d) (hbuf : buf.length = d) (hpos : l.pos = 0) :
    (runReverb d f l buf).2 = { line := (runReverb d f l buf).1, pos := 0 } ∧
    ∀ i < d, (runReverb d f l buf).1.getD i silence =
      f (partWay d ((runReverb d f l buf).1.take i) (l.line.drop i)) (buf.getD i silence) := by
  have h := runReverb_partWay f (d := d) (done := []) (old := l.line) (xs := buf) (by simpa using hl) (by omega)
  rw [← eq_partWay_nil hpos] at h
  obtain ⟨hline, hout⟩ := h
  exact ⟨hline.trans (partWay_full (by simpa using hbuf)), by simpa [hbuf] using hout⟩

/-! ## NONE and NORMAL -/

theorem reverb_of_none {s : State} (h : cfgRevType s.config = revNone) (l : RevLine) (buf : List Stereo) :
    reverb s l buf = (buf, l) :=
  if_pos h

theorem reverb_of_normal {s : State} (h : cfgRevType s.config = revNormal) (l : RevLine) (buf : List Stereo) :
    reverb s l buf = runReverb s.blockSamples (normalSample (normalGain (cfgEngineRev s.config))) l buf := by
  rw [reverb, if_neg (by rw [h]; decide), if_pos h]

/-- What NORMAL makes of an input and the output one frame earlier (R283). -/
def combSample (g : F32) (x e : Stereo) : Stereo := (x.1.add (g.mul e.1), x.2.add (g.mul e.2))

theorem normalSample_partWay {d : Nat} {done old : List Stereo} (h : done.length < d) (g : F32) (x : Stereo) :
    normalSample g (partWay d done old) x = combSample g x (old.getD 0 silence) := by
  rw [normalSample, partWay_entry_pos h, combSample]

/-- The outputs of NORMAL over a frame (R283). -/
theorem runReverb_normal {d : Nat} (g : F32) {l : RevLine} {buf : List Stereo}
    (hl : l.line.length = d) (hbuf : buf.length = d) (hpos : l.pos = 0) :
    (runReverb d (normalSample g) l buf).1 = List.zipWith (combSample g) buf l.line := by
  refine List.ext_getElem (by simp [hl, hbuf]) fun i hi _ => ?_
  have hid : i < d := by simpa [hbuf] using hi
  have hout := (runReverb_frame (normalSample g) hl hbuf hpos).2 i hid
  rw [normalSample_partWay (by simp [hid])] at hout
  simpa [hi, hl, hbuf, hid] using hout

/-- Settles O46: NORMAL reads the entry about to be overwritten, which is the previous frame's output. -/
theorem normalReverbFrame : Obligations.NormalReverbFrame := by
  intro s l buf
  refine ⟨fun hnone => reverb_of_none hnone l buf, fun hnormal hl hbuf hpos => ?_⟩
  rw [reverb_of_normal hnormal]
  have hout := runReverb_normal (normalGain (cfgEngineRev s.config)) hl hbuf hpos
  have hline := (runReverb_frame (normalSample (normalGain (cfgEngineRev s.config))) hl hbuf hpos).1
  rw [hout] at hline
  exact Prod.ext hout hline

/-! ## GS1, GS2 and MGAT -/

/-- The taps of a launch read entries of the line: `1 ≤ d_k ≤ D` (R285). -/
theorem delay_of_revTapsOf {p : Launch} {revType : BitVec 3} {engineRev : BitVec 7} {d : Nat} {taps : List Tap}
    (h : revTapsOf p revType engineRev d = some taps) {t : Tap} (ht : t ∈ taps) : 1 ≤ t.delay ∧ t.delay ≤ d := by
  obtain ⟨r, hr, rfl⟩ := Option.map_eq_some_iff.1 h
  have hrow := List.find?_some hr
  simp only [RevRow.legal, Bool.and_eq_true, List.all_eq_true] at hrow
  obtain ⟨_, _, hall⟩ := hrow
  have htap := hall t ht
  simp only [Tap.legal, Bool.and_eq_true, decide_eq_true_eq] at htap
  obtain ⟨⟨⟨⟨hdelay, _⟩, _⟩, _⟩, _⟩ := htap
  exact hdelay

theorem reverb_of_taps {s : State} (hlo : 1 ≤ (cfgRevType s.config).toNat) (hhi : (cfgRevType s.config).toNat ≤ 3)
    (l : RevLine) (buf : List Stereo) :
    reverb s l buf = runReverb s.blockSamples (tapsSample s.taps s.blockSamples) l buf := by
  have hnone : cfgRevType s.config ≠ revNone := fun h => by simp [h, revNone] at hhi
  have hnormal : cfgRevType s.config ≠ revNormal := fun h => by simp [h, revNormal] at hlo
  rw [reverb, if_neg hnone, if_neg hnormal]

/-- Within a frame a legal tap reads this frame's output or the previous one's (R285). -/
theorem delayed_within_frame {d i delay : Nat} {out line : List Stereo} (hout : out.length = d)
    (hi : i < d) (hlo : 1 ≤ delay) (hhi : delay ≤ d) :
    (partWay d (out.take i) (line.drop i)).delayed d delay =
      if delay ≤ i then out.getD (i - delay) silence else line.getD (d + i - delay) silence := by
  have hlen : (out.take i).length = i := by simp; omega
  rw [partWay_delayed (by omega) hlo hhi, hlen]
  split
  · simp [List.getElem?_take_of_lt (show i - delay < i by omega)]
  · simp [show i + (d - delay) = d + i - delay by omega]

/-- Settles O47: the line within the frame is this frame's outputs followed by the rest of the previous one's. -/
theorem tapReverbFrame : Obligations.TapReverbFrame := by
  intro s l buf taps hlo hhi htaps hl hbuf hpos r
  have hr : r = runReverb s.blockSamples (tapsSample taps s.blockSamples) l buf := by
    have hs : s.taps = taps := congrArg (·.getD []) htaps
    rw [← hs]
    exact reverb_of_taps hlo hhi l buf
  have hlen : r.1.length = s.blockSamples := (reverb_length s l buf).trans hbuf
  obtain ⟨hline, hout⟩ := runReverb_frame (tapsSample taps s.blockSamples) hl hbuf hpos
  rw [← hr] at hline hout
  refine ⟨hlen, hline, fun i hi => (hout i hi).trans (List.foldl_ext _ _ _ fun acc t ht => ?_)⟩
  obtain ⟨hone, hd⟩ := delay_of_revTapsOf htaps ht
  rw [tapSample, delayed_within_frame hlen hi hone hd]

end Sys2Proof.Machine
end

section
/-!
PROOFS. The family of spec 60_exceptions: the configured check (R336), NOTCFG before CFG and RECFG after it (R332).
-/

namespace Sys2Proof.Machine

/-! ## The check that stands first -/

/-- Where the first check of a list fails, its error is the one taken, whatever follows (R340). -/
theorem firstError_of_head? {checks : List (Bool × ErrSub)} {failed : Bool} {e : ErrSub}
    (hhead : checks.head? = some (failed, e)) (hfailed : failed = true) : firstError checks = some e := by
  obtain ⟨rest, rfl⟩ := List.head?_eq_some_iff.1 hhead
  rw [firstError_cons, if_pos hfailed]

/-- A guarded command that tests the configured check first halts with NOTCFG where the block is not configured
(R336, R340). -/
theorem guarded_notCfg {s : State} {trk : BitVec 4} {n : Nat} {checks : List (Bool × ErrSub)} {effect : State → State}
    (hs : s.configured = false) (hhead : checks.head? = some (!s.configured, .notCfg)) :
    guarded s trk n checks effect = .next (afterFatal s 0x325) :=
  guarded_fatal (firstError_of_head? hhead (by rw [hs]; rfl)) rfl

/-- PROCESS halts with NOTCFG where the block is not configured, whatever its pool holds (R336). -/
theorem execProcess_notCfg {s : State} (hs : s.configured = false) :
    execProcess s = .next (afterFatal s 0x325) := by
  have herr : firstError (needConfigured s) = some .notCfg := firstError_of_head? rfl (by rw [hs]; rfl)
  simp only [execProcess, herr]
  exact congrArg _ (takeError_eq_afterFatal s 0 1 rfl)

/-- CFG in a configured block halts with RECFG before its words are looked at (R241, R336). -/
theorem execCfg_reCfg {s : State} (hs : s.configured = true) (c p : Word) :
    execCfg c p s = .next (afterFatal s 0x335) := by
  have herr : firstError (cfgChecks s c p) = some .reCfg := firstError_of_head? rfl hs
  exact guarded_fatal herr rfl

/-- Settles O9: every command but NOP, CFG and RDREG tests the configured check first, and CFG tests its opposite. -/
theorem configuredCheck : Obligations.ConfiguredCheck := by
  intro s
  refine ⟨fun i hs hnop hcfg hrdreg => ?_, fun c p hs => execCfg_reCfg hs c p⟩
  cases i with
  | nop => exact absurd rfl hnop
  | cfg c p => exact absurd rfl (hcfg c p)
  | rdreg r => exact absurd rfl (hrdreg r)
  | process => exact execProcess_notCfg hs
  | reset | noteonPcm | noteonSq | noteonWave | noteonNoise | setpitch | setvol | release | trkfine | ended | getbuf =>
    apply guarded_notCfg hs
    rfl

end Sys2Proof.Machine
end

section
/-!
PROOFS. The family of spec 70_reset_and_hazards: the state after hardware reset (R65, R360).
-/

namespace Sys2Proof.Machine

/-! ## The pool after reset -/

/-- Each rule about the voices of a pool holds of an empty one. -/
theorem empty_pool_legal {s : State} (hpool : s.pool = []) : s.poolLegal ∧ s.positionsLegal ∧ s.cgbUnique := by
  have hnone : ∀ v, v ∉ s.pool := fun v => hpool ▸ List.not_mem_nil
  have hunique : s.cgbUnique := by rw [State.cgbUnique, hpool]; exact .nil
  exact ⟨⟨fun v hv => absurd hv (hnone v), fun _ => hpool⟩, fun v hv => absurd hv (hnone v), hunique⟩

/-! ## The registers after reset -/

/-- TRKCTL holds 0 for every track after reset, so SETVOL has to come before sound (R65, R366). -/
theorem reset_trkCtl_get (t : Fin 16) : State.reset.trkCtl.get t = 0 := Vector.getElem_replicate t.isLt

/-- The reserved bits read 0 after reset: the ones of TRKFINE stand in its track bits. -/
theorem reset_reservedZero : State.reset.reservedZero := by decide

theorem reset_configured : State.reset.configured = false := by decide

theorem reset_unconfiguredLegal : State.reset.unconfiguredLegal := by decide

/-- No launch input enters a register rule of an unconfigured block: of them only the launch record is read, and that
by the rules of a configured one. -/
theorem launched_registersLegal (p : Launch) (m : Memory) (words : List Word) : (launched p m words).registersLegal :=
  have hunconfigured : ¬ (launched p m words).configured = true := Bool.eq_false_iff.1 reset_configured
  ⟨reset_reservedZero, fun hs => absurd hs hunconfigured, fun _ => reset_unconfiguredLegal⟩

/-! ## The state after reset -/

/-- Settles O53: the fields are those of `State.reset`, the registers are legal as those of an unconfigured block, and
the pool is legal because it is empty. -/
theorem resetState : Obligations.ResetState := by
  refine ⟨rfl, fun p m ws => ?_⟩
  obtain ⟨hpool, hpositions, hunique⟩ := empty_pool_legal (s := launched p m ws) rfl
  exact ⟨rfl, rfl, rfl, rfl, rfl, rfl, rfl, rfl, rfl, rfl, reset_trkCtl_get, rfl, rfl, rfl, rfl,
    launched_registersLegal p m ws, hpool, hpositions, hunique⟩

end Sys2Proof.Machine
end

section
/-!
PROOFS. The round trip of the encoding (spec 30_encoding R90 to R102): decoding the words of a command, encoding what was
decoded, and the worked words of R117.
-/

namespace Sys2Proof

/-! ## Decoding an encoded command -/

/-- The header of every command selects a row with the command's opcode and length (R100). -/
theorem headerSelectsRow (i : Instr) : Laws.HeaderSelectsRow.Statement i := by
  cases i with
  | nop => exact Laws.HeaderSelectsRow.nop
  | cfg => exact Laws.HeaderSelectsRow.cfg ..
  | reset => exact Laws.HeaderSelectsRow.reset
  | noteonPcm => exact Laws.HeaderSelectsRow.noteonPcm ..
  | noteonSq => exact Laws.HeaderSelectsRow.noteonSq ..
  | noteonWave => exact Laws.HeaderSelectsRow.noteonWave ..
  | noteonNoise => exact Laws.HeaderSelectsRow.noteonNoise ..
  | setpitch => exact Laws.HeaderSelectsRow.setpitch ..
  | setvol => exact Laws.HeaderSelectsRow.setvol ..
  | release => exact Laws.HeaderSelectsRow.release ..
  | trkfine => exact Laws.HeaderSelectsRow.trkfine ..
  | process => exact Laws.HeaderSelectsRow.process
  | ended => exact Laws.HeaderSelectsRow.ended
  | getbuf => exact Laws.HeaderSelectsRow.getbuf
  | rdreg => exact Laws.HeaderSelectsRow.rdreg ..

/-- A flag alone in `f[0]` is read back (R91). -/
theorem getElem_flag (b : Bool) : (0#3 ++ BitVec.ofBool b)[0] = b := by
  cases b <;> rfl

/-- The two flags of RELEASE are read back (R102). -/
theorem getElem_flags (fast anykey : Bool) :
    (0#2 ++ BitVec.ofBool fast ++ BitVec.ofBool anykey)[1] = fast ∧
    (0#2 ++ BitVec.ofBool fast ++ BitVec.ofBool anykey)[0] = anykey := by
  cases fast <;> cases anykey <;> exact ⟨rfl, rfl⟩

/-- The pattern of NOTEON.NOISE is read back from `f[0]` (R102). -/
theorem noisePattern_ofFlag_code (p : NoisePattern) : NoisePattern.ofFlag (0#3 ++ p.code)[0] = p := by
  cases p <;> rfl

/-- The unit and the duty of NOTEON.SQ are read back from `f[2]` and `f[1:0]` (R102). -/
theorem square_ofFlags_code (u : SqUnit) (d : Duty) :
    SqUnit.ofFlag (0#1 ++ u.code ++ d.code)[2] = u ∧
    Duty.ofFlags (0#1 ++ u.code ++ d.code)[1] (0#1 ++ u.code ++ d.code)[0] = d := by
  cases u <;> cases d <;> exact ⟨rfl, rfl⟩

/-- The row of a command builds it again from its own words, whatever follows them (R91 to R97, R102). -/
theorem buildInstr_encode {i : Instr} {h : Word} {ops : List Word} (he : encode i = h :: ops) (rest : List Word) :
    buildInstr i.opcode h (ops ++ rest) = i := by
  cases i with
  | nop | reset | process | ended | getbuf => rfl
  | cfg | rdreg | setvol | noteonWave =>
    obtain ⟨rfl, rfl⟩ := List.cons.inj he
    simp [Instr.opcode, buildInstr]
  | noteonPcm | setpitch | trkfine =>
    obtain ⟨rfl, rfl⟩ := List.cons.inj he
    simp [Instr.opcode, buildInstr, headerFlag_header, getElem_flag]
  | noteonSq trk unit duty =>
    obtain ⟨rfl, rfl⟩ := List.cons.inj he
    simpa [Instr.opcode, buildInstr, headerFlag_header] using square_ofFlags_code unit duty
  | noteonNoise trk pattern =>
    obtain ⟨rfl, rfl⟩ := List.cons.inj he
    simpa [Instr.opcode, buildInstr, headerFlag_header] using noisePattern_ofFlag_code pattern
  | release trk fast anykey =>
    obtain ⟨rfl, rfl⟩ := List.cons.inj he
    simpa [Instr.opcode, buildInstr, headerFlag_header] using getElem_flags fast anykey

/-- Settles O1: the header selects the command's row, all its words are there, and the row builds the command. -/
theorem decodeOfEncode : Obligations.DecodeOfEncode := by
  intro i rest
  obtain ⟨h, ops, r, henc, hrow, hop, hwords, hlen⟩ := headerSelectsRow i
  have hwhole : ¬ (ops ++ rest).length + 1 < r.words := by
    rw [List.length_append]
    omega
  rw [henc, List.cons_append, decode_of_row hrow, if_neg hwhole, hop, buildInstr_encode henc, hwords]

/-! ## Encoding a decoded command -/

/-- Every word is a header of some fields (R91). -/
theorem exists_header (h : Word) : ∃ op trk f a b, h = header op trk f a b :=
  ⟨_, _, _, _, _, (header_eta h).symm⟩

/-- A row whose mask has the whole opcode byte selects a header by its fields (R100). -/
theorem selects_fields_iff (op : Opcode) (n : Nat) (p o : BitVec 8) (mt mf t f : BitVec 4) (ma mb a b : Byte) :
    OpRow.selects ⟨op, n, header p 0 0 0 0, header 0xFF mt mf ma mb⟩ (header o t f a b) = true ↔
      o = p ∧ t &&& mt = 0 ∧ f &&& mf = 0 ∧ a &&& ma = 0 ∧ b &&& mb = 0 := by
  have hop : o &&& 0xFF = o := BitVec.and_allOnes
  rw [OpRow.selects, beq_iff_eq, header_and, header_inj, hop]

/-- Under the masks of R100 a flag field is encoded again from the flags its row uses (R102). -/
theorem flags_encode (f : BitVec 4) :
    (f &&& 0xE = 0 → 0#3 ++ BitVec.ofBool f[0] = f ∧ 0#3 ++ (NoisePattern.ofFlag f[0]).code = f) ∧
    (f &&& 0xC = 0 → 0#2 ++ BitVec.ofBool f[1] ++ BitVec.ofBool f[0] = f) ∧
    (f &&& 0x8 = 0 → 0#1 ++ (SqUnit.ofFlag f[2]).code ++ (Duty.ofFlags f[1] f[0]).code = f) := by
  revert f
  decide

/-- The first words of a list, as the decoder reads operand words. -/
theorem take_eq_map_getD {ws : List Word} {n : Nat} (hn : n ≤ ws.length) :
    ws.take n = (List.range n).map fun j => ws.getD j 0 := by
  refine List.ext_getElem (by simp [hn]) fun j hj _ => ?_
  have hj' : j < ws.length := by
    rw [List.length_take] at hj
    omega
  simp [hj']

/-- A row that selects a header encodes the command it builds as the words it was built from (R90 to R102, R108). -/
theorem encode_buildInstr {r : OpRow} (hr : r ∈ opTable) {h : Word} (hsel : r.selects h = true) {rest : List Word}
    (hlen : r.words ≤ rest.length + 1) : encode (buildInstr r.opcode h rest) = (h :: rest).take r.words := by
  obtain ⟨op, trk, f, a, b, rfl⟩ := exists_header h
  obtain ⟨hflagE, hflagC, hflag8⟩ := flags_encode f
  have and_ones4 (x : BitVec 4) : x &&& 15#4 = x := BitVec.and_allOnes
  have and_ones8 (x : BitVec 8) : x &&& 255#8 = x := BitVec.and_allOnes
  rw [opTable_header] at hr
  simp only [List.mem_cons, List.not_mem_nil, or_false] at hr
  rcases hr with rfl | rfl | rfl | rfl | rfl | rfl | rfl | rfl | rfl | rfl | rfl | rfl | rfl | rfl | rfl
  all_goals
    obtain ⟨rfl, htrk, hflags, ha, hb⟩ := (selects_fields_iff ..).1 hsel
    rw [List.take_succ_cons, take_eq_map_getD (Nat.le_of_succ_le_succ hlen)]
    simp_all [encode, buildInstr, headerFlag_header, List.range_succ]

/-- The row of a header stands in the table and selects it (R100). -/
theorem headerRow_spec {h : Word} {r : OpRow} (hr : headerRow h = some r) : r ∈ opTable ∧ r.selects h = true :=
  ⟨List.mem_of_find?_eq_some hr, List.find?_some (p := fun r => OpRow.selects r h) hr⟩

/-- Settles O2: the row the header selects has built the command from the words it read. -/
theorem encodeOfDecode : Obligations.EncodeOfDecode := by
  intro ws i n hd
  cases ws with
  | nil => cases hd
  | cons h rest =>
    have hwords := decode_command_words hd
    cases hrow : headerRow h with
    | none =>
      rw [decode_of_no_row hrow] at hd
      cases hd
    | some r =>
      rw [decode_of_row hrow] at hd
      split at hd
      · cases hd
      · next hwhole =>
        obtain ⟨rfl, rfl⟩ := Decoded.command.inj hd
        have hlen : r.words ≤ rest.length + 1 := Nat.not_lt.1 hwhole
        obtain ⟨hmem, hsel⟩ := headerRow_spec hrow
        exact ⟨encode_buildInstr hmem hsel hlen, hwords, hlen⟩

/-! ## Worked encodings -/

/-- Settles O4: the decoder is evaluated on the fixed words of R117. -/
theorem workedEncodingsDecode : Obligations.WorkedEncodingsDecode := by
  refine ⟨?_, ?_, ?_, ?_, ?_, ?_, ?_, ?_⟩ <;> decide

end Sys2Proof
end

section
/-!
PROOFS. What a step can do, said once: every command tests its checks in order and then has its effect (R340). From it, the
rules of the step (30_encoding R113; 20_memory R84) and of what a step writes (10_state R30 to R62).
-/

namespace Sys2Proof.Machine

/-! ## Every command as its checks and its effect -/

/-- The checks of a command, in the order of R340. -/
def checksOf (s : State) : Instr → List (Bool × ErrSub)
  | .nop => []
  | .cfg config poly => cfgChecks s config poly
  | .reset | .process | .ended | .getbuf => needConfigured s
  | .noteonPcm trk loopEnabled key vel _ pp base midc loopPos endPos =>
    noteonDecode s trk pp ++ noteonKeyVel key vel ++ pcmChecks s loopEnabled pp base midc loopPos endPos
  | .noteonSq trk _ _ key vel _ pp =>
    noteonDecode s trk pp ++ noteonKeyVel key vel ++ [(!(sqPhaseInc s pp.pitch).isFinite, .phase)]
  | .noteonWave trk key vel _ pp waddr =>
    noteonDecode s trk pp ++ noteonKeyVel key vel ++
      [(decide (s.launch.romSize < waddr.toNat + 16), .wavRange), (!(wavePhaseInc s pp.pitch).isFinite, .phase)]
  | .noteonNoise trk _ key vel _ pp =>
    noteonDecode s trk pp ++ noteonKeyVel key vel ++ [(!(noisePhaseInc s pp.pitch).isFinite, .phase)]
  | .setpitch trk anykey key pitch =>
    needConfigured s ++ needZero (pitch.rsvd == 0) ++ needTrack s trk ++ needKey anykey key
  | .setvol trk vol pan =>
    needConfigured s ++ needTrack s trk ++ [(above127 vol, .volPan), (panIllegal pan, .volPan)]
  | .release trk _ anykey key => needConfigured s ++ needTrack s trk ++ needKey anykey key
  | .trkfine trk _ => needConfigured s ++ needTrack s trk
  | .rdreg reg => [((s.readCR reg.toNat).isNone, .badReg)]

/-- The effect of a command no check of which fails. -/
def effectOf (s : State) : Instr → State
  | .nop => s.advance 1
  | .cfg config poly => cfgEffect config poly s
  | .reset => { s with pool := [] }.advance 1
  | .noteonPcm trk loopEnabled key vel adsr pp base midc loopPos endPos =>
    (s.admitPcm (newVoice (.pcm (pcmData loopEnabled base midc loopPos endPos)) trk key vel adsr pp
      (pcmPhaseInc s ⟨midc⟩ pp.pitch))).advance 7
  | .noteonSq trk unit duty key vel adsr pp =>
    (s.admitCgb (newVoice (.square unit duty) trk key vel adsr pp (sqPhaseInc s pp.pitch))).advance 3
  | .noteonWave trk key vel adsr pp waddr =>
    (s.admitCgb (newVoice (.wave (unpackWave s waddr)) trk key vel adsr pp (wavePhaseInc s pp.pitch))).advance 4
  | .noteonNoise trk pattern key vel adsr pp =>
    (s.admitCgb (newVoice (.noise pattern) trk key vel adsr pp (noisePhaseInc s pp.pitch))).advance 3
  | .setpitch trk anykey key pitch => setpitchEffect trk anykey key pitch.pitch s
  | .setvol trk vol pan => (s.setTrkCtl trk (trkCtlWord vol pan)).advance 1
  | .release trk fast anykey key => { s with pool := releasePool trk fast anykey key s.pool }.advance 1
  | .trkfine trk fine => { s with trkFine := assignBit s.trkFine trk.toNat fine }.advance 1
  | .process => processFrame s
  | .ended => (s.respond (if s.ended then 1 else 0)).advance 1
  | .getbuf => (s.respond s.bufCnt).advance 1
  | .rdreg reg => (s.respond ((s.readCR reg.toNat).getD 0)).advance 1

/-- Every command but PROCESS is its checks and its effect, an error being charged to its track (R332, R340). -/
theorem exec_eq_guarded {i : Instr} (hi : i ≠ .process) (s : State) :
    exec i s = guarded s ((trackOf i).getD 0) i.opcode.words (checksOf s i) fun s => effectOf s i := by
  cases i with
  | process => exact absurd rfl hi
  | _ => rfl

/-- PROCESS stops where it would read outside sample memory, and else is its check and its effect (R244). -/
theorem exec_process_eq (s : State) :
    exec .process s =
      if firstError (needConfigured s) = none ∧ s.samplesInMemory = false then .fault .sampleOutsideMemory
      else guarded s 0 1 (checksOf s .process) fun s => effectOf s .process := by
  simp only [exec, execProcess, checksOf, effectOf, guarded]
  cases firstError (needConfigured s) with
  | some e => simp
  | none => cases s.samplesInMemory <;> simp

/-- Everything a command can do: take its first failing check as its error, or have its effect (R340). -/
theorem exec_cases {i : Instr} {s t : State} (h : exec i s = .next t) :
    (∃ e, firstError (checksOf s i) = some e ∧ t = s.takeError e ((trackOf i).getD 0) i.opcode.words) ∨
    (firstError (checksOf s i) = none ∧ t = effectOf s i) := by
  have hg : exec i s = guarded s ((trackOf i).getD 0) i.opcode.words (checksOf s i) fun s => effectOf s i := by
    by_cases hi : i = .process
    · subst hi
      rw [exec_process_eq] at h ⊢
      split at h
      · cases h
      · next hmem => exact if_neg hmem
    · exact exec_eq_guarded hi s
  rw [hg] at h
  obtain ⟨e, -, he, rfl⟩ | ⟨hpass, rfl⟩ := guarded_cases h
  · exact .inl ⟨e, he, rfl⟩
  · exact .inr ⟨firstError_eq_none.2 hpass, rfl⟩

/-- Everything a step can do: take an error, or have the effect of a command whose checks pass (R108, R340). -/
theorem step_effect {s t : State} (h : step s = .next t) :
    (∃ e trk n, t = s.takeError e trk n) ∨ ∃ i, firstError (checksOf s i) = none ∧ t = effectOf s i := by
  obtain ⟨-, ⟨-, rfl⟩ | ⟨i, n, -, he⟩⟩ := step_cases h
  · exact .inl ⟨_, _, _, rfl⟩
  · obtain ⟨e, -, rfl⟩ | ⟨hpass, rfl⟩ := exec_cases he
    · exact .inl ⟨_, _, _, rfl⟩
    · exact .inr ⟨i, hpass, rfl⟩

/-- A relation between the states before and after a step, from what an error and what each effect does. -/
theorem step_induction {P : State → State → Prop} (herr : ∀ s e trk n, P s (s.takeError e trk n))
    (heff : ∀ s i, firstError (checksOf s i) = none → P s (effectOf s i)) {s t : State} (h : step s = .next t) :
    P s t := by
  obtain ⟨e, trk, n, rfl⟩ | ⟨i, hpass, rfl⟩ := step_effect h
  · exact herr s e trk n
  · exact heff s i hpass

/-! ## The step and the words at `cp` -/

/-- Settles O5: a step that is not halted and finds a whole command runs it. -/
theorem stepRunsDecodedCommand : Obligations.StepRunsDecodedCommand := by
  intro s i n hs hd
  have hf : s.fetch = .command i n := hd
  simp only [step, hs, hf, Bool.false_eq_true, if_false]

/-- Words that hold a part of a command are truncated: its header is legal and some operand word is missing (R113). -/
theorem decode_take_encode {i : Instr} {k : Nat} (hpos : 0 < k) (hk : k < i.opcode.words) :
    decode ((encode i).take k) = .truncated := by
  obtain ⟨h, ops, r, henc, hrow, -, hwords, -⟩ := headerSelectsRow i
  obtain ⟨k, rfl⟩ := Nat.exists_eq_succ_of_ne_zero hpos.ne'
  have hshort : (ops.take k).length + 1 < r.words := by
    rw [List.length_take]
    omega
  rw [henc, List.take_succ_cons, decode_of_row hrow, if_pos hshort]

/-- Settles O6: the halted state is tested before the words, and without a whole command there is nothing to run. -/
theorem noStepWhenHaltedOrWaiting : Obligations.NoStepWhenHaltedOrWaiting := by
  intro s
  refine ⟨fun hs ws => ?halted, fun hs hend => ?noCommand, fun hs i k hpos hk hcmd => ?starved⟩
  case halted =>
    have hplaced : (s.placeWords ws).halt = true := hs
    rw [step, if_pos hplaced]
  case noCommand =>
    have hf : s.fetch = .empty := by rw [State.fetch, State.fetchWords, List.drop_of_length_le hend, decode]
    simp only [step, hs, hf, Bool.false_eq_true, if_false]
  case starved =>
    have hf : s.fetch = .truncated := by rw [State.fetch, State.fetchWords, hcmd, decode_take_encode hpos hk]
    simp only [step, hs, hf, Bool.false_eq_true, if_false]

/-! ## Appended words -/

/-- A whole command decodes to itself whatever follows it (R113). -/
theorem decode_append {ws : List Word} {i : Instr} {n : Nat} (hd : decode ws = .command i n) (more : List Word) :
    decode (ws ++ more) = .command i n := by
  obtain ⟨henc, hn, -⟩ := encodeOfDecode ws i n hd
  rw [← List.take_append_drop n ws, List.append_assoc, ← henc, decodeOfEncode, hn]

/-- An illegal header is illegal whatever follows it (R108). -/
theorem decode_append_illegal {ws : List Word} (hd : decode ws = .illegal) (more : List Word) :
    decode (ws ++ more) = .illegal := by
  cases ws with
  | nil => cases hd
  | cons h rest => exact (decode_eq_illegal_iff h _).2 ((decode_eq_illegal_iff h rest).1 hd)

/-- Where something stands at `cp`, appended words come after it (R84). -/
theorem fetchWords_appendWords {s : State} (hne : s.fetch ≠ .empty) (ws : List Word) :
    (s.appendWords ws).fetchWords = s.fetchWords ++ ws := by
  have hcp : s.cp ≤ s.cmd.length := by
    by_contra hlt
    exact hne (by rw [State.fetch, State.fetchWords, List.drop_of_length_le (by omega), decode])
  exact List.drop_append_of_le_length hcp

/-! ### What a command does not read -/

theorem takeError_appendWords (s : State) (e : ErrSub) (trk : BitVec 4) (n : Nat) (ws : List Word) :
    (s.appendWords ws).takeError e trk n = (s.takeError e trk n).appendWords ws := by
  cases hk : e.kind <;> simp only [State.takeError, hk] <;> rfl

theorem placeVoice_appendWords (s : State) (v : Voice) (ws : List Word) :
    (s.appendWords ws).placeVoice v = (s.placeVoice v).appendWords ws := by
  have hroom : (s.appendWords ws).poolHasRoom = s.poolHasRoom := rfl
  unfold State.placeVoice
  rw [hroom]
  split
  · rfl
  · exact takeError_appendWords s _ _ 0 ws

theorem admitCgb_appendWords (s : State) (v : Voice) (ws : List Word) :
    (s.appendWords ws).admitCgb v = (s.admitCgb v).appendWords ws :=
  placeVoice_appendWords (s.cgbPreempt v.track v.kind) v ws

theorem admitPcm_appendWords (s : State) (v : Voice) (ws : List Word) :
    (s.appendWords ws).admitPcm v = (s.admitPcm v).appendWords ws := by
  have hcount : (s.appendWords ws).pcmCount = s.pcmCount := rfl
  unfold State.admitPcm
  rw [hcount, appendWords_poly, appendWords_pool]
  split
  · exact placeVoice_appendWords s v ws
  · split
    · exact takeError_appendWords s _ _ 0 ws
    · rfl

theorem setpitchEffect_appendWords (s : State) (trk : BitVec 4) (anykey : Bool) (key : Byte) (pitch : BitVec 16)
    (ws : List Word) :
    setpitchEffect trk anykey key pitch (s.appendWords ws) = (setpitchEffect trk anykey key pitch s).appendWords ws := by
  have hrepitch : repitch (s.appendWords ws) trk anykey key pitch = repitch s trk anykey key pitch := rfl
  unfold setpitchEffect
  rw [hrepitch, appendWords_pool]
  dsimp only
  split
  · exact takeError_appendWords { s with pool := _ } _ _ 2 ws
  · rfl

theorem renderVoice_appendWords (s : State) (ws : List Word) (n : Nat) (v : Voice) :
    renderVoice (s.appendWords ws) n v = renderVoice s n v := by
  induction n generalizing v with
  | zero => rfl
  | succ n ih =>
    have hone : contribution (s.appendWords ws) v = contribution s v := rfl
    simp only [renderVoice, ih, hone]

theorem subBlock_appendWords (s : State) (ws : List Word) : subBlock (s.appendWords ws) = subBlock s := by
  have hpool (lo n : Nat) (vs : List Voice) (bufs : List (List Stereo)) :
      renderPool (s.appendWords ws) lo n vs bufs = renderPool s lo n vs bufs := by
    refine Prod.ext ?_ ?_
    · simp only [renderPool_fst, renderVoice_appendWords]
    · simp only [renderPool_snd, renderVoice_appendWords]
  have htick (q : Nat) : tickEnvelope (s.appendWords ws) q = tickEnvelope s q := rfl
  have hb : (s.appendWords ws).blockSamples = s.blockSamples := rfl
  funext pb q
  simp only [subBlock, hpool, htick, hb]

theorem processFrame_appendWords (s : State) (ws : List Word) :
    processFrame (s.appendWords ws) = (processFrame s).appendWords ws := by
  have hframe : produceFrame (s.appendWords ws) = produceFrame s := by
    unfold produceFrame
    rw [subBlock_appendWords]
    rfl
  have hrev : reverbTracks (s.appendWords ws) = reverbTracks s := rfl
  unfold processFrame
  rw [hframe, hrev]
  rfl

/-- No effect reads the command stream. -/
theorem effectOf_appendWords (s : State) (i : Instr) (ws : List Word) :
    effectOf (s.appendWords ws) i = (effectOf s i).appendWords ws := by
  cases i with
  | noteonPcm => exact congrArg (·.advance 7) (admitPcm_appendWords s _ ws)
  | noteonSq | noteonNoise => exact congrArg (·.advance 3) (admitCgb_appendWords s _ ws)
  | noteonWave => exact congrArg (·.advance 4) (admitCgb_appendWords s _ ws)
  | setpitch => exact setpitchEffect_appendWords ..
  | process => exact processFrame_appendWords s ws
  | nop | cfg | reset | setvol | release | trkfine | ended | getbuf | rdreg => rfl

/-- No check reads the command stream. -/
theorem checksOf_appendWords (s : State) (i : Instr) (ws : List Word) :
    checksOf (s.appendWords ws) i = checksOf s i := by
  cases i <;> rfl

/-- A guarded effect with words appended is the effect with the words appended after it. -/
theorem guarded_appendWords {i : Instr} {s t : State} {trk : BitVec 4} {n : Nat}
    (h : guarded s trk n (checksOf s i) (fun s => effectOf s i) = .next t) (ws : List Word) :
    guarded (s.appendWords ws) trk n (checksOf (s.appendWords ws) i) (fun s => effectOf s i) =
      .next (t.appendWords ws) := by
  unfold guarded at h ⊢
  rw [checksOf_appendWords]
  split at h
  · injection h with h
    rw [takeError_appendWords, h]
  · injection h with h
    dsimp only at h ⊢
    rw [effectOf_appendWords, h]

/-- A command does in a state with words appended what it does without them. -/
theorem exec_appendWords {i : Instr} {s t : State} (h : exec i s = .next t) (ws : List Word) :
    exec i (s.appendWords ws) = .next (t.appendWords ws) := by
  by_cases hi : i = .process
  · subst hi
    rw [exec_process_eq] at h ⊢
    split at h
    · cases h
    · next hmem => exact (if_neg hmem).trans (guarded_appendWords h ws)
  · rw [exec_eq_guarded hi] at h ⊢
    exact guarded_appendWords h ws

/-- Settles O7: what stands at `cp` decodes as before, and no command reads the rest of the stream. -/
theorem appendedWordsChangeNoStep : Obligations.AppendedWordsChangeNoStep := by
  intro s t ws h
  obtain ⟨hs, hcase⟩ := step_cases h
  have hs' : (s.appendWords ws).halt = false := hs
  have hne : s.fetch ≠ .empty := by
    obtain ⟨hf, -⟩ | ⟨i, n, hf, -⟩ := hcase <;> simp [hf]
  have hfetch : (s.appendWords ws).fetch = decode (s.fetchWords ++ ws) :=
    congrArg decode (fetchWords_appendWords hne ws)
  obtain ⟨hf, rfl⟩ | ⟨i, n, hf, he⟩ := hcase
  · rw [decode_append_illegal hf] at hfetch
    simp only [step, hs', hfetch, Bool.false_eq_true, if_false, takeError_appendWords]
  · rw [decode_append hf] at hfetch
    exact (stepRunsDecodedCommand _ i n hs' hfetch).trans (exec_appendWords he ws)

end Sys2Proof.Machine
end

section
/-!
PROOFS. What a step writes and what it keeps (10_state R30 to R62; 20_memory R71, R84): the inputs of the launch, the state
each command may write, the sticky bits and the output streams.
-/

namespace Sys2Proof.Machine

/-! ## SETPITCH -/

/-- SETPITCH changes the pool, and then moves on or takes one DataError PHASE (R175). -/
theorem setpitchEffect_cases (trk : BitVec 4) (anykey : Bool) (key : Byte) (pitch : BitVec 16) (s : State) :
    let t := { s with pool := s.pool.filterMap (repitch s trk anykey key pitch) }
    setpitchEffect trk anykey key pitch s = t.takeError .phase trk 2 ∨
      setpitchEffect trk anykey key pitch s = t.advance 2 := by
  unfold setpitchEffect
  dsimp only
  split
  · exact .inl rfl
  · exact .inr rfl

/-! ## The inputs of a launch -/

/-- Two states with the same sample memory, launch record and command stream (R361). -/
def SameInputs (s t : State) : Prop := t.mem = s.mem ∧ t.launch = s.launch ∧ t.cmd = s.cmd

theorem takeError_sameInputs (s : State) (e : ErrSub) (trk : BitVec 4) (n : Nat) : SameInputs s (s.takeError e trk n) := by
  simp [SameInputs]

/-- No effect changes the inputs (R71, R84, R361). -/
theorem effectOf_sameInputs (s : State) (i : Instr) : SameInputs s (effectOf s i) := by
  cases i with
  | setpitch trk anykey key pitch =>
    obtain h | h := setpitchEffect_cases trk anykey key pitch.pitch s <;> rw [effectOf, h] <;> simp [SameInputs]
  | _ => simp [SameInputs, effectOf]

/-- No step changes the inputs (R71, R84, R361). -/
theorem step_sameInputs {s t : State} (h : step s = .next t) : SameInputs s t :=
  step_induction takeError_sameInputs (fun s i _ => effectOf_sameInputs s i) h

/-- Settles O50: sample memory is read from a field no step changes. -/
theorem inputsNeverChange : Obligations.InputsNeverChange := by
  intro s t h
  obtain ⟨hmem, hlaunch, hcmd⟩ := step_sameInputs h
  exact ⟨fun a => congrArg (Memory.read · a) hmem, hmem, hlaunch, hcmd⟩

/-! ## Which command writes what -/

/-- The state a command may write, for the fields that belong to some commands alone (10_state sections 3 to 7). -/
def WritesItsOwn (i : Instr) (s t : State) : Prop :=
  (i.opcode ≠ .cfg → t.config = s.config ∧ t.poly = s.poly ∧ t.mixRate = s.mixRate ∧ t.bufCnt = s.bufCnt) ∧
  (i.opcode ≠ .setvol → t.trkCtl = s.trkCtl) ∧
  (i.opcode ≠ .process → t.audio = s.audio) ∧
  (i.opcode ≠ .cfg → i.opcode ≠ .process → t.rev = s.rev) ∧
  (i.opcode ∉ [.ended, .getbuf, .rdreg] → t.responses = s.responses) ∧
  (i.opcode ∉ [.noteonPcm, .noteonSq, .noteonWave, .noteonNoise, .setpitch, .release, .reset, .process] →
    t.pool = s.pool)

/-- An error writes none of these fields. -/
theorem takeError_writesItsOwn (i : Instr) (s : State) (e : ErrSub) (trk : BitVec 4) (n : Nat) :
    WritesItsOwn i s (s.takeError e trk n) := by
  simp [WritesItsOwn]

theorem effectOf_writesItsOwn (i : Instr) (s : State) : WritesItsOwn i s (effectOf s i) := by
  cases i with
  | setpitch trk anykey key pitch =>
    obtain h | h := setpitchEffect_cases trk anykey key pitch.pitch s <;> rw [effectOf, h] <;>
      simp [WritesItsOwn, Instr.opcode]
  | _ => simp [WritesItsOwn, effectOf, Instr.opcode]

/-- Settles O51: an error writes none of these fields, and each effect writes its own. -/
theorem whoWritesWhat : Obligations.WhoWritesWhat := by
  intro i s t h
  obtain ⟨e, -, rfl⟩ | ⟨-, rfl⟩ := exec_cases h
  · exact takeError_writesItsOwn i s e _ _
  · exact effectOf_writesItsOwn i s

/-! ## What is never forgotten -/

/-- Every bit of the one word is a bit of the other. -/
def KeepsBits (w x : Word) : Prop := ∀ k, w.getLsbD k = true → x.getLsbD k = true

theorem KeepsBits.refl (w : Word) : KeepsBits w w := fun _ h => h

theorem setBit_keepsBits (w : Word) (i : Nat) : KeepsBits w (setBit w i) := by
  intro k hk
  rw [setBit, BitVec.getLsbD_or, hk, Bool.true_or]

/-- The bits of STATUS and TRKERR stay set, and the output streams only grow (R34, R38, R61, R62). -/
structure Remembers (s t : State) : Prop where
  status : KeepsBits s.status t.status
  trkErr : KeepsBits s.trkErr t.trkErr
  responses : s.responses <+: t.responses
  audio : s.audio <+: t.audio

/-- A state with these fields as they were. -/
theorem Remembers.of_eq {s t : State} (hstatus : t.status = s.status) (htrkErr : t.trkErr = s.trkErr)
    (hresponses : t.responses = s.responses) (haudio : t.audio = s.audio) : Remembers s t :=
  ⟨hstatus ▸ .refl _, htrkErr ▸ .refl _, hresponses ▸ List.prefix_rfl, haudio ▸ List.prefix_rfl⟩

/-- An error sets bits and clears none (R333 to R339). -/
theorem takeError_remembers (s : State) (e : ErrSub) (trk : BitVec 4) (n : Nat) : Remembers s (s.takeError e trk n) := by
  refine ⟨?status, ?trkErr, by simp, by simp⟩
  case status => cases hk : e.kind <;> simp only [State.takeError, hk] <;> exact setBit_keepsBits s.status _
  case trkErr =>
    cases hk : e.kind <;> simp only [State.takeError, hk]
    case data => exact setBit_keepsBits s.trkErr _
    all_goals exact .refl _

theorem placeVoice_remembers (s : State) (v : Voice) : Remembers s (s.placeVoice v) := by
  unfold State.placeVoice
  split
  · exact .of_eq rfl rfl rfl rfl
  · exact takeError_remembers s _ _ 0

theorem admitPcm_remembers (s : State) (v : Voice) : Remembers s (s.admitPcm v) := by
  unfold State.admitPcm
  split
  · exact placeVoice_remembers s v
  · split
    · exact takeError_remembers s _ _ 0
    · exact .of_eq rfl rfl rfl rfl

/-- No effect clears a sticky bit or takes back an output. -/
theorem effectOf_remembers (s : State) (i : Instr) : Remembers s (effectOf s i) := by
  cases i with
  | cfg c p => exact ⟨setBit_keepsBits s.status _, .refl _, List.prefix_rfl, List.prefix_rfl⟩
  | noteonPcm =>
    obtain ⟨hstatus, htrkErr, hresponses, haudio⟩ := admitPcm_remembers s _
    exact ⟨hstatus, htrkErr, hresponses, haudio⟩
  | noteonSq | noteonWave | noteonNoise =>
    obtain ⟨hstatus, htrkErr, hresponses, haudio⟩ := placeVoice_remembers (s.cgbPreempt _ _) _
    exact ⟨hstatus, htrkErr, hresponses, haudio⟩
  | setpitch trk anykey key pitch =>
    obtain h | h := setpitchEffect_cases trk anykey key pitch.pitch s <;> rw [effectOf, h]
    · obtain ⟨hstatus, htrkErr, hresponses, haudio⟩ := takeError_remembers { s with pool := _ } .phase trk 2
      exact ⟨hstatus, htrkErr, hresponses, haudio⟩
    · exact .of_eq rfl rfl rfl rfl
  | process => exact ⟨.refl _, .refl _, List.prefix_rfl, List.prefix_append ..⟩
  | ended | getbuf | rdreg => exact ⟨.refl _, .refl _, List.prefix_append .., List.prefix_rfl⟩
  | nop | reset | setvol | release | trkfine => exact .of_eq rfl rfl rfl rfl

/-- Settles O52: CONFIGURED, DROP and DATAERR are bits of STATUS, of which none is ever cleared. -/
theorem nothingIsForgotten : Obligations.NothingIsForgotten := by
  intro s t h
  obtain ⟨hstatus, htrkErr, hresponses, haudio⟩ :=
    step_induction takeError_remembers (fun s i _ => effectOf_remembers s i) h
  exact ⟨hstatus 0, hstatus 2, hstatus 4, htrkErr, hresponses, haudio⟩

end Sys2Proof.Machine
end

section
/-!
PROOFS. The errors of the commands in their order (60_exceptions R332, R340): BADTRK, the value errors of the notes
(42_pcm_channel R170; 43_cgb_channels R190, R196, R201), and CFG (45_stream_generator R241).
-/

namespace Sys2Proof.Machine

/-! ## The first failing check -/

/-- A failing check decides, whatever checks follow it (R340). -/
theorem firstError_append_some {l : List (Bool × ErrSub)} {e : ErrSub} (h : firstError l = some e)
    (rest : List (Bool × ErrSub)) : firstError (l ++ rest) = some e := by
  induction l with
  | nil => cases h
  | cons c l ih =>
    obtain ⟨failed, f⟩ := c
    cases failed with
    | true => exact h
    | false => exact ih h

/-! ## BADTRK -/

/-- A track that is not in use fails the decode checks of a NOTEON (R340). -/
theorem noteonDecode_badTrk {s : State} {trk : BitVec 4} {pp : PitchPrio} (hs : s.configured = true)
    (hpp : pp.wf = true) (htrk : s.trackLimit ≤ trk.toNat) : firstError (noteonDecode s trk pp) = some .badTrk := by
  have hrsvd : pp.rsvd = 0 := eq_of_beq hpp
  simp [noteonDecode, needConfigured, needZero, needTrack, firstError_cons, hs, hrsvd, htrk]

/-- A track that is not in use is the first failing check of every command that names one (R340). -/
theorem checksOf_badTrk {s : State} {i : Instr} {trk : BitVec 4} (hs : s.configured = true) (hwf : i.wf = true)
    (hi : trackOf i = some trk) (htrk : s.trackLimit ≤ trk.toNat) : firstError (checksOf s i) = some .badTrk := by
  cases i with
  | nop | cfg | reset | process | ended | getbuf | rdreg => cases hi
  | noteonPcm | noteonSq | noteonWave | noteonNoise =>
    obtain rfl := Option.some.inj hi
    rw [checksOf, List.append_assoc]
    exact firstError_append_some (noteonDecode_badTrk hs hwf htrk) _
  | setpitch _ _ _ pitch =>
    obtain rfl := Option.some.inj hi
    have hrsvd : pitch.rsvd = 0 := eq_of_beq hwf
    simp [checksOf, needConfigured, needZero, needTrack, firstError_cons, hs, hrsvd, htrk]
  | setvol | release | trkfine =>
    obtain rfl := Option.some.inj hi
    simp [checksOf, needConfigured, needTrack, firstError_cons, hs, htrk]

/-- Settles O11: the track is tested before every value. -/
theorem trackOutOfRangeHalts : Obligations.TrackOutOfRangeHalts := by
  intro s i trk hs hwf hi htrk
  have hne : i ≠ .process := by
    rintro rfl
    cases hi
  rw [exec_eq_guarded hne]
  exact guarded_fatal (checksOf_badTrk hs hwf hi htrk) rfl

/-! ## The value errors of the notes -/

/-- A NOTEON on a ready track with a key or velocity above 127 is the DataError KEYVEL (R98, R332). -/
theorem guarded_keyVel {s : State} {trk : BitVec 4} {key vel : Byte} {pp : PitchPrio} (hs : trackReady s trk)
    (hpp : pp.rsvd = 0) (hkv : 127 < key.toNat ∨ 127 < vel.toNat) (n : Nat) (values : List (Bool × ErrSub))
    (effect : State → State) :
    guarded s trk n (noteonDecode s trk pp ++ noteonKeyVel key vel ++ values) effect =
      .next (afterDataError s 0x10 trk n) := by
  obtain ⟨hconf, htrk⟩ := hs
  have herr : firstError (noteonDecode s trk pp ++ noteonKeyVel key vel) = some .keyVel := by
    simp [noteonDecode, noteonKeyVel, needConfigured, needZero, needTrack, firstError_cons, above127, hconf, hpp,
      Nat.not_le.2 htrk, hkv]
  exact guarded_data (firstError_append_some herr values) rfl

/-- Settles O12: the four NOTEONs share their decode and KEYVEL checks. -/
theorem keyOrVelocityAbove127 : Obligations.KeyOrVelocityAbove127 := by
  intro s trk key vel adsr pp hs hpp hkv
  refine ⟨fun l base midc loopPos endPos => ?pcm, fun u d => ?square, fun waddr => ?wave, fun n => ?noise⟩
  case pcm => rw [exec]; exact guarded_keyVel hs hpp hkv 7 _ _
  case square => rw [exec]; exact guarded_keyVel hs hpp hkv 3 _ _
  case wave => rw [exec]; exact guarded_keyVel hs hpp hkv 4 _ _
  case noise => rw [exec]; exact guarded_keyVel hs hpp hkv 3 _ _

/-- A ready note that fails a value check takes that check's DataError (R338, R340). -/
theorem guarded_value_error {s : State} {trk : BitVec 4} {key vel : Byte} {pp : PitchPrio}
    (hs : noteReady s trk key vel pp) {values : List (Bool × ErrSub)} {e : ErrSub} (herr : firstError values = some e)
    (he : e.kind = .data) (n : Nat) (effect : State → State) :
    guarded s trk n (noteonDecode s trk pp ++ noteonKeyVel key vel ++ values) effect =
      .next (afterDataError s e.code trk n) :=
  guarded_data ((firstError_append (firstError_of_noteReady hs) values).trans herr) he

/-- The value error of a NOTEON.PCM that is not ready, in the order of R170. -/
def pcmValueError (s : State) (l : Bool) (base midc loopPos endPos : Word) : ErrSub :=
  if F32.isPosFinite ⟨midc⟩ = false then .midc
  else if l = true ∧ endPos.toNat < loopPos.toNat then .loopInv
  else if s.launch.romSize < base.toNat + endPos.toNat then .smpRange
  else .phase

theorem firstError_pcmChecks {s : State} {l : Bool} {pp : PitchPrio} {base midc loopPos endPos : Word}
    (h : ¬ pcmReady s l pp base midc loopPos endPos) :
    firstError (pcmChecks s l pp base midc loopPos endPos) = some (pcmValueError s l base midc loopPos endPos) := by
  by_cases hmidc : F32.isPosFinite ⟨midc⟩ = true
  · by_cases hloop : l = true ∧ endPos.toNat < loopPos.toNat
    · simp [pcmChecks, pcmValueError, firstError_cons, hmidc, hloop]
    · by_cases hrange : s.launch.romSize < base.toNat + endPos.toNat
      · simp [pcmChecks, pcmValueError, firstError_cons, hmidc, hloop, hrange]
      · have hphase : (pcmPhaseInc s ⟨midc⟩ pp.pitch).isFinite = false := by
          rw [← Bool.not_eq_true]
          intro hfin
          exact h ⟨hmidc, fun hl => Nat.not_lt.1 fun hlt => hloop ⟨hl, hlt⟩, Nat.not_lt.1 hrange, hfin⟩
        simp [pcmChecks, pcmValueError, firstError_cons, hmidc, hloop, hrange, hphase]
  · simp [pcmChecks, pcmValueError, firstError_cons, hmidc]

/-- Settles O13: one of the four checks fails, and the first of them names the error. -/
theorem pcmValueErrorsInOrder : Obligations.PcmValueErrorsInOrder := by
  intro s trk l key vel adsr pp base midc loopPos endPos hs hvalues
  have hkind : (pcmValueError s l base midc loopPos endPos).kind = .data := by
    unfold pcmValueError
    repeat' split
    all_goals rfl
  have hcode : (pcmValueError s l base midc loopPos endPos).code =
      if F32.isPosFinite ⟨midc⟩ = false then 0x14
      else if l = true ∧ endPos.toNat < loopPos.toNat then 0x13
      else if s.launch.romSize < base.toNat + endPos.toNat then 0x12
      else 0x15 := by
    unfold pcmValueError
    simp only [apply_ite ErrSub.code]
    rfl
  rw [← hcode, exec]
  exact guarded_value_error hs (firstError_pcmChecks hvalues) hkind 7 _

/-- Settles O14: the single check of square and noise, and the two checks of the wave note in their order. -/
theorem cgbValueErrors : Obligations.CgbValueErrors := by
  intro s trk key vel adsr pp hs
  have hphase {inc : F32} (hinf : inc.isFinite = false) : firstError [(!inc.isFinite, .phase)] = some .phase := by
    simp [firstError_cons, hinf]
  refine ⟨fun u d hinf => ?square, fun n hinf => ?noise, fun waddr hrange => ?wavRange, fun waddr hrange hinf => ?phase⟩
  case square => rw [exec]; exact guarded_value_error hs (hphase hinf) rfl 3 _
  case noise => rw [exec]; exact guarded_value_error hs (hphase hinf) rfl 3 _
  case wavRange =>
    rw [exec]
    exact guarded_value_error (e := .wavRange) hs (by simp [firstError_cons, hrange]) rfl 4 _
  case phase =>
    rw [exec]
    exact guarded_value_error (e := .phase) hs (by simp [firstError_cons, hinf, Nat.not_lt.2 hrange]) rfl 4 _

/-! ## CFG -/

/-- The variants that RevTaps describes are the codes 1 to 3 (R30, R285). -/
theorem revUsesTaps_iff (t : BitVec 3) : revUsesTaps t = true ↔ 1 ≤ t.toNat ∧ t.toNat ≤ 3 := by
  revert t
  decide

/-- The value checks of CFG, which stand behind RECFG and CFGRSVD (R241). -/
def cfgValueChecks (s : State) (c : Word) : List (Bool × ErrSub) :=
  [((mixRateOf s.launch (cfgEngineFreq c)).isNone, .badFreq),
   (decide (4 < (cfgRevType c).toNat), .badRev),
   (cfgResamp c == 3, .badResamp),
   (cfgTrackLimit c == 0 || decide (Config.trackMax < (cfgTrackLimit c).toNat), .badTracks),
   (decide (cfgBlock s c < 4), .blockSmall),
   (revUsesTaps (cfgRevType c) && (revTapsOf s.launch (cfgRevType c) (cfgEngineRev c) (cfgBlock s c)).isNone, .noRevParam)]

/-- On an unconfigured block and with the reserved bits zero, the value checks decide (R241, R340). -/
theorem firstError_cfgChecks {s : State} {c p : Word} (hs : s.configured = false) (hwf : (Instr.cfg c p).wf = true) :
    firstError (cfgChecks s c p) = firstError (cfgValueChecks s c) := by
  have hbits : (cfgReserved c != 0 || polyReserved p != 0) = false := by
    simpa [Instr.wf, configWordWf, polyWordWf, cfgReserved, polyReserved] using hwf
  rw [cfgChecks, firstError_cons, firstError_cons, hs, hbits]
  rfl

/-- A number of tracks is legal from 1 to 16 (R30, R241). -/
theorem trackLimit_illegal_iff (c : Word) :
    (cfgTrackLimit c == 0 || decide (Config.trackMax < (cfgTrackLimit c).toNat)) = true ↔
      (cfgTrackLimit c).toNat = 0 ∨ 16 < (cfgTrackLimit c).toNat := by
  have hzero : cfgTrackLimit c = 0 ↔ (cfgTrackLimit c).toNat = 0 := BitVec.toNat_inj.symm
  rw [Bool.or_eq_true, beq_iff_eq, decide_eq_true_eq, hzero, Config.trackMax]

/-- The mix rate and the block that a given rate leads to (R10, R12). -/
theorem cfgMixRate_of_some {s : State} {c rate : Word} (hrate : mixRateOf s.launch (cfgEngineFreq c) = some rate) :
    cfgMixRate s c = rate ∧ cfgBlock s c = rate.toNat / 60 := by
  have h : cfgMixRate s c = rate := by rw [cfgMixRate, hrate]; rfl
  exact ⟨h, by rw [cfgBlock, h]; rfl⟩

/-- The value checks of a legal CFG pass (R241). -/
theorem cfgValueChecks_pass {s : State} {c rate : Word} (hrate : mixRateOf s.launch (cfgEngineFreq c) = some rate)
    (hrev : (cfgRevType c).toNat ≤ 4) (hresamp : cfgResamp c ≠ 3) (hlo : 1 ≤ (cfgTrackLimit c).toNat)
    (hhi : (cfgTrackLimit c).toNat ≤ 16) (hblock : 4 ≤ rate.toNat / 60)
    (htaps : 1 ≤ (cfgRevType c).toNat ∧ (cfgRevType c).toNat ≤ 3 →
      (revTapsOf s.launch (cfgRevType c) (cfgEngineRev c) (rate.toNat / 60)).isSome = true) :
    firstError (cfgValueChecks s c) = none := by
  have htracks : ¬ (cfgTrackLimit c == 0 || decide (Config.trackMax < (cfgTrackLimit c).toNat)) = true := by
    rw [trackLimit_illegal_iff]
    omega
  have hgiven : (revUsesTaps (cfgRevType c) &&
      (revTapsOf s.launch (cfgRevType c) (cfgEngineRev c) (rate.toNat / 60)).isNone) = false := by
    cases hu : revUsesTaps (cfgRevType c) with
    | false => rfl
    | true => simpa using htaps ((revUsesTaps_iff _).1 hu)
  rw [cfgValueChecks, (cfgMixRate_of_some hrate).2]
  simp only [firstError_cons, hrate, htracks, hgiven, Nat.not_lt.2 hrev, Nat.not_lt.2 hblock, beq_eq_false_iff_ne.2 hresamp,
    Option.isNone_some, decide_false, Bool.false_eq_true, if_false, firstError_nil]

/-- Settles O15: every check passes, and the effect writes what the rate and the words give. -/
theorem cfgConfigures : Obligations.CfgConfigures := by
  intro s c p rate hs hwf hrate hrev hresamp hlo hhi hblock htaps
  obtain ⟨hmix, hb⟩ := cfgMixRate_of_some hrate
  have hpass : firstError (cfgChecks s c p) = none :=
    (firstError_cfgChecks hs hwf).trans (cfgValueChecks_pass hrate hrev hresamp hlo hhi hblock htaps)
  rw [exec, execCfg, guarded_of_pass (firstError_eq_none.1 hpass), cfgEffect, hmix, hb]
  simp only [statusConfiguredBit, setBit_eq_or_twoPow]
  rfl

/-- Settles O16: each check is the first failing one where those before it pass. -/
theorem cfgRefusesInOrder : Obligations.CfgRefusesInOrder := by
  intro s c p hs hwf
  have hfail {e : ErrSub} (herr : firstError (cfgValueChecks s c) = some e) (hfatal : e.kind.fatal = true) :
      exec (.cfg c p) s = .next (afterFatal s (e.kind.code + e.code * 2 ^ 4)) :=
    guarded_fatal ((firstError_cfgChecks hs hwf).trans herr) hfatal
  refine ⟨fun (hnone : mixRateOf s.launch (cfgEngineFreq c) = none) => hfail (e := .badFreq) ?badFreq rfl,
    fun rate (hrate : mixRateOf s.launch (cfgEngineFreq c) = some rate) =>
    ⟨fun (hrev : 4 < (cfgRevType c).toNat) => hfail (e := .badRev) ?badRev rfl,
    fun (hrev : (cfgRevType c).toNat ≤ 4) =>
    ⟨fun (hresamp : cfgResamp c = 3) => hfail (e := .badResamp) ?badResamp rfl,
    fun (hresamp : cfgResamp c ≠ 3) =>
    ⟨fun htracks => hfail (e := .badTracks) ?badTracks rfl,
    fun (hlo : 1 ≤ (cfgTrackLimit c).toNat) (hhi : (cfgTrackLimit c).toNat ≤ 16) =>
    ⟨fun hblock => hfail (e := .blockSmall) ?blockSmall rfl,
    fun hblock (hone : 1 ≤ (cfgRevType c).toNat) (hthree : (cfgRevType c).toNat ≤ 3)
      (htaps : revTapsOf s.launch (cfgRevType c) (cfgEngineRev c) (rate.toNat / 60) = none) =>
      hfail (e := .noRevParam) ?noRevParam rfl⟩⟩⟩⟩⟩
  case badFreq => simp [cfgValueChecks, firstError_cons, hnone]
  case badRev => simp [cfgValueChecks, firstError_cons, hrate, hrev]
  case badResamp => simp [cfgValueChecks, firstError_cons, hrate, Nat.not_lt.2 hrev, hresamp]
  case badTracks =>
    have hbad := (trackLimit_illegal_iff c).2 htracks
    simp only [cfgValueChecks, firstError_cons, hrate, Nat.not_lt.2 hrev, beq_eq_false_iff_ne.2 hresamp, hbad,
      Option.isNone_some, decide_false, Bool.false_eq_true, if_false, if_true]
  all_goals
    have hgood : ¬ (cfgTrackLimit c == 0 || decide (Config.trackMax < (cfgTrackLimit c).toNat)) = true := by
      rw [trackLimit_illegal_iff]
      omega
  case blockSmall =>
    simp only [cfgValueChecks, firstError_cons, hrate, Nat.not_lt.2 hrev, beq_eq_false_iff_ne.2 hresamp, hgood,
      (cfgMixRate_of_some hrate).2, hblock, Option.isNone_some, decide_false, decide_true, Bool.false_eq_true, if_false,
      if_true]
  case noRevParam =>
    simp only [cfgValueChecks, firstError_cons, hrate, Nat.not_lt.2 hrev, beq_eq_false_iff_ne.2 hresamp, hgood,
      (cfgMixRate_of_some hrate).2, Nat.not_lt.2 hblock, (revUsesTaps_iff _).2 ⟨hone, hthree⟩, htaps, Option.isNone_some,
      Option.isNone_none, Bool.and_self, decide_false, Bool.false_eq_true, if_false, if_true]

end Sys2Proof.Machine
end

section
/-!
PROOFS. The notes that are created or dropped (42_pcm_channel R170; 43_cgb_channels R190, R196, R201) and the polyphony
budget (44_voice_allocation R224 to R231).
-/

namespace Sys2Proof.Machine

/-! ## Notes with room in the pool -/

/-- With room in the pool a placed voice goes to its end (R229, R231). -/
theorem placeVoice_of_room {s : State} (hroom : roomFor s) (v : Voice) :
    s.placeVoice v = { s with pool := s.pool ++ [v] } :=
  if_pos ((poolHasRoom_iff s).2 hroom)

/-- Settles O24: below the budget the voice is placed, and the pool has room. -/
theorem noteonPcmBelowBudget : Obligations.NoteonPcmBelowBudget := by
  intro s trk l key vel adsr pp base midc loopPos endPos hs hvalues hbudget hroom
  rw [← pcmCount_eq] at hbudget
  rw [exec_noteonPcm_of_ready hs hvalues, admitPcm_of_below_budget hbudget, placeVoice_of_room hroom]
  rfl

/-- The PHASE check passes where the new `phaseInc` is finite (R190, R201). -/
theorem phaseCheck_pass {inc : F32} (hfin : inc.isFinite = true) : firstError [(!inc.isFinite, .phase)] = none := by
  simp [firstError_cons, hfin]

/-- The kind of a square voice is that of its unit (R45). -/
theorem noteVoice_square_kind (u : SqUnit) (d : Duty) (trk : BitVec 4) (key vel : Byte) (adsr : Adsr) (pp : PitchPrio)
    (inc : F32) :
    (noteVoice (.square u d) trk key vel adsr pp inc).kind = match u with | .sq1 => .sq1 | .sq2 => .sq2 := by
  cases u <;> rfl

/-- A legal NOTEON.SQ asks for the admission of its voice and goes on (R190). -/
theorem exec_noteonSq_of_ready {s : State} {trk : BitVec 4} {key vel : Byte} {pp : PitchPrio}
    (hs : noteReady s trk key vel pp) (hfin : (sqPhaseInc s pp.pitch).isFinite = true) (u : SqUnit) (d : Duty)
    (adsr : Adsr) :
    exec (.noteonSq trk u d key vel adsr pp) s =
      .next ((s.admitCgb (noteVoice (.square u d) trk key vel adsr pp (sqPhaseInc s pp.pitch))).advance 3) := by
  rw [exec, execNoteonSq, guarded_of_noteReady hs (phaseCheck_pass hfin), newVoice_eq_noteVoice]

/-- A legal NOTEON.WAVE asks for the admission of its voice and goes on (R196). -/
theorem exec_noteonWave_of_ready {s : State} {trk : BitVec 4} {key vel : Byte} {pp : PitchPrio} {waddr : Word}
    (hs : noteReady s trk key vel pp) (hrange : waddr.toNat + 16 ≤ s.launch.romSize)
    (hfin : (wavePhaseInc s pp.pitch).isFinite = true) (adsr : Adsr) :
    exec (.noteonWave trk key vel adsr pp waddr) s =
      .next ((s.admitCgb (noteVoice (.wave (unpackWave s waddr)) trk key vel adsr pp
        (wavePhaseInc s pp.pitch))).advance 4) := by
  rw [exec, execNoteonWave, guarded_of_noteReady hs (waveChecks_pass hrange hfin), newVoice_eq_noteVoice]

/-- A legal NOTEON.NOISE asks for the admission of its voice and goes on (R201). -/
theorem exec_noteonNoise_of_ready {s : State} {trk : BitVec 4} {key vel : Byte} {pp : PitchPrio}
    (hs : noteReady s trk key vel pp) (hfin : (noisePhaseInc s pp.pitch).isFinite = true) (n : NoisePattern)
    (adsr : Adsr) :
    exec (.noteonNoise trk n key vel adsr pp) s =
      .next ((s.admitCgb (noteVoice (.noise n) trk key vel adsr pp (noisePhaseInc s pp.pitch))).advance 3) := by
  rw [exec, execNoteonNoise, guarded_of_noteReady hs (phaseCheck_pass hfin), newVoice_eq_noteVoice]

/-- Settles O28: the checks pass, and the admission preempts the unit's kind before it places the voice. -/
theorem noteonSqPreemptsAndCreates : Obligations.NoteonSqPreemptsAndCreates := by
  intro s trk u d key vel adsr pp hs hfin hroom
  rw [exec_noteonSq_of_ready hs hfin, admitCgb_of_room hroom, noteVoice_square_kind]
  rfl

/-- The LFSR of a new noise voice is the seed, all ones in the width of its pattern (R202). -/
theorem noteVoice_lfsr (n : NoisePattern) (trk : BitVec 4) (key vel : Byte) (adsr : Adsr) (pp : PitchPrio) (inc : F32) :
    (noteVoice (.noise n) trk key vel adsr pp inc).lfsr = some (match n with | .fine => 0x7FFF#15 | .rough => 0x7F#15) := by
  cases n <;> rfl

/-- Settles O30: as the square note, with the LFSR at `ipos = 0`. -/
theorem noteonNoisePreemptsAndCreates : Obligations.NoteonNoisePreemptsAndCreates := by
  intro s trk n key vel adsr pp hs hfin hroom
  refine ⟨noteVoice_lfsr n trk key vel adsr pp _, ?_⟩
  rw [exec_noteonNoise_of_ready hs hfin, admitCgb_of_room hroom]
  rfl

/-! ## Notes that find the pool full -/

/-- A CGB note that finds the pool full has preempted and is dropped with POOLFULL (R224, R229). -/
theorem admitCgb_of_full {s : State} (hfull : ¬ roomFor s) (v : Voice) (n : Nat) :
    (s.admitCgb v).advance n = afterDrop { s with pool := preempted v.track v.kind s.pool } 0x21 v.track n := by
  have hfull' : ¬ roomFor { s with pool := preempted v.track v.kind s.pool } := by
    rwa [roomFor_preempted_iff]
  rw [State.admitCgb, cgbPreempt_eq, placeVoice_of_full hfull', dropNote_advance _ _ n rfl]
  rfl

/-- Settles O31: the preemption leaves the pool as full as it was. -/
theorem cgbNoteDroppedWhenPoolFull : Obligations.CgbNoteDroppedWhenPoolFull := by
  intro s trk key vel adsr pp hs hfull
  refine ⟨fun u d hfin => ?square, fun waddr hrange hfin => ?wave, fun n hfin => ?noise⟩
  case square =>
    rw [exec_noteonSq_of_ready hs hfin, admitCgb_of_full hfull, noteVoice_square_kind]
    rfl
  case wave =>
    rw [exec_noteonWave_of_ready hs hrange hfin, admitCgb_of_full hfull]
    rfl
  case noise =>
    rw [exec_noteonNoise_of_ready hs hfin, admitCgb_of_full hfull]
    rfl

/-! ## The polyphony budget -/

/-- The live PCM voices of a pool (R39, R225). -/
def livePcm (pool : List Voice) : Nat := pool.countP fun v => v.isPcm && v.eState != .dead

/-- One more voice is at most one more live PCM voice. -/
theorem livePcm_append_one (pool : List Voice) (v : Voice) : livePcm (pool ++ [v]) ≤ livePcm pool + 1 := by
  rw [livePcm, List.countP_append, List.countP_singleton]
  split <;> simp [livePcm]

/-- Without one of its live PCM voices a pool has one less (R226). -/
theorem livePcm_eraseIdx {pool : List Voice} {i : Nat} {w : Voice} (hw : pool[i]? = some w)
    (hlive : (w.isPcm && w.eState != .dead) = true) : livePcm (pool.eraseIdx i) + 1 = livePcm pool := by
  obtain ⟨hi, rfl⟩ := List.getElem?_eq_some_iff.1 hw
  rw [List.eraseIdx_eq_take_drop_succ, livePcm, List.countP_append]
  conv_rhs => rw [livePcm, ← List.take_append_drop i pool, List.drop_eq_getElem_cons hi]
  rw [List.countP_append, List.countP_cons, if_pos hlive, Nat.add_assoc]

/-- The budget over the three pools an admission can leave (R226, R227, R229). -/
theorem admitPcm_pcmCount_le (s : State) (v : Voice) :
    (s.admitPcm v).pcmCount ≤ max (polyLimit s.poly) s.pcmCount := by
  have hcount (t : State) : t.pcmCount = livePcm t.pool := rfl
  rcases Nat.lt_or_ge s.pcmCount (polyLimit s.poly) with hbelow | hbudget
  · rw [admitPcm_of_below_budget hbelow]
    obtain hplaced | hfull := placeVoice_pool s v
    · have hone := livePcm_append_one s.pool v
      rw [hcount] at hbelow ⊢
      rw [hplaced]
      omega
    · rw [hcount, hfull]
      exact le_max_right _ _
  · cases hvictim : findVictim v.prio s.pool with
    | none =>
      rw [admitPcm_of_no_victim hbudget hvictim, hcount, dropNote_pool]
      exact le_max_right _ _
    | some victim =>
      obtain ⟨i, w⟩ := victim
      obtain ⟨hw, hevictable⟩ := findVictim_spec hvictim
      have hlive : (w.isPcm && w.eState != .dead) = true := by
        rw [Voice.evictable, Bool.and_eq_true] at hevictable
        exact hevictable.1
      have herase := livePcm_eraseIdx hw hlive
      have hone := livePcm_append_one (s.pool.eraseIdx i) v
      rw [admitPcm_of_victim hbudget hvictim, hcount, hcount]
      dsimp only
      omega

/-- Settles O27: an error leaves the pool, and an admission keeps the budget. -/
theorem polyphonyBudgetHolds : Obligations.PolyphonyBudgetHolds := by
  intro s t trk l key vel adsr pp base midc loopPos endPos h
  obtain ⟨e, -, rfl⟩ | ⟨-, rfl⟩ := exec_cases h
  · rw [State.pcmCount, takeError_pool]
    exact le_max_right _ _
  · exact admitPcm_pcmCount_le s _

end Sys2Proof.Machine
end

section
/-!
PROOFS. The laws of the envelope that follow from its arms (40_envelope R123, R126, R129, R141): the changes of the phase,
the monotone level, the end of every release, and the length of an attack.
-/

namespace Sys2Proof.Machine

/-! ## The phase and the level in one step -/

/-- The changes of R129 never go backward in the order of the phases (R46). -/
theorem EState.rank_le_of_stepsTo {a b : EState} (h : a.stepsTo b = true) : a.rank ≤ b.rank := by
  revert h
  cases a <;> cases b <;> decide

/-- One envelope step makes a change that R129 lists. -/
theorem stepEnvelope_stepsTo (p : Launch) (v : Voice) : v.eState.stepsTo (stepEnvelope p v).eState = true := by
  cases h : v.eState with
  | init => rw [stepEnvelope_init p h]; rfl
  | atk => rw [stepEnvelope_atk p h]; dsimp only; split <;> rfl
  | dec => rw [stepEnvelope_dec p h]; dsimp only; split <;> rfl
  | sus => rw [stepEnvelope_sus p h]; dsimp only; split <;> rfl
  | rel => rw [stepEnvelope_rel p h]; dsimp only; split <;> rfl
  | dead => rw [stepEnvelope_dead p h, h]; rfl

/-- A release takes the phases before REL to REL and no other anywhere (R129, R130). -/
theorem releaseVoice_eState (fast : Bool) (v : Voice) :
    (releaseVoice fast v).eState = if v.eState = .dead then .dead else .rel := by
  cases h : v.eState with
  | dead => simp [releaseVoice, h, EState.beforeRel, EState.rank]
  | rel => simp [releaseVoice_of_rel h, h]
  | init | atk | dec | sus => simp [releaseVoice_of_beforeRel, h, EState.beforeRel, EState.rank]

/-- A level scaled by a byte over 256 does not rise (R140). -/
theorem mul_div_256_le (level factor : Byte) : level.toNat * factor.toNat / 256 ≤ level.toNat :=
  Nat.div_le_of_le_mul (Nat.mul_comm 256 _ ▸ Nat.mul_le_mul_left _ factor.isLt.le)

/-- Settles O33: each clause is read off the arm of its phase. -/
theorem phaseAndLevelAreMonotone : Obligations.PhaseAndLevelAreMonotone := by
  intro p v
  refine ⟨stepEnvelope_stepsTo p v, EState.rank_le_of_stepsTo (stepEnvelope_stepsTo p v), fun h hdead => ?sus,
    fun fast => ⟨releaseVoice_eState fast v, ?release⟩, fun h => ?atk, fun h hsus => ?dec, fun h => ?rel⟩
  case sus =>
    rw [stepEnvelope_sus p h] at hdead
    simpa using hdead
  case release =>
    rw [releaseVoice_eState]
    cases v.eState <;> decide
  case atk =>
    rw [stepEnvelope_atk p h]
    dsimp only
    rw [attackLevel_toNat]
    have := v.envLevel.isLt
    omega
  case dec =>
    rw [stepEnvelope_dec p h]
    dsimp only
    rw [decayLevel_toNat]
    exact ⟨max_le (mul_div_256_le _ _) hsus, le_max_right _ _⟩
  case rel =>
    rw [stepEnvelope_rel p h]
    dsimp only
    rw [scaleLevel_toNat]
    exact mul_div_256_le _ _

/-! ## The end of a release -/

/-- One step of a release ends it at level 0, or lowers its level, whatever its rate (R126). -/
theorem stepEnvelope_rel_cases (p : Launch) {v : Voice} (h : v.eState = .rel) :
    ((stepEnvelope p v).eState = .dead ∧ (stepEnvelope p v).envLevel = 0) ∨
    ((stepEnvelope p v).eState = .rel ∧ 0 < (stepEnvelope p v).envLevel.toNat ∧
      (stepEnvelope p v).envLevel.toNat < v.envLevel.toNat) := by
  rw [stepEnvelope_rel p h]
  dsimp only
  by_cases hzero : scaleLevel v.envLevel (releaseRate p v) = 0
  · exact .inl ⟨if_pos hzero, hzero⟩
  · have hpos : 0 < (scaleLevel v.envLevel (releaseRate p v)).toNat :=
      Nat.pos_of_ne_zero fun h0 => hzero (BitVec.eq_of_toNat_eq h0)
    refine .inr ⟨if_neg hzero, hpos, ?_⟩
    rw [scaleLevel_toNat] at hpos ⊢
    have hlevel : 0 < v.envLevel.toNat := hpos.trans_le (mul_div_256_le _ _)
    exact Nat.div_lt_of_lt_mul (Nat.mul_comm 256 _ ▸ Nat.mul_lt_mul_of_pos_left (releaseRate p v).isLt hlevel)

/-- A release from a level up to `k + 1` ends after at most `k + 1` steps (R126). -/
theorem release_ends_within (p : Launch) (k : Nat) {v : Voice} (h : v.eState = .rel) (hlevel : v.envLevel.toNat ≤ k + 1) :
    ∃ n, 1 ≤ n ∧ n ≤ k + 1 ∧ (envelopeSteps p n v).eState = .dead ∧ (envelopeSteps p n v).envLevel = 0 := by
  induction k generalizing v with
  | zero =>
    obtain hdead | ⟨-, hpos, hlt⟩ := stepEnvelope_rel_cases p h
    · exact ⟨1, le_rfl, le_rfl, hdead⟩
    · omega
  | succ k ih =>
    obtain hdead | ⟨hrel, -, hlt⟩ := stepEnvelope_rel_cases p h
    · exact ⟨1, le_rfl, by omega, hdead⟩
    · obtain ⟨n, hone, hn, hend⟩ := ih hrel (by omega)
      exact ⟨n + 1, by omega, by omega, hend⟩

/-- Settles O34: no level is above 255, and each step lowers it until the release ends. -/
theorem releaseEnds : Obligations.ReleaseEnds := fun p v h =>
  release_ends_within p 254 h (Nat.le_of_lt_succ v.envLevel.isLt)

/-! ## The length of an attack -/

/-- Steps in succession, the last one taken apart (R120). -/
theorem envelopeSteps_succ (p : Launch) (n : Nat) (v : Voice) :
    envelopeSteps p (n + 1) v = stepEnvelope p (envelopeSteps p n v) := by
  induction n generalizing v with
  | zero => rfl
  | succ n ih => exact ih (stepEnvelope p v)

/-- While `n` steps of `att` stay below 255, an attack from level 0 goes on at level `n × att` (R123). -/
theorem envelopeSteps_attack (p : Launch) {v : Voice} (h : v.eState = .atk) (hlevel : v.envLevel = 0) (n : Nat)
    (hn : n * v.adsr.att.toNat < 255) :
    (envelopeSteps p n v).eState = .atk ∧ (envelopeSteps p n v).envLevel.toNat = n * v.adsr.att.toNat ∧
      (envelopeSteps p n v).adsr = v.adsr := by
  induction n with
  | zero => exact ⟨h, by rw [Nat.zero_mul]; exact congrArg BitVec.toNat hlevel, rfl⟩
  | succ n ih =>
    rw [Nat.succ_mul] at hn ⊢
    obtain ⟨hatk, hl, hadsr⟩ := ih (by omega)
    have hnext : (attackLevel (envelopeSteps p n v).envLevel v.adsr.att).toNat = n * v.adsr.att.toNat + v.adsr.att.toNat := by
      rw [attackLevel_toNat, hl]
      omega
    have hne : attackLevel (envelopeSteps p n v).envLevel v.adsr.att ≠ 255 := fun h255 => by
      rw [h255] at hnext
      exact absurd hnext (by simp; omega)
    rw [envelopeSteps_succ, stepEnvelope_atk p hatk, hadsr]
    exact ⟨if_neg hne, hnext, rfl⟩

/-- The step that reaches 255 ends the attack at the top (R123). -/
theorem envelopeSteps_attack_end (p : Launch) {v : Voice} (h : v.eState = .atk) (hlevel : v.envLevel = 0) (n : Nat)
    (hn : n * v.adsr.att.toNat < 255) (hend : 255 ≤ (n + 1) * v.adsr.att.toNat) :
    (envelopeSteps p (n + 1) v).eState = .dec ∧ (envelopeSteps p (n + 1) v).envLevel = 255 := by
  obtain ⟨hatk, hl, hadsr⟩ := envelopeSteps_attack p h hlevel n hn
  have htop : attackLevel (envelopeSteps p n v).envLevel v.adsr.att = 255 := by
    apply BitVec.eq_of_toNat_eq
    rw [attackLevel_toNat, hl, ← Nat.succ_mul, Nat.min_eq_right hend]
    rfl
  rw [envelopeSteps_succ, stepEnvelope_atk p hatk, hadsr]
  exact ⟨if_pos htop, htop⟩

/-- Settles O35: the number of steps is the least one whose product with `att` reaches 255. -/
theorem attackLength : Obligations.AttackLength := by
  intro p v h hlevel hone _
  generalize hN : (255 + v.adsr.att.toNat - 1) / v.adsr.att.toNat = N
  obtain ⟨hlo, hhi⟩ := (Nat.div_eq_iff hone).1 hN
  have hbelow : ∀ n < N, n * v.adsr.att.toNat < 255 := fun n hn => by
    have : (n + 1) * v.adsr.att.toNat ≤ N * v.adsr.att.toNat := Nat.mul_le_mul_right _ hn
    rw [Nat.succ_mul] at this
    omega
  have hpos : N ≠ 0 := by
    rintro rfl
    omega
  obtain ⟨m, rfl⟩ := Nat.exists_eq_add_one_of_ne_zero hpos
  exact ⟨fun n hn => (envelopeSteps_attack p h hlevel n (hbelow n hn)).1,
    envelopeSteps_attack_end p h hlevel m (hbelow m (Nat.lt_succ_self m)) (by omega)⟩

end Sys2Proof.Machine
end

section
/-!
PROOFS. The sources of the voices (42_pcm_channel R171 to R173; 43_cgb_channels R191 to R206), their pitch laws (42 R174,
R175; 43 R193, R199, R207), and the law of one output sample (41_resampler R154 to R160; 45_stream_generator R246).
-/

namespace Sys2Proof.Machine

/-! ## PCM -/

theorem looping_iff (d : PcmData) : d.looping = true ↔ loops d := by
  simp [PcmData.looping, loops]

/-- Before its first sample a PCM voice is silent (R172). -/
theorem pcmSrc_of_neg {k : Int} (h : k < 0) (s : State) (d : PcmData) : pcmSrc s d k = F32.zero :=
  if_pos h

/-- The source of a PCM voice at an index that is not negative (R172). -/
theorem pcmSrc_natCast (s : State) (d : PcmData) (n : Nat) :
    pcmSrc s d n =
      if n < d.endPos.toNat then pcmSample s d n
      else if loops d then pcmSample s d (d.loopPos.toNat + (n - d.endPos.toNat) % (d.endPos.toNat - d.loopPos.toNat))
      else F32.zero := by
  have hn : ¬ (n : Int) < 0 := by omega
  simp only [pcmSrc, if_neg hn, Int.toNat_natCast, looping_iff]
  rfl

/-- The loop body stands before the end of the sample (R172). -/
theorem loop_index_lt {d : PcmData} (h : loops d) (m : Nat) :
    d.loopPos.toNat + m % (d.endPos.toNat - d.loopPos.toNat) < d.endPos.toNat := by
  obtain ⟨-, hpos⟩ := h
  have := Nat.mod_lt m (Nat.sub_pos_of_lt hpos)
  omega

/-- Settles O40: every index that is read, in the body or in the loop, is below `endPos`. -/
theorem pcmReadsOnlyItsSamples : Obligations.PcmReadsOnlyItsSamples := by
  intro s t d hmem k
  have hsample {n : Nat} (hn : n < d.endPos.toNat) : pcmSample s d n = pcmSample t d n := by
    rw [pcmSample, pcmSample, hmem n hn]
  obtain hneg | ⟨n, rfl⟩ : k < 0 ∨ ∃ n : Nat, k = n := (lt_or_ge k 0).imp_right Int.eq_ofNat_of_zero_le
  · rw [pcmSrc_of_neg hneg, pcmSrc_of_neg hneg]
  · rw [pcmSrc_natCast, pcmSrc_natCast]
    split
    · next hn => exact hsample hn
    · split
      · next hloop => exact hsample (loop_index_lt hloop _)
      · rfl

/-- The wrap of a PCM voice is the one the statements give (R173). -/
theorem pcmWrap_eq (d : PcmData) (i : Nat) :
    pcmWrap d i =
      if i < d.endPos.toNat then i
      else if loops d then d.loopPos.toNat + (i - d.endPos.toNat) % (d.endPos.toNat - d.loopPos.toNat)
      else d.endPos.toNat := by
  simp only [pcmWrap, looping_iff]
  rfl

/-- Settles O41: beyond the end a loop leads back into its body, where the source is read at the wrapped index. -/
theorem pcmWrap_law : Obligations.PcmWrap := by
  intro d i
  rw [pcmWrap_eq]
  refine ⟨fun hi => if_pos hi, fun hi hen hpos => ?_, fun hi hnot => ?_⟩
  · have hloop : loops d := ⟨hen, hpos⟩
    have hlt := loop_index_lt hloop (i - d.endPos.toNat)
    rw [if_neg (Nat.not_lt.2 hi), if_pos hloop]
    refine ⟨rfl, hlt, fun s => ?_⟩
    rw [pcmSrc_natCast, pcmSrc_natCast, if_neg (Nat.not_lt.2 hi), if_pos hloop, if_pos hlt]
  · rw [if_neg (Nat.not_lt.2 hi), if_neg hnot]

/-! ## Square and noise -/

/-- The duty patterns start with 1, 2, 4 or 6 of 8 positive indices (R191). -/
theorem squareSrc_eq (duty : Duty) (k : Int) :
    squareSrc duty k =
      if k % 8 < (match duty with | .duty12 => 1 | .duty25 => 2 | .duty50 => 4 | .duty75 => 6) then F32.half
      else F32.negHalf := by
  have hlo : 0 ≤ k % 8 := Int.emod_nonneg k (by decide)
  have hhi : k % 8 < 8 := Int.emod_lt_of_pos k (by decide)
  unfold squareSrc
  generalize k % 8 = m at hlo hhi
  cases duty <;> interval_cases m <;> rfl

/-- The steps of the LFSR are iterates of its step (R205). -/
theorem lfsrIter_eq_iterate (p : NoisePattern) (j : Nat) (x : BitVec 15) : lfsrIter p j x = (lfsrStep p)^[j] x := by
  induction j generalizing x with
  | zero => rfl
  | succ j ih => exact ih (lfsrStep p x)

/-- The feedback of the LFSR as a mask of its top bit (R203, R204). -/
theorem lfsrStep_eq (p : NoisePattern) (x : BitVec 15) :
    lfsrStep p x = (x >>> 1) |||
      (if x.getLsbD 0 = x.getLsbD 1 then 0#15 else match p with | .fine => 0x4000#15 | .rough => 0x0040#15) := by
  unfold lfsrStep
  congr 1
  generalize x.getLsbD 0 = b0
  generalize x.getLsbD 1 = b1
  revert b0 b1
  cases p <;> decide

/-- A sequence that starts at the seed and follows the step is that of the LFSR (R205). -/
theorem lfsrAt_eq_of_recurrence {p : NoisePattern} {x : Nat → BitVec 15}
    (hzero : x 0 = match p with | .fine => 0x7FFF#15 | .rough => 0x007F#15)
    (hsucc : ∀ j, x (j + 1) = lfsrStep p (x j)) (j : Nat) : lfsrAt p j = x j := by
  rw [lfsrAt, lfsrIter_eq_iterate]
  induction j with
  | zero =>
    rw [hzero]
    cases p <;> rfl
  | succ j ih => rw [Function.iterate_succ_apply', ih, hsucc]

/-- The source of a noise voice by bit 0 of the LFSR (R205). -/
theorem noiseSrc_eq (p : NoisePattern) (k : Int) :
    noiseSrc p k =
      if (lfsrAt p (k % (match p with | .fine => 32767 | .rough => 127)).toNat).getLsbD 0 = true then F32.half
      else F32.negHalf := by
  cases p <;> rfl

/-- Settles O59: each source by its equation, the noise after its sequence is identified with the LFSR's. -/
theorem sourceValues : Obligations.SourceValues := by
  intro s v
  refine ⟨fun d hsrc => ?pcm, fun u duty hsrc k => ?square, fun buf hsrc k n hk => ?wave, fun p hsrc x hzero hsucc => ?noise⟩
  case pcm =>
    have hv (k : Int) : v.src s k = pcmSrc s d k := by rw [Voice.src, hsrc]
    refine ⟨fun k hk => (hv k).trans (pcmSrc_of_neg hk s d), fun n hn => ?_, fun n hn hloop => ?_, fun n hn hnot => ?_⟩
    · rw [hv, pcmSrc_natCast, if_pos hn]
      rfl
    · rw [hv, pcmSrc_natCast, if_neg (Nat.not_lt.2 hn), if_pos hloop]
      rfl
    · rw [hv, pcmSrc_natCast, if_neg (Nat.not_lt.2 hn), if_neg hnot]
  case square =>
    have hv : v.src s k = squareSrc duty k := by rw [Voice.src, hsrc]
    exact hv.trans (squareSrc_eq duty k)
  case wave =>
    simp only [Voice.src, hsrc, waveSrc, hk]
    rfl
  case noise =>
    have hlfsr := lfsrAt_eq_of_recurrence hzero fun j => (hsucc j).trans (lfsrStep_eq p (x j)).symm
    refine ⟨?_, fun k => ?_⟩
    · rw [Voice.lfsr, hsrc, ← hlfsr]
    · have hv : v.src s k = noiseSrc p k := by rw [Voice.src, hsrc]
      rw [← hlfsr]
      exact hv.trans (noiseSrc_eq p k)

/-! ## The periods of the LFSR -/

/-- A point that returns after `n` steps, but not after `n / p` for any prime `p` dividing `n`, returns for the first
time after `n` steps. -/
theorem iterate_ne_of_lt_period {α : Type} {f : α → α} {x : α} {n : Nat} (hreturn : f^[n] x = x)
    (hprime : ∀ p, p.Prime → p ∣ n → f^[n / p] x ≠ x) {j : Nat} (hpos : 0 < j) (hj : j < n) : f^[j] x ≠ x := by
  have hper : Function.IsPeriodicPt f n x := hreturn
  obtain ⟨m, hm⟩ := hper.minimalPeriod_dvd
  have hone : m = 1 := by
    by_contra hne
    obtain ⟨p, hp, q, rfl⟩ := Nat.exists_prime_and_dvd hne
    have hdiv : n / p = Function.minimalPeriod f x * q :=
      Nat.div_eq_of_eq_mul_right hp.pos (by rw [hm]; ring)
    refine hprime p hp ⟨Function.minimalPeriod f x * q, by rw [hm]; ring⟩ ?_
    rw [hdiv]
    exact (Function.isPeriodicPt_minimalPeriod f x).mul_const q
  have hmin : Function.minimalPeriod f x = n := by rw [hm, hone, Nat.mul_one]
  exact Function.not_isPeriodicPt_of_pos_of_lt_minimalPeriod hpos.ne' (hmin.symm ▸ hj)

/-- A sequence that returns to a point other than a fixed one never meets the fixed one on its way. -/
theorem iterate_ne_fixed {α : Type} {f : α → α} {x z : α} {n : Nat} (hreturn : f^[n] x = x) (hfixed : f z = z)
    (hne : x ≠ z) {j : Nat} (hj : j ≤ n) : f^[j] x ≠ z := by
  intro hz
  obtain ⟨k, rfl⟩ := Nat.exists_eq_add_of_le' hj
  rw [Function.iterate_add_apply, hz, Function.iterate_fixed hfixed] at hreturn
  exact hne hreturn.symm

/-- Fourteen steps of the FINE sequence at once: the feedback bits of all of them are bits of the state before. -/
def fineJump (x : BitVec 15) : BitVec 15 := (x >>> 14) ||| ((x ^^^ (x >>> 1)) <<< 1)

theorem lfsrStep_iterate_fourteen : (lfsrStep .fine)^[14] = fineJump := by
  funext x
  rw [← lfsrIter_eq_iterate]
  ext i hi
  simp [lfsrIter, lfsrStep, lfsrWidth, fineJump]
  grind

/-- The FINE sequence by jumps of fourteen steps. -/
theorem lfsrAt_fine_jumps (q r : Nat) : lfsrAt .fine (14 * q + r) = lfsrIter .fine r (fineJump^[q] 0x7FFF#15) := by
  rw [lfsrAt, lfsrIter_eq_iterate, lfsrIter_eq_iterate, Nat.add_comm, Function.iterate_add_apply, Function.iterate_mul,
    lfsrStep_iterate_fourteen]
  rfl

/-- The FINE sequence returns after 32767 steps, and not after a seventh, a 31st or a 151st of them. -/
theorem lfsrAt_fine_returns : lfsrAt .fine 32767 = 0x7FFF#15 := by
  rw [show 32767 = 14 * 2340 + 7 from rfl, lfsrAt_fine_jumps]
  decide +kernel

theorem lfsrAt_fine_no_early_return :
    lfsrAt .fine 4681 ≠ 0x7FFF#15 ∧ lfsrAt .fine 1057 ≠ 0x7FFF#15 ∧ lfsrAt .fine 217 ≠ 0x7FFF#15 := by
  rw [show 4681 = 14 * 334 + 5 from rfl, show 1057 = 14 * 75 + 7 from rfl, show 217 = 14 * 15 + 7 from rfl]
  simp only [lfsrAt_fine_jumps]
  decide +kernel

/-- The ROUGH sequence returns after 127 steps. -/
theorem lfsrAt_rough_returns : lfsrAt .rough 127 = 0x7F#15 := by
  decide +kernel

/-- A sequence of the LFSR that returns, but not after a prime part of its steps, has that period and is never zero
(R206). -/
theorem lfsrAt_period {p : NoisePattern} {n : Nat} (hreturn : lfsrAt p n = lfsrSeed p)
    (hprime : ∀ q, q.Prime → q ∣ n → lfsrAt p (n / q) ≠ lfsrSeed p) {j : Nat} (hpos : 0 < j) (hj : j < n) :
    lfsrAt p j ≠ lfsrSeed p ∧ lfsrAt p j ≠ 0 := by
  simp only [lfsrAt, lfsrIter_eq_iterate] at hreturn hprime ⊢
  have hfixed : lfsrStep p 0 = 0 := by cases p <;> rfl
  have hseed : lfsrSeed p ≠ 0 := by cases p <;> decide
  exact ⟨iterate_ne_of_lt_period hreturn hprime hpos hj, iterate_ne_fixed hreturn hfixed hseed hj.le⟩

/-- Settles O42: the periods are checked at the seed and at their prime parts, 7, 31 and 151 for FINE. -/
theorem lfsrPeriods : Obligations.LfsrPeriods := by
  obtain ⟨hseventh, h31st, h151st⟩ := lfsrAt_fine_no_early_return
  refine ⟨⟨lfsrAt_fine_returns, fun j => lfsrAt_period lfsrAt_fine_returns fun q hq hdvd => ?fine⟩,
    ⟨lfsrAt_rough_returns, fun j => lfsrAt_period lfsrAt_rough_returns fun q hq hdvd => ?rough⟩⟩
  case fine =>
    have hfactors : q ∣ 7 * 31 * 151 := hdvd
    rw [hq.dvd_mul, hq.dvd_mul, Nat.prime_dvd_prime_iff_eq hq (by norm_num), Nat.prime_dvd_prime_iff_eq hq (by norm_num),
      Nat.prime_dvd_prime_iff_eq hq (by norm_num)] at hfactors
    rcases hfactors with (rfl | rfl) | rfl
    · exact hseventh
    · exact h31st
    · exact h151st
  case rough =>
    obtain rfl := (Nat.prime_dvd_prime_iff_eq hq (by norm_num)).1 hdvd
    decide

/-! ## The pitch laws -/

/-- Settles O38: the laws are the definitions, and at the three pitches the argument of `Exp2` is 0, 1 or −1. -/
theorem pitchLawAtOctaves : Obligations.PitchLawAtOctaves := by
  intro s rate law
  refine ⟨fun _ _ => rfl, fun _ => rfl, fun _ => rfl, fun _ => rfl, fun p hp => ?default, fun v p => rfl, fun m hm => ?octaves⟩
  case default => rw [noisePhaseInc, noiseRate_default hp]
  case octaves =>
    have hzero : (F32.ofInt (0 : BitVec 16).toInt).div (F32.ofNat 1200) = F32.zero := by decide
    have hone : (F32.ofInt (1200 : BitVec 16).toInt).div (F32.ofNat 1200) = F32.one := by decide
    have hneg : (F32.ofInt (BitVec.ofInt 16 (-1200)).toInt).div (F32.ofNat 1200) = F32.negOne := by decide
    simp only [law, hzero, hone, hneg, exp2_zero, exp2_one, exp2_negOne, F32.mul_one hm, and_self]

/-! ## One output sample -/

/-- The position a voice wraps to, by its source (R160, R173). -/
theorem wrap_eq_wrappedTo (v : Voice) (i : Nat) : v.wrap i = wrappedTo v.source i := by
  unfold Voice.wrap wrappedTo
  cases v.source with
  | pcm d => exact pcmWrap_eq d i
  | square | wave => rfl
  | noise p => cases p <;> rfl

/-- A voice is at end of stream as R178 says. -/
theorem atEnd_iff (v : Voice) :
    v.atEnd = true ↔ ∃ d, v.source = .pcm d ∧ ¬ loops d ∧ d.endPos.toNat ≤ v.ipos.toNat := by
  unfold Voice.atEnd
  cases v.source with
  | pcm d =>
    have hloop : (!d.looping) = true ↔ ¬ loops d := by rw [← looping_iff, Bool.not_eq_true', Bool.not_eq_true]
    simp only [Bool.and_eq_true, hloop, decide_eq_true_eq, Source.pcm.injEq, exists_eq_left']
    rfl
  | square | wave | noise => simp

/-- A voice that is not at end of stream plays on (R178). -/
theorem endStream_of_not_atEnd {v : Voice} (h : v.atEnd = false) : endStream v = v := by
  rw [endStream, h]
  rfl

/-- The voice after an output sample, by the voice after end of stream: one step of the ramp, and the position advanced
through the wrap of its source (R160, R246). -/
theorem afterSample_eq (v : Voice) :
    afterSample v =
      { endStream v with
          curL := v.curL.add v.stepL, curR := v.curR.add v.stepR
          fpos := (v.fpos.add v.phaseInc).sub (F32.ofNat (v.fpos.add v.phaseInc).floorNat)
          ipos := BitVec.ofNat 32 (wrappedTo (endStream v).source (v.ipos.toNat + (v.fpos.add v.phaseInc).floorNat)) } := by
  rw [← endStream_curL v, ← endStream_curR v, ← endStream_stepL v, ← endStream_stepR v, ← endStream_fpos v,
    ← endStream_phaseInc v, ← endStream_ipos v, ← wrap_eq_wrappedTo]
  rfl

/-- What end of stream does to a voice, once (R178). -/
theorem StreamEnded.endStream_eq {v : Voice} {d : PcmData} (h : StreamEnded v d) :
    endStream v =
      if d.eos = true then v
      else
        { v with
            source := .pcm { d with eos := true }
            eState := if v.eState = .dead then .dead else .rel
            fastRelease := if v.eState = .dead then v.fastRelease else true } := by
  rw [endStream, h.atEnd, h.eos_eq, h.setEos_eq]
  cases heos : d.eos with
  | true => rfl
  | false =>
    cases hphase : v.eState with
    | dead => simp [releaseVoice, EState.beforeRel, EState.rank]
    | rel => simp [releaseVoice_of_rel]
    | init | atk | dec | sus => simp [releaseVoice_of_beforeRel, EState.beforeRel, EState.rank]

end Sys2Proof.Machine

namespace Sys2Proof

/-- The whole part of a number that is not negative, in the unit of a magnitude (R160). -/
theorem F32.floorNat_eq {t : F32} (h : t.unsigned = true) : t.floorNat = t.mag / 2 ^ 149 := by
  unfold F32.floorNat
  split
  · next hs =>
    have hz : t.mag = 0 := by simpa [F32.unsigned, hs] using h
    rw [hz, Nat.zero_div]
  · rfl

theorem F32.floorNat_bounds {t : F32} (h : t.unsigned = true) :
    t.floorNat * 2 ^ 149 ≤ t.mag ∧ t.mag < (t.floorNat + 1) * 2 ^ 149 := by
  rw [F32.floorNat_eq h]
  omega

end Sys2Proof

namespace Sys2Proof.Machine

/-- The sixteen taps in ascending order (R157). -/
theorem resampleSinc_eq (s : State) (kernel : F32 → F32 → Nat → F32) (v : Voice) :
    resampleSinc s kernel v = sincSum s kernel v := rfl

/-- The configured variants are tried in the order of their codes (R154 to R157). -/
theorem resampleConfigured_cases (s : State) (v : Voice) :
    (cfgResamp s.config = 0 → resampleConfigured s v = v.src s v.ipos.toNat) ∧
    (cfgResamp s.config = 1 → resampleConfigured s v =
      (v.src s v.ipos.toNat).add (((v.src s (v.ipos.toNat + 1)).sub (v.src s v.ipos.toNat)).mul v.fpos)) ∧
    (cfgResamp s.config = 2 → resampleConfigured s v = sincSum s (sincKernel s.launch) v) := by
  refine ⟨fun h => ?_, fun h => ?_, fun h => ?_⟩
  · rw [resampleConfigured, h, if_pos (by decide)]
    rfl
  · rw [resampleConfigured, h, if_neg (by decide), if_pos (by decide)]
    rfl
  · rw [resampleConfigured, h, if_neg (by decide), if_neg (by decide), resampleSinc_eq]

/-- Settles O60: the variant by the source, then the first sample taken apart with and without end of stream. -/
theorem oneOutputSample : Obligations.OneOutputSample := by
  intro s v n resamp a b configured t c w
  refine ⟨fun d hsrc => ?pcm, fun buf hsrc => ?wave, fun u duty hsrc => ?square, fun p hsrc => ?noise,
    fun _ hun => F32.floorNat_bounds hun, rfl, fun hnot => ?running, fun d hsrc hloop hpast => ?ended⟩
  case pcm =>
    have hv : resample s v = resampleConfigured s v := by rw [resample, hsrc]
    simp only [configured, hv]
    exact resampleConfigured_cases s v
  case wave =>
    have hv : resample s v = resampleConfigured s v := by rw [resample, hsrc]
    simp only [configured, hv]
    exact resampleConfigured_cases s v
  case square =>
    rw [← resampleSinc_eq, resample, hsrc]
  case noise =>
    rw [← resampleSinc_eq, resample, hsrc]
  case running =>
    have hend : v.atEnd = false := by rw [← Bool.not_eq_true, atEnd_iff]; exact hnot
    have hafter : afterSample v = w := by rw [afterSample_eq, endStream_of_not_atEnd hend]
    have hcontribution : contribution s v = ((resample s v).mul v.curL, (resample s v).mul v.curR) := by
      simp [contribution, outputValue, hend]
    rw [renderVoice, hafter, hcontribution]
  case ended =>
    have h : StreamEnded v d := ⟨hsrc, hloop, hpast⟩
    intro u
    have hafter : afterSample v = u := by
      have hwrap : wrappedTo v.source = wrappedTo (.pcm { d with eos := true }) := by
        rw [hsrc]
        rfl
      rw [afterSample_eq, h.endStream_eq]
      by_cases heos : d.eos = true
      · simp only [u, if_pos heos, w, t, c]
      · simp only [u, if_neg heos, w, t, c, hwrap]
    rw [renderVoice, hafter, h.contribution_eq]

end Sys2Proof.Machine
end

section
/-!
PROOFS. Laws of binary32 rounding beyond exact numbers (00_scope R14): rounding is monotone, the numbers binary32 holds, and
what an operation on numbers that are not negative delivers.
-/

namespace Sys2Proof

/-! ## Rounding to a natural -/

/-- Rounding to the nearest natural is monotone. -/
theorem roundNearest_mono {n d n' d' : Nat} (hd : 0 < d) (hd' : 0 < d') (h : n * d' ≤ n' * d) :
    roundNearest n d ≤ roundNearest n' d' := by
  have hfloor : n / d ≤ n' / d' := by
    rw [Nat.le_div_iff_mul_le hd']
    refine Nat.le_of_mul_le_mul_right ?_ hd
    calc n / d * d' * d = n / d * d * d' := by ring
      _ ≤ n * d' := Nat.mul_le_mul_right _ (Nat.div_mul_le_self n d)
      _ ≤ n' * d := h
  by_contra hlt
  have hn := Nat.div_add_mod n d
  have hn' := Nat.div_add_mod n' d'
  simp only [roundNearest] at hlt
  have hsame : n / d = n' / d' := by
    split at hlt <;> split at hlt <;> omega
  rw [hsame] at hlt hn
  have hrest : n % d * d' ≤ n' % d' * d := by
    have hleft : n * d' = d * (n' / d') * d' + n % d * d' := by rw [← Nat.add_mul, hn]
    have hright : n' * d = d * (n' / d') * d' + n' % d' * d := by
      conv_lhs => rw [← hn']
      ring
    omega
  have hhalf : d ≤ 2 * (n % d) → d' ≤ 2 * (n' % d') := fun hup => by
    refine Nat.le_of_mul_le_mul_left ?_ hd
    nlinarith
  have hstrict : d < 2 * (n % d) → d' < 2 * (n' % d') := fun hup => by
    refine Nat.lt_of_mul_lt_mul_left (a := d) ?_
    nlinarith
  split at hlt <;> split at hlt <;> omega

/-- A fraction up to a natural rounds up to it. -/
theorem roundNearest_le {n d k : Nat} (hd : 0 < d) (h : n ≤ k * d) : roundNearest n d ≤ k := by
  have hmono : roundNearest n d ≤ roundNearest (k * 1) 1 := roundNearest_mono hd Nat.one_pos (by simpa using h)
  rwa [roundNearest_mul k 1 Nat.one_pos] at hmono

/-- A fraction from a natural on rounds to it or above. -/
theorem le_roundNearest {n d k : Nat} (hd : 0 < d) (h : k * d ≤ n) : k ≤ roundNearest n d := by
  have hmono : roundNearest (k * 1) 1 ≤ roundNearest n d := roundNearest_mono Nat.one_pos hd (by simpa using h)
  rwa [roundNearest_mul k 1 Nat.one_pos] at hmono

/-! ## Rounding to magnitude bits -/

/-- The significand of a magnitude has 24 bits, all of them used where the unit is not the least one. -/
theorem ulpShift_bounds (w : Nat) : w < 2 ^ (24 + ulpShift w) ∧ (0 < ulpShift w → 2 ^ (23 + ulpShift w) ≤ w) := by
  have hlt : w < 2 ^ (Nat.log2 w + 1) := Nat.lt_log2_self
  refine ⟨hlt.trans_le (Nat.pow_le_pow_right (by decide) ?_), fun hpos => ?_⟩
  · unfold ulpShift
    omega
  · have hw : w ≠ 0 := by
      rintro rfl
      simp [ulpShift] at hpos
    have hshift : 23 + ulpShift w = Nat.log2 w := by
      unfold ulpShift at hpos ⊢
      omega
    rw [hshift]
    exact Nat.log2_self_le hw

theorem ulpShift_mono {w w' : Nat} (h : w ≤ w') : ulpShift w ≤ ulpShift w' := by
  rcases Nat.eq_zero_or_pos w with rfl | hw
  · simp [ulpShift]
  · have hle : Nat.log2 w ≤ Nat.log2 w' := (Nat.le_log2 (by omega)).2 ((Nat.log2_self_le hw.ne').trans h)
    exact Nat.sub_le_sub_right hle 23

/-- The significand a fraction rounds to, in units of its last place. -/
def significand (num den : Nat) : Nat := roundNearest num (den * 2 ^ ulpShift (num / den))

theorem roundMag_eq (num den : Nat) :
    roundMag num den = min (ulpShift (num / den) * 2 ^ 23 + significand num den) F32.infBits := rfl

/-- A significand has 24 bits, or is 2^24 itself, and uses all of them where the unit is not the least one. -/
theorem significand_bounds {den : Nat} (num : Nat) (hd : 0 < den) :
    significand num den ≤ 2 ^ 24 ∧ (0 < ulpShift (num / den) → 2 ^ 23 ≤ significand num den) := by
  obtain ⟨hlt, hge⟩ := ulpShift_bounds (num / den)
  have hpos : 0 < den * 2 ^ ulpShift (num / den) := by positivity
  refine ⟨roundNearest_le hpos ?_, fun hk => le_roundNearest hpos ?_⟩
  · rw [Nat.div_lt_iff_lt_mul hd, pow_add] at hlt
    nlinarith
  · have := hge hk
    rw [Nat.le_div_iff_mul_le hd, pow_add] at this
    nlinarith

/-- Rounding to binary32 is monotone. -/
theorem roundMag_mono {n d n' d' : Nat} (hd : 0 < d) (hd' : 0 < d') (h : n * d' ≤ n' * d) :
    roundMag n d ≤ roundMag n' d' := by
  have hwhole : n / d ≤ n' / d' := by
    rw [Nat.le_div_iff_mul_le hd']
    refine Nat.le_of_mul_le_mul_right ?_ hd
    calc n / d * d' * d = n / d * d * d' := by ring
      _ ≤ n * d' := Nat.mul_le_mul_right _ (Nat.div_mul_le_self n d)
      _ ≤ n' * d := h
  rw [roundMag_eq, roundMag_eq]
  refine min_le_min_right _ ?_
  rcases (ulpShift_mono hwhole).eq_or_lt with heq | hlt
  · rw [significand, significand, heq]
    refine Nat.add_le_add_left (roundNearest_mono (by positivity) (by positivity) ?_) _
    calc n * (d' * 2 ^ ulpShift (n' / d')) = n * d' * 2 ^ ulpShift (n' / d') := by ring
      _ ≤ n' * d * 2 ^ ulpShift (n' / d') := Nat.mul_le_mul_right _ h
      _ = n' * (d * 2 ^ ulpShift (n' / d')) := by ring
  · have hlow := (significand_bounds n hd).1
    have hhigh := (significand_bounds n' hd').2 (by omega)
    omega

/-! ## The numbers binary32 holds -/

theorem F32.frac_lt (x : F32) : x.frac < 2 ^ 23 := by
  rw [F32.frac_eq]
  omega

theorem F32.expo_lt_of_finite {x : F32} (h : x.isFinite = true) : x.expo < 255 := by
  rw [F32.isFinite_iff, F32.magBits_eq, F32.infBits] at h
  omega

/-- Magnitudes are ordered as their bits. -/
theorem F32.mag_mono {x y : F32} (h : x.magBits ≤ y.magBits) : x.mag ≤ y.mag := by
  rw [F32.magBits_eq, F32.magBits_eq] at h
  have hx := x.frac_lt
  have hy := y.frac_lt
  unfold F32.mag
  rcases Nat.lt_trichotomy x.expo y.expo with hlt | heq | hgt
  · obtain ⟨e, he⟩ : ∃ e, y.expo = e + 1 := ⟨y.expo - 1, by omega⟩
    rw [he, if_neg e.succ_ne_zero, Nat.add_sub_cancel]
    have hbig : 2 ^ 23 * 2 ^ e ≤ (y.frac + 2 ^ 23) * 2 ^ e := Nat.mul_le_mul_right _ (by omega)
    split
    · have hone : 2 ^ 23 * 1 ≤ 2 ^ 23 * 2 ^ e := Nat.mul_le_mul_left _ Nat.one_le_two_pow
      omega
    · next hne =>
      obtain ⟨k, hk⟩ : ∃ k, x.expo = k + 1 := ⟨x.expo - 1, by omega⟩
      rw [hk, Nat.add_sub_cancel]
      calc (x.frac + 2 ^ 23) * 2 ^ k ≤ 2 ^ 24 * 2 ^ k := Nat.mul_le_mul_right _ (by omega)
        _ = 2 ^ 23 * 2 ^ (k + 1) := by ring
        _ ≤ 2 ^ 23 * 2 ^ e := Nat.mul_le_mul_left _ (Nat.pow_le_pow_right (by decide) (by omega))
        _ ≤ (y.frac + 2 ^ 23) * 2 ^ e := hbig
  · have hfrac : x.frac ≤ y.frac := by omega
    rw [heq]
    split
    · exact hfrac
    · exact Nat.mul_le_mul_right _ (by omega)
  · omega

/-- A magnitude is a significand of 24 bits in units of its last place. -/
theorem F32.mag_eq_mul_pow {x : F32} (h : x.isFinite = true) :
    ∃ f e, f < 2 ^ 24 ∧ e ≤ 253 ∧ x.mag = f * 2 ^ e := by
  have hf := x.frac_lt
  have he := F32.expo_lt_of_finite h
  unfold F32.mag
  split
  · exact ⟨x.frac, 0, by omega, by omega, by ring⟩
  · exact ⟨x.frac + 2 ^ 23, x.expo - 1, by omega, by omega, rfl⟩

/-- Binary32 holds every significand of 24 bits in every unit up to 2^253. -/
theorem F32.exists_mag {f e : Nat} (hf : f < 2 ^ 24) (he : e ≤ 253) :
    ∃ y : F32, y.isFinite = true ∧ y.mag = f * 2 ^ e := by
  induction e generalizing f with
  | zero =>
    have hm : f < 2 ^ 31 := by omega
    have hbits := F32.magBits_eq (F32.pack false f)
    have hfrac := (F32.pack false f).frac_lt
    rw [F32.magBits_pack hm] at hbits
    refine ⟨F32.pack false f, ?_, ?_⟩
    · rw [F32.isFinite_iff, F32.magBits_pack hm, F32.infBits]
      omega
    · unfold F32.mag
      split
      · omega
      · have hone : (F32.pack false f).expo = 1 := by omega
        rw [hone]
        omega
  | succ e ih =>
    by_cases hsmall : f < 2 ^ 23
    · obtain ⟨y, hy, hmag⟩ := ih (f := 2 * f) (by omega) (by omega)
      exact ⟨y, hy, by rw [hmag]; ring⟩
    · have hm : (e + 1) * 2 ^ 23 + f < 2 ^ 31 := by omega
      have hbits := F32.magBits_eq (F32.pack false ((e + 1) * 2 ^ 23 + f))
      have hfrac := (F32.pack false ((e + 1) * 2 ^ 23 + f)).frac_lt
      rw [F32.magBits_pack hm] at hbits
      have hexpo : (F32.pack false ((e + 1) * 2 ^ 23 + f)).expo = e + 2 := by omega
      refine ⟨F32.pack false ((e + 1) * 2 ^ 23 + f), ?_, ?_⟩
      · rw [F32.isFinite_iff, F32.magBits_pack hm, F32.infBits]
        omega
      · have hsum : (F32.pack false ((e + 1) * 2 ^ 23 + f)).frac + 2 ^ 23 = f := by omega
        rw [F32.mag, hexpo, if_neg (by omega), hsum]
        rfl

/-! ## What a rounding delivers -/

/-- Rounding stays at or below a number that binary32 holds, and is finite there. -/
theorem F32.round_le {y : F32} (hy : y.isFinite = true) {num den : Nat} (hd : 0 < den) (h : num ≤ y.mag * den) (s : Bool) :
    (F32.round s num den).isFinite = true ∧ (F32.round s num den).mag ≤ y.mag := by
  have hbits : roundMag num den ≤ y.magBits := by
    have hself := roundMag_mag y hy 1 Nat.one_pos
    exact hself ▸ roundMag_mono hd Nat.one_pos (by simpa using h)
  have hle : (F32.round s num den).magBits ≤ y.magBits := by rwa [F32.magBits_round]
  rw [F32.isFinite_iff] at hy ⊢
  exact ⟨hle.trans_lt hy, F32.mag_mono hle⟩

/-- A number that binary32 holds is not changed by rounding. -/
theorem F32.round_exact {f e c : Nat} (hf : f < 2 ^ 24) (he : e ≤ 253) (hc : 0 < c) (s : Bool) :
    (F32.round s (f * 2 ^ e * c) c).isFinite = true ∧ (F32.round s (f * 2 ^ e * c) c).mag = f * 2 ^ e := by
  obtain ⟨y, hy, hmag⟩ := F32.exists_mag hf he
  have hbits : (F32.round s (f * 2 ^ e * c) c).magBits = y.magBits := by
    rw [F32.magBits_round, ← hmag, roundMag_mag y hy c hc]
  refine ⟨?_, (F32.mag_mono hbits.le).antisymm (F32.mag_mono hbits.ge) |>.trans hmag⟩
  rw [F32.isFinite_iff] at hy ⊢
  rwa [hbits]

/-- The product of finite numbers is one rounding of their exact product. -/
theorem F32.mul_of_finite {x y : F32} (hx : x.isFinite = true) (hy : y.isFinite = true) :
    x.mul y = F32.round (x.sign != y.sign) (x.mag * y.mag) (2 ^ 149) := by
  simp [F32.mul, F32.not_nan_of_finite hx, F32.not_nan_of_finite hy, F32.not_inf_of_finite hx, F32.not_inf_of_finite hy]

/-- A sum of finite numbers is a zero, or one rounding of their exact sum. -/
theorem F32.add_of_finite {x y : F32} (hx : x.isFinite = true) (hy : y.isFinite = true) :
    x.add y = if x.scaled + y.scaled = 0 then F32.pack (x.sign && y.sign) 0
      else F32.round (x.scaled + y.scaled < 0) (x.scaled + y.scaled).natAbs 1 := by
  simp [F32.add, F32.sum, F32.not_nan_of_finite hx, F32.not_nan_of_finite hy, F32.not_inf_of_finite hx,
    F32.not_inf_of_finite hy]

@[simp] theorem F32.mag_pack_zero (s : Bool) : (F32.pack s 0).mag = 0 := by
  rw [F32.mag_eq_zero, F32.magBits_pack (by decide)]

theorem F32.isFinite_pack_zero (s : Bool) : (F32.pack s 0).isFinite = true :=
  F32.isFinite_of_mag_zero (F32.mag_pack_zero s)

/-- A sum of finite numbers is finite where their magnitudes add up to one that binary32 holds, and no larger. -/
theorem F32.add_le {x y z : F32} (hx : x.isFinite = true) (hy : y.isFinite = true) (hz : z.isFinite = true)
    (h : x.mag + y.mag ≤ z.mag) : (x.add y).isFinite = true ∧ (x.add y).mag ≤ z.mag := by
  have habs (w : F32) : w.scaled.natAbs = w.mag := by
    unfold F32.scaled
    split <;> simp
  rw [F32.add_of_finite hx hy]
  split
  · exact ⟨F32.isFinite_pack_zero _, by simp⟩
  · refine F32.round_le hz Nat.one_pos ?_ _
    have htri := Int.natAbs_add_le x.scaled y.scaled
    rw [habs, habs] at htri
    omega

/-! ## Halving -/

/-- A fraction less than half above a natural rounds down to it. -/
theorem roundNearest_le_of_lt_half {n d k : Nat} (hd : 0 < d) (h : 2 * n < (2 * k + 1) * d) : roundNearest n d ≤ k := by
  have hn := Nat.div_add_mod n d
  have hr := Nat.mod_lt n hd
  have hk : n / d < k + 1 := by
    rw [Nat.div_lt_iff_lt_mul hd]
    nlinarith
  simp only [roundNearest]
  split
  · next hup =>
    by_contra hlt
    have hq : n / d = k := by omega
    rw [hq] at hn
    have : 2 * n = 2 * (d * k) + 2 * (n % d) := by omega
    have : (2 * k + 1) * d = 2 * (d * k) + d := by ring
    omega
  · omega

/-- Below the least exponent the magnitude is its bits. -/
theorem F32.mag_of_magBits_lt {x : F32} (h : x.magBits < 2 ^ 23) : x.mag = x.magBits := by
  have hbits := x.magBits_eq
  have hexpo : x.expo = 0 := by omega
  rw [F32.mag, if_pos hexpo, hbits, hexpo]
  omega

/-- A product with a factor of at most 127/256 is at most half of the other operand: where the half is no number that
binary32 holds, the product is nearer to the number below the half. -/
theorem F32.half_mul_le {r : Nat} (hr : r ≤ 127) {x : F32} (hx : x.isFinite = true) (s : Bool) :
    (F32.round s (r * 2 ^ 141 * x.mag) (2 ^ 149)).isFinite = true ∧
    2 * (F32.round s (r * 2 ^ 141 * x.mag) (2 ^ 149)).mag ≤ x.mag := by
  obtain ⟨f, e, hf, he, hmag⟩ := F32.mag_eq_mul_pow hx
  have hproduct : r * f ≤ 127 * f := Nat.mul_le_mul_right f hr
  cases e with
  | zero =>
    rw [Nat.pow_zero, Nat.mul_one] at hmag
    rw [hmag]
    have hnum : r * 2 ^ 141 * f = r * f * 2 ^ 141 := by ring
    have hwhole : r * 2 ^ 141 * f / 2 ^ 149 < 2 ^ 23 := by
      rw [hnum]
      omega
    have hshift : ulpShift (r * 2 ^ 141 * f / 2 ^ 149) = 0 := by
      by_contra hne
      have := (ulpShift_bounds (r * 2 ^ 141 * f / 2 ^ 149)).2 (Nat.pos_of_ne_zero hne)
      have hpow := Nat.pow_le_pow_right (n := 2) (by decide) (Nat.le_add_right 23 (ulpShift (r * 2 ^ 141 * f / 2 ^ 149)))
      omega
    have hsig : roundNearest (r * 2 ^ 141 * f) (2 ^ 149) ≤ f / 2 := by
      rcases Nat.eq_zero_or_pos f with rfl | hpos
      · exact roundNearest_le (by positivity) (by simp)
      · refine roundNearest_le_of_lt_half (by positivity) ?_
        rw [hnum]
        omega
    have hbits : (F32.round s (r * 2 ^ 141 * f) (2 ^ 149)).magBits ≤ f / 2 := by
      rw [F32.magBits_round, roundMag_eq, significand, hshift, Nat.pow_zero, Nat.mul_one, Nat.zero_mul, Nat.zero_add]
      exact (Nat.min_le_left _ _).trans hsig
    rw [F32.isFinite_iff, F32.infBits, F32.mag_of_magBits_lt (by omega)]
    omega
  | succ e =>
    obtain ⟨y, hy, hymag⟩ := F32.exists_mag hf (show e ≤ 253 by omega)
    have hhalf : x.mag = 2 * y.mag := by
      rw [hmag, hymag]
      ring
    have hle : r * 2 ^ 141 * x.mag ≤ y.mag * 2 ^ 149 := by
      have hry : r * y.mag ≤ 127 * y.mag := Nat.mul_le_mul_right _ hr
      have hnum : r * 2 ^ 141 * x.mag = r * y.mag * 2 ^ 142 := by
        rw [hhalf]
        ring
      rw [hnum]
      omega
    obtain ⟨hfin, hmag'⟩ := F32.round_le hy (by positivity) hle s
    exact ⟨hfin, by omega⟩

end Sys2Proof
end

section
/-!
PROOFS. The identity of the resamplers at one sample a step (41_resampler R161), and the reverb of silence (46_reverb R288,
R289).
-/

namespace Sys2Proof

/-! ## Negation and difference -/

theorem F32.magBits_neg (x : F32) : x.neg.magBits = x.magBits := by
  have hlt := x.bits.isLt
  simp only [F32.magBits, F32.neg]
  have hlow : (x.bits ^^^ 0x80000000#32).toNat % 2 ^ 31 = x.bits.toNat % 2 ^ 31 := by
    rw [BitVec.toNat_xor, Nat.xor_mod_two_pow]
    simp
  exact hlow

theorem F32.sign_neg (x : F32) : x.neg.sign = !x.sign := by
  simp [F32.sign, F32.neg]

theorem F32.mag_neg (x : F32) : x.neg.mag = x.mag :=
  (F32.mag_mono x.magBits_neg.le).antisymm (F32.mag_mono x.magBits_neg.ge)

theorem F32.isFinite_neg {x : F32} (h : x.isFinite = true) : x.neg.isFinite = true := by
  rw [F32.isFinite_iff] at h ⊢
  rwa [F32.magBits_neg]

/-- A difference of finite numbers is a sum. -/
theorem F32.sub_of_finite {x y : F32} (hx : x.isFinite = true) (hy : y.isFinite = true) : x.sub y = x.add y.neg := by
  have hneg := F32.isFinite_neg hy
  simp [F32.sub, F32.add, F32.sum, F32.not_nan_of_finite hx, F32.not_nan_of_finite hy, F32.not_nan_of_finite hneg,
    F32.not_inf_of_finite hx, F32.not_inf_of_finite hneg]

end Sys2Proof

namespace Sys2Proof.Machine

/-! ## Source samples -/

/-- What the sources deliver: finite, of magnitude at most 1, and no negative zero (R171, R192, R197, R205). -/
def IsSample (x : F32) : Prop := x.isFinite = true ∧ (x.mag = 0 → x.sign = false) ∧ x.mag ≤ 2 ^ 149

theorem isSample_zero : IsSample F32.zero := by unfold IsSample; decide

theorem isSample_halfLevel (b : Bool) : IsSample (halfLevel b) := by
  cases b <;> (unfold IsSample; decide)

theorem isSample_sampleValue (b : Byte) : IsSample (sampleValue b) := by
  unfold IsSample
  revert b
  decide +kernel

theorem isSample_nibbleValue (n : BitVec 4) : IsSample (nibbleValue n) := by
  unfold IsSample
  revert n
  decide +kernel

/-- Every source delivers samples, the wave one where its buffer is one that Unpack writes (R161). -/
theorem isSample_src (s : State) {v : Voice}
    (hbuf : ∀ buf, v.source = .wave buf → ∀ x ∈ buf.toList, ∃ n : BitVec 4, x = nibbleValue n) (k : Int) :
    IsSample (v.src s k) := by
  unfold Voice.src
  cases hsrc : v.source with
  | pcm d =>
    obtain hneg | ⟨n, rfl⟩ : k < 0 ∨ ∃ n : Nat, k = n := (lt_or_ge k 0).imp_right Int.eq_ofNat_of_zero_le
    · dsimp only
      rw [pcmSrc_of_neg hneg]
      exact isSample_zero
    · dsimp only
      rw [pcmSrc_natCast]
      split
      · exact isSample_sampleValue _
      · split
        · exact isSample_sampleValue _
        · exact isSample_zero
  | square u duty => exact isSample_halfLevel _
  | wave buf =>
    have hmem : waveSrc buf k ∈ buf.toList := by
      rw [waveSrc, Vector.get_eq_getElem, Vector.mem_toList_iff]
      exact Vector.getElem_mem _
    obtain ⟨n, hn⟩ := hbuf buf hsrc _ hmem
    dsimp only
    rw [hn]
    exact isSample_nibbleValue n
  | noise p => exact isSample_halfLevel _

/-! ## The variants at `fpos = +0.0` and `phaseInc = 1.0` -/

/-- Linear with a fraction of zero gives its first sample (R156). -/
theorem linear_at_zero {a b : F32} (ha : IsSample a) (hb : IsSample b) : a.add ((b.sub a).mul F32.zero) = a := by
  obtain ⟨hafin, hasign, hamag⟩ := ha
  obtain ⟨hbfin, -, hbmag⟩ := hb
  have htwo : F32.two.isFinite = true ∧ F32.two.mag = 2 ^ 150 := by decide
  have hdiff : (b.sub a).isFinite = true := by
    rw [F32.sub_of_finite hbfin hafin]
    refine (F32.add_le hbfin (F32.isFinite_neg hafin) htwo.1 ?_).1
    rw [F32.mag_neg, htwo.2]
    omega
  exact F32.add_zero hafin hasign (F32.mul_zero hdiff (by decide))

/-- Adding taps of the unit impulse other than the seventh changes nothing (R157). -/
theorem foldl_impulse_of_ne {x : Nat → F32} (hx : ∀ k, IsSample (x k)) {acc : F32} (hacc : IsSample acc) (ks : List Nat)
    (hks : ∀ k ∈ ks, k ≠ 7) : ks.foldl (fun acc k => acc.add ((unitImpulse k).mul (x k))) acc = acc := by
  induction ks with
  | nil => rfl
  | cons k ks ih =>
    obtain ⟨hk, hks⟩ := List.forall_mem_cons.1 hks
    obtain ⟨hfin, hsign, -⟩ := hacc
    have hzero : ((unitImpulse k).mul (x k)).mag = 0 := by
      rw [unitImpulse, if_neg hk]
      exact F32.zero_mul (by decide) (hx k).1
    rw [List.foldl_cons, F32.add_zero hfin hsign hzero, ih hks]

/-- The sixteen taps of the unit impulse give the seventh sample (R17, R157). -/
theorem foldl_impulse {x : Nat → F32} (hx : ∀ k, IsSample (x k)) :
    (List.range 16).foldl (fun acc k => acc.add ((unitImpulse k).mul (x k))) F32.zero = x 7 := by
  have hrange : List.range 16 = List.range 7 ++ 7 :: [8, 9, 10, 11, 12, 13, 14, 15] := by decide
  obtain ⟨hfin, hsign, -⟩ := hx 7
  have hseven : F32.zero.add ((unitImpulse 7).mul (x 7)) = x 7 := by
    rw [unitImpulse, if_pos rfl, F32.one_mul hfin]
    exact F32.zero_add hfin hsign (by decide)
  rw [hrange, List.foldl_append, foldl_impulse_of_ne hx isSample_zero _ (by decide), List.foldl_cons, hseven,
    foldl_impulse_of_ne hx (hx 7) _ (by decide)]

/-- Settles O39: each variant gives the current sample, and the position moves by the whole part of 1.0. -/
theorem identityResampling : Obligations.IdentityResampling := by
  intro s v hfpos hinc hbuf
  have hsample := isSample_src s hbuf
  have hlinear : resampleLinear s v = v.src s v.ipos.toNat := by
    rw [resampleLinear, hfpos]
    exact linear_at_zero (hsample _) (hsample _)
  have hsinc {kernel : F32 → F32 → Nat → F32} (hk : ∀ k, kernel F32.zero F32.one k = unitImpulse k) :
      resampleSinc s kernel v = v.src s v.ipos.toNat := by
    simp only [resampleSinc, hfpos, hinc, hk, Config.sincTaps]
    rw [foldl_impulse fun k => hsample _]
    congr 1
    exact Int.sub_add_cancel _ 7
  have hsincKernel := hsinc (sincKernel_impulse s.launch)
  have hblepKernel := hsinc (blepKernel_impulse s.launch)
  have hconfigured : resampleConfigured s v = v.src s v.ipos.toNat := by
    unfold resampleConfigured
    split
    · rfl
    · split
      · exact hlinear
      · exact hsincKernel
  have hresample : resample s v = v.src s v.ipos.toNat := by
    unfold resample
    cases v.source with
    | pcm | wave => exact hconfigured
    | square => exact hblepKernel
    | noise => exact hsincKernel
  have hsum : F32.zero.add F32.one = F32.one := by decide
  have hfloor : F32.one.floorNat = 1 := by decide
  have hrest : F32.one.sub (F32.ofNat 1) = F32.zero := by decide
  refine ⟨hresample, rfl, hlinear, hsincKernel, hblepKernel, ?_, ?_⟩
  · simp only [advanceVoice, hfpos, hinc, hsum, hfloor, hrest]
  · simp only [advanceVoice, hfpos, hinc, hsum, hfloor]

/-! ## Zero in, zero out -/

/-- A zero of either sign added to `+0.0` is `+0.0`. -/
theorem zero_add_zero {z : F32} (hz : z.mag = 0) : F32.zero.add z = F32.zero :=
  F32.add_zero (by decide) (by decide) hz

/-- A finite factor takes zero to a zero (R283, R285). -/
theorem mul_zero_mag {g : F32} (hg : g.isFinite = true) : (g.mul F32.zero).mag = 0 :=
  F32.mul_zero hg (by decide)

/-- A sum of two zeros is a zero. -/
theorem add_mag_zero {x y : F32} (hx : x.mag = 0) (hy : y.mag = 0) : (x.add y).mag = 0 :=
  Nat.le_zero.1 ((F32.add_le (z := F32.zero) (F32.isFinite_of_mag_zero hx) (F32.isFinite_of_mag_zero hy) (by decide)
    (by rw [hx, hy]; decide)).2)

/-- A delay line of `b` zeros (R56). -/
def zeroLine (b pos : Nat) : RevLine := { line := List.replicate b silence, pos := pos }

@[simp] theorem zeroLine_entry (b pos i : Nat) : (zeroLine b pos).entry i = silence := by
  by_cases h : i < b <;> simp [zeroLine, RevLine.entry, h]

theorem zeroLine_push (b d pos : Nat) : (zeroLine b pos).push d silence = zeroLine b ((pos + 1) % d) := by
  simp [zeroLine, RevLine.push]

/-- The NORMAL gain is `engineRev / 256`, below one half (R283). -/
theorem normalGain_spec (engineRev : BitVec 7) :
    (normalGain engineRev).isFinite = true ∧ (normalGain engineRev).mag = engineRev.toNat * 2 ^ 141 := by
  revert engineRev
  decide +kernel

theorem normalSample_zero (engineRev : BitVec 7) (b pos : Nat) :
    normalSample (normalGain engineRev) (zeroLine b pos) silence = silence := by
  have hzero := zero_add_zero (mul_zero_mag (normalGain_spec engineRev).1)
  simp only [normalSample, zeroLine_entry]
  exact Prod.ext hzero hzero

/-- The taps a state runs have finite matrices, if it has any (R285). -/
theorem taps_isFinite {s : State} {t : Tap} (ht : t ∈ s.taps) :
    t.ll.isFinite = true ∧ t.lr.isFinite = true ∧ t.rl.isFinite = true ∧ t.rr.isFinite = true := by
  unfold State.taps at ht
  cases hgiven : revTapsOf s.launch (cfgRevType s.config) (cfgEngineRev s.config) s.blockSamples with
  | none => simp [hgiven] at ht
  | some taps =>
    rw [hgiven, Option.getD_some] at ht
    obtain ⟨r, hr, rfl⟩ := Option.map_eq_some_iff.1 hgiven
    have hrow := List.find?_some hr
    simp only [RevRow.legal, Bool.and_eq_true, List.all_eq_true] at hrow
    obtain ⟨-, -, hall⟩ := hrow
    have htap := hall t ht
    simp only [Tap.legal, Bool.and_eq_true] at htap
    obtain ⟨⟨⟨⟨-, hll⟩, hlr⟩, hrl⟩, hrr⟩ := htap
    exact ⟨hll, hlr, hrl, hrr⟩

theorem tapsSample_zero (s : State) (d b pos : Nat) : tapsSample s.taps d (zeroLine b pos) silence = silence := by
  have hone {t : Tap} (ht : t ∈ s.taps) : tapSample (zeroLine b pos) d silence t = silence := by
    obtain ⟨hll, hlr, hrl, hrr⟩ := taps_isFinite ht
    simp only [tapSample, RevLine.delayed, zeroLine_entry]
    exact Prod.ext (zero_add_zero (add_mag_zero (mul_zero_mag hll) (mul_zero_mag hlr)))
      (zero_add_zero (add_mag_zero (mul_zero_mag hrl) (mul_zero_mag hrr)))
  unfold tapsSample
  generalize s.taps = taps at hone
  induction taps with
  | nil => rfl
  | cons t ts ih =>
    rw [List.foldl_cons, hone List.mem_cons_self]
    exact ih fun ht => hone (List.mem_cons_of_mem _ ht)

/-- A variant that gives silence for silence on a zero line does so over a whole buffer, and leaves the line zero. -/
theorem runReverb_silence {d b : Nat} {f : RevLine → Stereo → Stereo}
    (hf : ∀ pos, f (zeroLine b pos) silence = silence) (n pos : Nat) :
    (runReverb d f (zeroLine b pos) (List.replicate n silence)).1 = List.replicate n silence ∧
    (runReverb d f (zeroLine b pos) (List.replicate n silence)).2.line = List.replicate b silence := by
  induction n generalizing pos with
  | zero => exact ⟨rfl, rfl⟩
  | succ n ih =>
    obtain ⟨hout, hline⟩ := ih ((pos + 1) % d)
    simp only [List.replicate_succ, runReverb, hf, zeroLine_push, hout, hline, and_self]

/-- Settles O48: NONE touches nothing, and one sample of each other variant is silence. -/
theorem reverbZeroInZeroOut : Obligations.ReverbZeroInZeroOut := by
  intro s n b pos _ _
  change (reverb s (zeroLine b pos) (List.replicate n silence)).1 = List.replicate n silence ∧
    (reverb s (zeroLine b pos) (List.replicate n silence)).2.line = List.replicate b silence
  unfold reverb
  split
  · exact ⟨rfl, rfl⟩
  · split
    · exact runReverb_silence (normalSample_zero _ b) n pos
    · exact runReverb_silence (tapsSample_zero s _ b) n pos

/-! ## The NORMAL tail -/

/-- Adding to `+0.0` keeps the magnitude. -/
theorem zero_add_mag {z : F32} (hz : z.isFinite = true) :
    (F32.zero.add z).isFinite = true ∧ (F32.zero.add z).mag = z.mag := by
  by_cases hzero : z.mag = 0
  · rw [zero_add_zero hzero, hzero]
    decide
  · rw [F32.zero_add hz (fun h => absurd h hzero) (by decide)]
    exact ⟨hz, rfl⟩

/-- One output of NORMAL under zero input: finite, and at most half of the output one frame earlier (R289). -/
theorem normal_tail_sample (engineRev : BitVec 7) {e : F32} (he : e.isFinite = true) :
    (F32.zero.add ((normalGain engineRev).mul e)).isFinite = true ∧
    2 * (F32.zero.add ((normalGain engineRev).mul e)).mag ≤ e.mag := by
  obtain ⟨hg, hmag⟩ := normalGain_spec engineRev
  obtain ⟨hfin, hhalf⟩ := F32.half_mul_le (Nat.le_of_lt_succ engineRev.isLt) he ((normalGain engineRev).sign != e.sign)
  rw [F32.mul_of_finite hg he, hmag]
  obtain ⟨hsum, heq⟩ := zero_add_mag hfin
  exact ⟨hsum, heq ▸ hhalf⟩

/-- Every entry of a reverb line between frames is finite (R289). -/
def FiniteLine (l : RevLine) : Prop := ∀ e ∈ l.line, e.1.isFinite = true ∧ e.2.isFinite = true

/-- An entry of a finite line, or the silence beyond it, is finite. -/
theorem FiniteLine.entry {l : RevLine} (h : FiniteLine l) (i : Nat) :
    (l.entry i).1.isFinite = true ∧ (l.entry i).2.isFinite = true := by
  unfold RevLine.entry
  rcases Nat.lt_or_ge i l.line.length with hi | hi
  · rw [List.getD_eq_getElem _ _ hi]
    exact h _ (List.getElem_mem hi)
  · rw [List.getD_eq_default _ _ hi]
    decide

/-- One frame of NORMAL under zero input (R283, R289). -/
theorem normal_tail_frame {s : State} (hnormal : cfgRevType s.config = revNormal) {l : RevLine}
    (hl : l.line.length = s.blockSamples) (hpos : l.pos = 0) :
    let out := (reverb s l (List.replicate s.blockSamples silence)).1
    (reverb s l (List.replicate s.blockSamples silence)).2 = { line := out, pos := 0 } ∧ out.length = s.blockSamples ∧
    ∀ i < s.blockSamples,
      out.getD i silence = combSample (normalGain (cfgEngineRev s.config)) silence (l.entry i) := by
  have hbuf : (List.replicate s.blockSamples silence).length = s.blockSamples := List.length_replicate
  have hout := runReverb_normal (normalGain (cfgEngineRev s.config)) hl hbuf hpos
  have hline := (runReverb_frame (normalSample (normalGain (cfgEngineRev s.config))) hl hbuf hpos).1
  rw [reverb_of_normal hnormal]
  refine ⟨hline, by rw [runReverb_length, hbuf], fun i hi => ?_⟩
  rw [hout, RevLine.entry]
  simp [hi, hl]

/-- The line after `n` silent frames is one between frames, and finite (R282, R289). -/
theorem silentFrames_legal {s : State} (hnormal : cfgRevType s.config = revNormal) {l : RevLine}
    (hl : l.line.length = s.blockSamples) (hpos : l.pos = 0) (hfin : FiniteLine l) (n : Nat) :
    (silentFrames s l n).line.length = s.blockSamples ∧ (silentFrames s l n).pos = 0 ∧ FiniteLine (silentFrames s l n) := by
  induction n with
  | zero => exact ⟨hl, hpos, hfin⟩
  | succ n ih =>
    obtain ⟨hl', hpos', hfin'⟩ := ih
    obtain ⟨hline, hlen, hout⟩ := normal_tail_frame hnormal hl' hpos'
    rw [silentFrames, hline]
    refine ⟨hlen, rfl, fun e he => ?_⟩
    obtain ⟨i, hi, rfl⟩ := List.getElem_of_mem he
    obtain ⟨hleft, hright⟩ := hfin'.entry i
    have heq := hout i (hlen ▸ hi)
    rw [List.getD_eq_getElem _ _ hi] at heq
    rw [heq]
    exact ⟨(normal_tail_sample _ hleft).1, (normal_tail_sample _ hright).1⟩

/-- One silent frame halves every entry, on both channels (R289). -/
theorem silentFrames_halve {s : State} (hnormal : cfgRevType s.config = revNormal) {l : RevLine}
    (hl : l.line.length = s.blockSamples) (hpos : l.pos = 0) (hfin : FiniteLine l) (n : Nat) {i : Nat}
    (hi : i < s.blockSamples) :
    2 * ((silentFrames s l (n + 1)).entry i).1.mag ≤ ((silentFrames s l n).entry i).1.mag ∧
    2 * ((silentFrames s l (n + 1)).entry i).2.mag ≤ ((silentFrames s l n).entry i).2.mag := by
  obtain ⟨hl', hpos', hfin'⟩ := silentFrames_legal hnormal hl hpos hfin n
  obtain ⟨hline, -, hout⟩ := normal_tail_frame hnormal hl' hpos'
  obtain ⟨hleft, hright⟩ := hfin'.entry i
  rw [silentFrames, hline, RevLine.entry, hout i hi]
  exact ⟨(normal_tail_sample _ hleft).2, (normal_tail_sample _ hright).2⟩

/-- What halves in every frame is after `n` frames at most `2^−n` of what it was. -/
theorem two_pow_mul_le {a : Nat → Nat} (h : ∀ n, 2 * a (n + 1) ≤ a n) (n : Nat) : 2 ^ n * a n ≤ a 0 := by
  induction n with
  | zero => rw [pow_zero, one_mul]
  | succ n ih =>
    calc 2 ^ (n + 1) * a (n + 1) = 2 ^ n * (2 * a (n + 1)) := by ring
      _ ≤ 2 ^ n * a n := Nat.mul_le_mul_left _ (h n)
      _ ≤ a 0 := ih

/-- Settles O49: a frame halves every entry of the line, and the line then holds the frame. -/
theorem normalTailDecays : Obligations.NormalTailDecays := by
  intro s l hnormal hl hpos hfin n out
  obtain ⟨hl', hpos', -⟩ := silentFrames_legal hnormal hl hpos hfin n
  obtain ⟨hline, hlen, -⟩ := normal_tail_frame hnormal hl' hpos'
  refine ⟨hline, hlen, ?_⟩
  intro i hi
  dsimp only
  have hnext : silentFrames s l (n + 1) = { line := out, pos := 0 } := hline
  have hy : (silentFrames s l (n + 1)).entry i = out.getD i silence := congrArg (RevLine.entry · i) hnext
  obtain ⟨-, -, hnextfin⟩ := silentFrames_legal hnormal hl hpos hfin (n + 1)
  obtain ⟨hyfin, hyfin'⟩ := hnextfin.entry i
  have hhalf (n : Nat) := silentFrames_halve hnormal hl hpos hfin n hi
  have hleft := two_pow_mul_le (a := fun n => ((silentFrames s l n).entry i).1.mag) (fun n => (hhalf n).1) (n + 1)
  have hright := two_pow_mul_le (a := fun n => ((silentFrames s l n).entry i).2.mag) (fun n => (hhalf n).2) (n + 1)
  obtain ⟨hone, hone'⟩ := hhalf n
  rw [hy] at hyfin hyfin' hone hone'
  rw [hy] at hleft hright
  exact ⟨hyfin, hyfin', hone, hone', hleft, hright⟩

end Sys2Proof.Machine
end

section
/-!
PROOFS. What every step keeps of the registers, the reverb lines and the frames (10_state R30 to R40, R56, R62; 46_reverb
R282), and the frame of PROCESS (45_stream_generator R244, R249).
-/

namespace Sys2Proof.Machine

/-! ## The frame of PROCESS -/

/-- One output and one line for each track in use, the outputs as long as the block (R81, R281). -/
theorem reverbTracks_shape (s : State) :
    (reverbTracks s (produceFrame s).2).length = s.trackLimit ∧
    ∀ o ∈ (reverbTracks s (produceFrame s).2).map (·.1), o.length = s.blockSamples := by
  rw [produceFrame_eq, reverbTracks_map_range]
  simp

/-- A frame of tracks as long as the block is legal (R62, R249). -/
theorem frameOf_shape {b : Nat} {outs : List (List Stereo)} (houts : ∀ o ∈ outs, o.length = b) :
    (frameOf b outs).out.length = outs.length ∧ (∀ o ∈ (frameOf b outs).out, o.length = 2 * b) ∧
    (frameOf b outs).master.length = 2 * b := by
  refine ⟨List.length_map _, fun o ho => ?_, ?_⟩
  · obtain ⟨buf, hbuf, rfl⟩ := List.mem_map.1 ho
    rw [interleave_length, houts buf hbuf]
  · rw [frameOf, interleave_length, mixMaster_eq houts, List.length_map, List.length_range]

/-- The frame PROCESS appends (R244, R249). -/
def processedFrame (s : State) : Frame := frameOf s.blockSamples ((reverbTracks s (produceFrame s).2).map (·.1))

theorem processedFrame_shape (s : State) :
    (processedFrame s).out.length = s.trackLimit ∧ (∀ o ∈ (processedFrame s).out, o.length = 2 * s.blockSamples) ∧
    (processedFrame s).master.length = 2 * s.blockSamples := by
  obtain ⟨hcount, hlen⟩ := reverbTracks_shape s
  obtain ⟨hout, hbufs, hmaster⟩ := frameOf_shape hlen
  exact ⟨hout.trans ((List.length_map _).trans hcount), hbufs, hmaster⟩

/-- Settles O43: the frame of PROCESS, whose pool keeps no DEAD voice. -/
theorem processEmitsOneFrame : Obligations.ProcessEmitsOneFrame := by
  intro s hs hmem
  obtain ⟨hout, hbufs, hmaster⟩ := processedFrame_shape s
  refine ⟨processFrame s, processedFrame s, exec_process_of_samplesInMemory hs hmem, rfl, hout, hbufs, hmaster, fun v hv => ?_⟩
  rw [processFrame_pool, live_eq, List.mem_filter, decide_eq_true_eq] at hv
  exact hv.2

/-! ## Checks that passed -/

/-- A command that tests the configured check first and passes runs in a configured block (R336). -/
theorem configured_of_pass {s : State} {i : Instr} (hpass : firstError (checksOf s i) = none)
    (hhead : (checksOf s i).head? = some (!s.configured, .notCfg)) : s.configured = true := by
  by_contra hs
  rw [firstError_of_head? hhead (by simpa using hs)] at hpass
  cases hpass

/-- A check of a command that passes. -/
theorem check_of_pass {s : State} {i : Instr} (hpass : firstError (checksOf s i) = none) {b : Bool} {e : ErrSub}
    (hmem : (b, e) ∈ checksOf s i) : b = false :=
  firstError_eq_none.1 hpass _ hmem

/-! ## What leaves the registers as they are -/

@[simp] theorem takeError_configured (s : State) (e : ErrSub) (trk : BitVec 4) (n : Nat) :
    (s.takeError e trk n).configured = s.configured := by
  cases hk : e.kind <;> simp only [State.takeError, hk] <;>
    exact (setBit_getLsbD s.status _ 0 (by decide)).trans (Bool.or_false _)

/-- An error sets bits below the reserved ones, and writes a cause (R333 to R339). -/
theorem takeError_reservedZero {s : State} (h : s.reservedZero) (e : ErrSub) (trk : BitVec 4) (n : Nat) :
    (s.takeError e trk n).reservedZero := by
  obtain ⟨hconfig, hpoly, hstatus, hended, -, hfine, herr, hctl⟩ := h
  have hcause := errCauseWord_toNat_lt e trk
  have hfine' := setBit_toNat_lt hfine trk.isLt
  have herr' := setBit_toNat_lt herr trk.isLt
  have hbit {i : Nat} (hi : i < 5) (hne : i ≠ 3) : (setBit s.status i).toNat < 2 ^ 5 ∧
      (setBit s.status i).getLsbD 3 = false :=
    ⟨setBit_toNat_lt hstatus hi, by rw [setBit_getLsbD _ _ _ (by omega), hended]; simp [hne.symm]⟩
  cases hk : e.kind <;> simp only [State.takeError, hk]
  case config | logic =>
    obtain ⟨hs, hs'⟩ := hbit (i := statusHaltBit) (by decide) (by decide)
    exact ⟨hconfig, hpoly, hs, hs', hcause, hfine, herr, hctl⟩
  case data =>
    obtain ⟨hs, hs'⟩ := hbit (i := statusDataErrBit) (by decide) (by decide)
    exact ⟨hconfig, hpoly, hs, hs', hcause, hfine', herr', hctl⟩
  case resource =>
    obtain ⟨hs, hs'⟩ := hbit (i := statusDropBit) (by decide) (by decide)
    exact ⟨hconfig, hpoly, hs, hs', hcause, hfine, herr, hctl⟩

/-- An error keeps the registers legal. -/
theorem takeError_registersLegal {s : State} (h : s.registersLegal) (e : ErrSub) (trk : BitVec 4) (n : Nat) :
    (s.takeError e trk n).registersLegal := by
  obtain ⟨hzero, hconf, hunconf⟩ := h
  refine ⟨takeError_reservedZero hzero e trk n, fun hs => ?_, fun hs => ?_⟩
  · rw [takeError_configured] at hs
    have := hconf hs
    simpa [State.configuredLegal, State.trackLimit, State.blockSamples] using this
  · rw [takeError_configured] at hs
    have := hunconf hs
    simpa [State.unconfiguredLegal] using this

/-- In a configured block no register rule speaks of the pool. -/
theorem setPool_registersLegal {s : State} (hs : s.configured = true) (h : s.registersLegal) (pool : List Voice) :
    { s with pool := pool }.registersLegal := by
  obtain ⟨hzero, hconf, -⟩ := h
  exact ⟨hzero, hconf, fun hnot => absurd hs (Bool.eq_false_iff.1 hnot)⟩

/-- Placing a voice changes the pool, or drops the note (R229). -/
theorem placeVoice_registersLegal {s : State} (hs : s.configured = true) (h : s.registersLegal) (v : Voice) :
    (s.placeVoice v).registersLegal := by
  unfold State.placeVoice
  split
  · exact setPool_registersLegal hs h _
  · exact takeError_registersLegal h _ _ 0

theorem admitCgb_registersLegal {s : State} (hs : s.configured = true) (h : s.registersLegal) (v : Voice) :
    (s.admitCgb v).registersLegal :=
  placeVoice_registersLegal (s := s.cgbPreempt v.track v.kind) hs (setPool_registersLegal hs h _) v

theorem admitPcm_registersLegal {s : State} (hs : s.configured = true) (h : s.registersLegal) (v : Voice) :
    (s.admitPcm v).registersLegal := by
  unfold State.admitPcm
  split
  · exact placeVoice_registersLegal hs h v
  · split
    · exact takeError_registersLegal h _ _ 0
    · exact setPool_registersLegal hs h _

/-! ## CFG -/

/-- What CFG has checked when it has its effect (R109, R241). -/
structure CfgChecked (s : State) (c p : Word) : Prop where
  unconfigured : s.configured = false
  configRsvd : cfgReserved c = 0
  polyRsvd : polyReserved p = 0
  rate : mixRateOf s.launch (cfgEngineFreq c) = some (cfgMixRate s c)
  revType : (cfgRevType c).toNat ≤ 4
  resamp : cfgResamp c ≠ 3
  tracks : 1 ≤ (cfgTrackLimit c).toNat ∧ (cfgTrackLimit c).toNat ≤ Config.trackMax
  block : 4 ≤ cfgBlock s c
  taps : revUsesTaps (cfgRevType c) = true →
    (revTapsOf s.launch (cfgRevType c) (cfgEngineRev c) (cfgBlock s c)).isSome = true

theorem cfgChecked_of_pass {s : State} {c p : Word} (hpass : firstError (checksOf s (.cfg c p)) = none) :
    CfgChecked s c p := by
  have hall := firstError_eq_none.1 hpass
  simp only [checksOf, cfgChecks, List.forall_mem_cons] at hall
  obtain ⟨hre, hrsvd, hfreq, hrev, hresamp, htracks, hblock, htaps, -⟩ := hall
  have hlimit := mt (trackLimit_illegal_iff c).2 (Bool.eq_false_iff.1 htracks)
  obtain ⟨hc, hp⟩ : cfgReserved c = 0 ∧ polyReserved p = 0 := by simpa using hrsvd
  obtain ⟨rate, hrate⟩ : ∃ rate, mixRateOf s.launch (cfgEngineFreq c) = some rate :=
    Option.isSome_iff_exists.1 (by simpa using hfreq)
  refine ⟨hre, hc, hp, ?_, by simpa using hrev, by simpa using hresamp, ?_, by simpa using hblock, fun hu => ?_⟩
  · rw [(cfgMixRate_of_some hrate).1, hrate]
  · rw [Config.trackMax]
    omega
  · simpa [hu] using htaps

/-- A word whose upper bits are zero is small. -/
theorem toNat_lt_of_extract_zero {w : Word} {i n : Nat} (hin : i + n = 32) (h : w.extractLsb' i n = 0) :
    w.toNat < 2 ^ i := by
  have hw : w.toNat < 2 ^ i * 2 ^ n := by
    rw [← pow_add, hin]
    exact w.isLt
  have hzero : w.toNat >>> i % 2 ^ n = 0 := by rw [← BitVec.extractLsb'_toNat, h]; rfl
  rw [Nat.shiftRight_eq_div_pow, Nat.mod_eq_of_lt (Nat.div_lt_of_lt_mul hw)] at hzero
  exact (Nat.div_eq_zero_iff_lt (by positivity)).1 hzero

/-- The block of a mix rate is a word (R12, R33). -/
theorem bufCnt_toNat (rate : Word) : (BitVec.ofNat 32 (blockSamplesOf rate)).toNat = blockSamplesOf rate := by
  rw [BitVec.toNat_ofNat, Nat.mod_eq_of_lt]
  exact (Nat.div_le_self _ _).trans_lt rate.isLt

/-- A legal CFG leaves a legal configuration (R241). -/
theorem cfgEffect_registersLegal {s : State} {c p : Word} (h : s.registersLegal) (hc : CfgChecked s c p) :
    (cfgEffect c p s).registersLegal := by
  obtain ⟨⟨-, -, hstatus, hended, hcause, hfine, herr, hctl⟩, -, hunconf⟩ := h
  obtain ⟨-, -, -, -, -, -, haudio⟩ := hunconf hc.unconfigured
  obtain ⟨hlo, hhi⟩ := hc.tracks
  have hconfigured : (cfgEffect c p s).configured = true :=
    (setBit_getLsbD s.status 0 0 (by decide)).trans (by simp)
  have hbit : (setBit s.status statusConfiguredBit).getLsbD 3 = false :=
    (setBit_getLsbD s.status 0 3 (by decide)).trans (by rw [hended]; rfl)
  have hblock : (cfgEffect c p s).blockSamples = cfgBlock s c := bufCnt_toNat _
  refine ⟨⟨toNat_lt_of_extract_zero (n := 7) rfl hc.configRsvd, toNat_lt_of_extract_zero (n := 16) rfl hc.polyRsvd,
    setBit_toNat_lt hstatus (by decide), hbit, hcause, hfine, herr, hctl⟩, fun _ => ?_,
    fun hs => absurd hconfigured (Bool.eq_false_iff.1 hs)⟩
  refine ⟨hc.rate, hblock, hblock ▸ hc.block, hc.revType, hc.resamp, hlo, hhi, fun hu => ?taps,
    List.length_replicate, ?rev, ?audio⟩
  case taps =>
    rw [hblock]
    exact hc.taps hu
  case rev =>
    rw [hblock]
    exact List.all_eq_true.2 fun l hl => by
      rw [List.eq_of_mem_replicate hl]
      simp [RevLine.legal, freshLine]
  case audio =>
    rw [cfgEffect_audio, haudio]
    rfl

/-! ## SETVOL and TRKFINE -/

/-- The word SETVOL writes is a legal TRKCTL word (R40, R250). -/
theorem trkCtlWord_legal {vol pan : Byte} (hvol : above127 vol = false) (hpan : panIllegal pan = false) :
    trkCtlLegal (trkCtlWord vol pan) = true := by
  have hnat := trkCtlWord_toNat vol pan
  have hv : vol.toNat ≤ 127 := by simpa [above127] using hvol
  have hp := pan.isLt
  have hfield : (trkCtlWord vol pan).extractLsb' 8 8 = pan := by
    apply BitVec.eq_of_toNat_eq
    rw [BitVec.extractLsb'_toNat, hnat, Nat.shiftRight_eq_div_pow]
    omega
  have hbit : (trkCtlWord vol pan).getLsbD 7 = false := by
    rw [← BitVec.testBit_toNat, hnat, Nat.testBit_eq_decide_div_mod_eq]
    simp only [decide_eq_false_iff_not]
    omega
  obtain ⟨hlo, hhi⟩ : -64 ≤ pan.toInt ∧ pan.toInt ≤ 63 := by simpa [panIllegal] using hpan
  have hsmall : (trkCtlWord vol pan).toNat < 2 ^ 16 := by
    rw [hnat]
    omega
  rw [trkCtlLegal, ctlPan, hfield, hbit]
  simp only [Bool.not_false, Bool.true_and, Bool.and_eq_true, decide_eq_true_eq]
  exact ⟨⟨hsmall, hlo⟩, hhi⟩

/-- A legal word written to one track leaves all of TRKCTL legal (R40). -/
theorem setTrkCtl_registersLegal {s : State} (h : s.registersLegal) (trk : BitVec 4) {w : Word}
    (hw : trkCtlLegal w = true) : (s.setTrkCtl trk w).registersLegal := by
  obtain ⟨⟨hconfig, hpoly, hstatus, hended, hcause, hfine, herr, hctl⟩, hconf, hunconf⟩ := h
  refine ⟨⟨hconfig, hpoly, hstatus, hended, hcause, hfine, herr, List.all_eq_true.2 fun x hx => ?_⟩, hconf, hunconf⟩
  rw [setTrkCtl_trkCtl, Vector.toList_set] at hx
  obtain hold | rfl := List.mem_or_eq_of_mem_set hx
  · exact List.all_eq_true.1 hctl x hold
  · exact hw

/-- One bit of a track written leaves the reserved bits of TRKFINE zero (R37, R259). -/
theorem setFine_registersLegal {s : State} (h : s.registersLegal) (trk : BitVec 4) (fine : Bool) :
    { s with trkFine := assignBit s.trkFine trk.toNat fine }.registersLegal := by
  obtain ⟨⟨hconfig, hpoly, hstatus, hended, hcause, hfine, herr, hctl⟩, hconf, hunconf⟩ := h
  have hassign : (assignBit s.trkFine trk.toNat fine).toNat < 2 ^ 16 := by
    unfold assignBit
    split
    · exact setBit_toNat_lt hfine trk.isLt
    · exact clearBit_toNat_lt hfine
  exact ⟨⟨hconfig, hpoly, hstatus, hended, hcause, hassign, herr, hctl⟩, hconf, hunconf⟩

/-! ## PROCESS -/

/-- Every variant leaves a line between frames as one (R282). -/
theorem reverb_line_legal {s : State} {l : RevLine} {buf : List Stereo} (hl : l.legal s.blockSamples = true)
    (hbuf : buf.length = s.blockSamples) : (reverb s l buf).2.legal s.blockSamples = true := by
  have hlegal := hl
  simp only [RevLine.legal, Bool.and_eq_true, decide_eq_true_eq] at hl
  obtain ⟨hlen, hpos⟩ := hl
  have hrun (f : RevLine → Stereo → Stereo) : (runReverb s.blockSamples f l buf).2.legal s.blockSamples = true := by
    rw [(runReverb_frame f hlen hbuf hpos).1]
    simp [RevLine.legal, hbuf]
  unfold reverb
  split
  · exact hlegal
  · split <;> exact hrun _

/-- PROCESS keeps the lines legal and appends a legal frame (R244, R249, R282). -/
theorem processFrame_registersLegal {s : State} (hs : s.configured = true) (h : s.registersLegal) :
    (processFrame s).registersLegal := by
  obtain ⟨hzero, hconf, -⟩ := h
  refine ⟨hzero, fun _ => ?_, fun hnot => absurd hs (Bool.eq_false_iff.1 hnot)⟩
  obtain ⟨hrate, hblock, hfour, hrev, hresamp, hlo, hhi, htaps, hcount, hlines, hframes⟩ := hconf hs
  have hrev' : (processFrame s).rev =
      (List.range s.trackLimit).map fun t => (reverb s (s.rev.getD t { line := [], pos := 0 }) (mixedTrack s t)).2 := by
    rw [processFrame_rev, produceFrame_eq, reverbTracks_map_range, List.map_map]
    rfl
  refine ⟨hrate, hblock, hfour, hrev, hresamp, hlo, hhi, htaps, ?count, ?lines, ?frames⟩
  case count =>
    rw [hrev', List.length_map, List.length_range]
    rfl
  case lines =>
    rw [hrev']
    refine List.all_eq_true.2 fun l hl => ?_
    obtain ⟨t, ht, rfl⟩ := List.mem_map.1 hl
    have hin : t < s.rev.length := hcount ▸ List.mem_range.1 ht
    refine reverb_line_legal ?_ (mixedTrack_length s t)
    rw [List.getD_eq_getElem _ _ hin]
    exact List.all_eq_true.1 hlines _ (List.getElem_mem hin)
  case frames =>
    obtain ⟨hout, hbufs, hmaster⟩ := processedFrame_shape s
    have hnew : (processedFrame s).legal s.trackLimit s.blockSamples = true := by
      simp only [Frame.legal, Bool.and_eq_true, decide_eq_true_eq, List.all_eq_true]
      exact ⟨⟨hout, hbufs⟩, hmaster⟩
    have haudio : (processFrame s).audio = s.audio ++ [processedFrame s] := rfl
    rw [haudio, List.all_append, Bool.and_eq_true]
    exact ⟨hframes, List.all_eq_true.2 (List.forall_mem_singleton.2 hnew)⟩

/-! ## Every step -/

/-- Every effect keeps the registers legal. -/
theorem effectOf_registersLegal {s : State} {i : Instr} (hpass : firstError (checksOf s i) = none)
    (h : s.registersLegal) : (effectOf s i).registersLegal := by
  cases i with
  | nop | ended | getbuf | rdreg => exact h
  | cfg c p => exact cfgEffect_registersLegal h (cfgChecked_of_pass hpass)
  | reset | release => exact setPool_registersLegal (configured_of_pass hpass rfl) h _
  | noteonPcm => exact admitPcm_registersLegal (configured_of_pass hpass rfl) h _
  | noteonSq | noteonWave | noteonNoise => exact admitCgb_registersLegal (configured_of_pass hpass rfl) h _
  | setpitch trk anykey key pitch =>
    have hpool := setPool_registersLegal (configured_of_pass hpass rfl) h
    obtain heq | heq := setpitchEffect_cases trk anykey key pitch.pitch s <;> rw [effectOf, heq]
    · exact takeError_registersLegal (hpool _) _ _ _
    · exact hpool _
  | setvol trk vol pan =>
    have hvol := check_of_pass hpass (b := above127 vol) (e := .volPan) (by simp [checksOf])
    have hpan := check_of_pass hpass (b := panIllegal pan) (e := .volPan) (by simp [checksOf])
    exact setTrkCtl_registersLegal h trk (trkCtlWord_legal hvol hpan)
  | trkfine trk fine => exact setFine_registersLegal h trk fine
  | process => exact processFrame_registersLegal (configured_of_pass hpass rfl) h

/-- Settles O54: an error and every effect keep the registers legal. -/
theorem stepKeepsRegistersLegal : Obligations.StepKeepsRegistersLegal := by
  intro s t hs h
  exact step_induction (P := fun s t => s.registersLegal → t.registersLegal)
    (fun _ e trk n hs => takeError_registersLegal hs e trk n) (fun _ _ hpass hs => effectOf_registersLegal hpass hs) h hs

end Sys2Proof.Machine
end

section
/-!
PROOFS. Where the voices of a step's pool come from, and what every step keeps of them (10_state R53; 40_envelope R141;
20_memory R72, R76; 44_voice_allocation R225).
-/

namespace Sys2Proof.Machine

/-! ## Where a voice of the next pool comes from -/

/-- The voice a NOTEON asks a place for (R170, R190, R196, R201). -/
def noteOf (s : State) : Instr → Option Voice
  | .noteonPcm trk l key vel adsr pp base midc loopPos endPos =>
    some (newVoice (.pcm (pcmData l base midc loopPos endPos)) trk key vel adsr pp (pcmPhaseInc s ⟨midc⟩ pp.pitch))
  | .noteonSq trk unit duty key vel adsr pp =>
    some (newVoice (.square unit duty) trk key vel adsr pp (sqPhaseInc s pp.pitch))
  | .noteonWave trk key vel adsr pp waddr =>
    some (newVoice (.wave (unpackWave s waddr)) trk key vel adsr pp (wavePhaseInc s pp.pitch))
  | .noteonNoise trk pattern key vel adsr pp =>
    some (newVoice (.noise pattern) trk key vel adsr pp (noisePhaseInc s pp.pitch))
  | _ => none

/-- What a step can make of a voice of the pool, and the voice it can add (R130, R170, R175, R224, R245). -/
inductive SteppedFrom (s : State) : Voice → Prop
  | kept {v : Voice} (hv : v ∈ s.pool) : SteppedFrom s v
  | released {v : Voice} (hv : v ∈ s.pool) (fast : Bool) : SteppedFrom s (releaseVoice fast v)
  | repitched {v : Voice} (hv : v ∈ s.pool) {pitch : BitVec 16} (hfin : (v.phaseIncAt s pitch).isFinite = true) :
    SteppedFrom s { v with pitch := pitch, phaseInc := v.phaseIncAt s pitch }
  | rendered {v : Voice} (hv : v ∈ s.pool) (hlive : (voiceFrame s v).2.eState ≠ .dead) : SteppedFrom s (voiceFrame s v).2
  | created {i : Instr} {v : Voice} (hpass : firstError (checksOf s i) = none) (hnote : noteOf s i = some v) :
    SteppedFrom s v

/-- A voice of the pool that is released or left alone. -/
theorem SteppedFrom.of_release_if {s : State} {v : Voice} (hv : v ∈ s.pool) (b fast : Bool) :
    SteppedFrom s (if b then releaseVoice fast v else v) := by
  cases b
  · exact .kept hv
  · exact .released hv fast

/-- After the admission of a CGB note: the note, and the voices after its preemption (R224, R229). -/
theorem mem_admitCgb {s : State} {v x : Voice} (hx : x ∈ (s.admitCgb v).pool) :
    x = v ∨ ∃ w ∈ s.pool, x = preemptVoice v.track v.kind w := by
  have hcases : x ∈ (s.cgbPreempt v.track v.kind).pool ++ [v] := by
    obtain h | h := placeVoice_pool (s.cgbPreempt v.track v.kind) v <;> rw [State.admitCgb, h] at hx
    · exact hx
    · exact List.mem_append_left _ hx
  rw [cgbPreempt_pool_eq, List.mem_append, List.mem_singleton, List.mem_map] at hcases
  obtain ⟨w, hw, rfl⟩ | rfl := hcases
  · exact .inr ⟨w, hw, rfl⟩
  · exact .inl rfl

/-- After the admission of a PCM note: the note, and voices of the pool as they were (R226). -/
theorem mem_admitPcm {s : State} {v x : Voice} (hx : x ∈ (s.admitPcm v).pool) : x = v ∨ x ∈ s.pool := by
  have hcases : x ∈ s.pool ++ [v] := by
    obtain h | h | ⟨i, w, -, h⟩ := admitPcm_pool s v <;> rw [h] at hx
    · exact hx
    · exact List.mem_append_left _ hx
    · exact (List.eraseIdx_sublist s.pool i).append_right [v] |>.mem hx
  rw [List.mem_append, List.mem_singleton] at hcases
  exact hcases.symm

/-- After SETPITCH: voices of the pool as they were, or with their new pitch (R175). -/
theorem mem_setpitchEffect {s : State} {trk : BitVec 4} {anykey : Bool} {key : Byte} {pitch : BitVec 16} {x : Voice}
    (hx : x ∈ (setpitchEffect trk anykey key pitch s).pool) : SteppedFrom s x := by
  have hmem : x ∈ s.pool.filterMap (repitch s trk anykey key pitch) := by
    obtain h | h := setpitchEffect_cases trk anykey key pitch s <;> rw [h] at hx
    · rwa [takeError_pool] at hx
    · exact hx
  obtain ⟨w, hw, hwx⟩ := List.mem_filterMap.1 hmem
  unfold repitch at hwx
  split at hwx
  · dsimp only at hwx
    split at hwx
    · next hfin =>
      obtain rfl := Option.some.inj hwx
      exact .repitched hw hfin
    · cases hwx
  · obtain rfl := Option.some.inj hwx
    exact .kept hw

/-- After PROCESS: the live voices of the pool, each after its own frame (R245, R249). -/
theorem mem_processFrame {s : State} {x : Voice} (hx : x ∈ (processFrame s).pool) : SteppedFrom s x := by
  rw [processFrame_pool, produceFrame_eq, live_eq, List.mem_filter, List.mem_map] at hx
  obtain ⟨⟨w, hw, rfl⟩, hlive⟩ := hx
  exact .rendered hw (of_decide_eq_true hlive)

/-- Every voice an effect leaves in the pool has one of the origins. -/
theorem effectOf_steppedFrom {s : State} {i : Instr} (hpass : firstError (checksOf s i) = none) {x : Voice}
    (hx : x ∈ (effectOf s i).pool) : SteppedFrom s x := by
  cases i with
  | nop | cfg | setvol | trkfine | ended | getbuf | rdreg => exact .kept hx
  | reset => cases hx
  | noteonPcm =>
    obtain rfl | hx := mem_admitPcm hx
    · exact .created hpass rfl
    · exact .kept hx
  | noteonSq | noteonWave | noteonNoise =>
    obtain rfl | ⟨w, hw, rfl⟩ := mem_admitCgb hx
    · exact .created hpass rfl
    · exact .of_release_if hw _ _
  | setpitch => exact mem_setpitchEffect hx
  | release =>
    obtain ⟨w, hw, rfl⟩ := List.mem_map.1 hx
    exact .of_release_if hw _ _
  | process => exact mem_processFrame hx

/-- Every voice of the pool after a step has one of the origins. -/
theorem step_steppedFrom {s t : State} (h : step s = .next t) {x : Voice} (hx : x ∈ t.pool) : SteppedFrom s x := by
  refine step_induction (P := fun s t => ∀ x ∈ t.pool, SteppedFrom s x) (fun s e trk n x hx => ?_)
    (fun s i hpass x hx => effectOf_steppedFrom hpass hx) h x hx
  rw [takeError_pool] at hx
  exact .kept hx

/-! ## The tracks in use -/

/-- CFG sets the number of tracks, in a block that is not configured, and nothing else does (R241). -/
theorem effectOf_trackLimit {s : State} {i : Instr} (hpass : firstError (checksOf s i) = none) :
    s.configured = false ∨ (effectOf s i).trackLimit = s.trackLimit := by
  by_cases hi : i.opcode = .cfg
  · left
    cases i with
    | cfg c p => exact (cfgChecked_of_pass hpass).unconfigured
    | _ => cases hi
  · right
    obtain ⟨hconfig, -⟩ := (effectOf_writesItsOwn i s).1 hi
    rw [State.trackLimit, hconfig, State.trackLimit]

theorem step_trackLimit {s t : State} (h : step s = .next t) : s.configured = false ∨ t.trackLimit = s.trackLimit := by
  refine step_induction (P := fun s t => s.configured = false ∨ t.trackLimit = s.trackLimit) (fun s e trk n => .inr ?_)
    (fun s i hpass => effectOf_trackLimit hpass) h
  rw [State.trackLimit, takeError_config, State.trackLimit]

/-! ## A new voice -/

/-- What the checks of a NOTEON leave to its own value checks (R340). -/
theorem noteon_of_pass {s : State} {trk : BitVec 4} {pp : PitchPrio} {key vel : Byte} {values : List (Bool × ErrSub)}
    (hpass : firstError (noteonDecode s trk pp ++ noteonKeyVel key vel ++ values) = none) :
    s.configured = true ∧ trk.toNat < s.trackLimit ∧ ∀ c ∈ values, c.1 = false := by
  have hall := firstError_eq_none.1 hpass
  refine ⟨?_, ?_, fun c hc => hall c (List.mem_append_right _ hc)⟩
  · simpa using hall (!s.configured, .notCfg) (by simp [noteonDecode, needConfigured])
  · simpa using hall (decide (s.trackLimit ≤ trk.toNat), .badTrk) (by simp [noteonDecode, needTrack])

/-- A voice with its track in use, its source and its envelope legal (R53). -/
structure LegalVoice (tracks romSize : Nat) (v : Voice) : Prop where
  track : v.track.toNat < tracks
  source : v.sourceLegal romSize = true
  envelope : v.envelopeLegal = true

theorem poolLegal_iff (s : State) :
    s.poolLegal ↔ (∀ v ∈ s.pool, LegalVoice s.trackLimit s.launch.romSize v) ∧ (s.configured = false → s.pool = []) :=
  and_congr_left fun _ => forall₂_congr fun _ _ =>
    ⟨fun ⟨htrack, hsource, henv⟩ => ⟨htrack, hsource, henv⟩, fun ⟨htrack, hsource, henv⟩ => ⟨htrack, hsource, henv⟩⟩

/-! ### The rules for a source, by its kind -/

theorem sourceLegal_of_pcm {r : Nat} {v : Voice} {d : PcmData} (h : v.source = .pcm d) :
    v.sourceLegal r = true ↔ v.ipos.toNat ≤ d.endPos.toNat ∧ d.base.toNat + d.endPos.toNat ≤ r ∧
      d.midCfreq.isPosFinite = true ∧ (d.loopEnabled = true → d.loopPos.toNat ≤ d.endPos.toNat) := by
  rw [Voice.sourceLegal, h]
  simp only [Bool.and_eq_true, Bool.or_eq_true, Bool.not_eq_true', decide_eq_true_eq, and_assoc, imp_iff_not_or,
    Bool.not_eq_true]

theorem sourceLegal_of_square {r : Nat} {v : Voice} {u : SqUnit} {d : Duty} (h : v.source = .square u d) :
    v.sourceLegal r = true ↔ v.ipos.toNat < 8 := by
  rw [Voice.sourceLegal, h]
  exact decide_eq_true_iff

/-- The waveform holds values of nibbles only (R197). -/
def nibbleWave (buf : Vector F32 32) : Bool :=
  buf.toList.all fun x => (List.range 16).any fun n => x == nibbleValue (BitVec.ofNat 4 n)

theorem sourceLegal_of_wave {r : Nat} {v : Voice} {buf : Vector F32 32} (h : v.source = .wave buf) :
    v.sourceLegal r = true ↔ v.ipos.toNat < 32 ∧ nibbleWave buf = true := by
  rw [Voice.sourceLegal, h]
  simp only [Bool.and_eq_true, decide_eq_true_eq, nibbleWave]

theorem sourceLegal_of_noise {r : Nat} {v : Voice} {p : NoisePattern} (h : v.source = .noise p) :
    v.sourceLegal r = true ↔ v.ipos.toNat < lfsrPeriod p := by
  rw [Voice.sourceLegal, h]
  exact decide_eq_true_iff

theorem lfsrPeriod_pos (p : NoisePattern) : 0 < lfsrPeriod p := by
  cases p <;> decide

/-! ### The record of a note -/

/-- Every unpacked value is that of a nibble (R197). -/
theorem unpackWave_nibbles (s : State) (waddr : Word) : nibbleWave (unpackWave s waddr) = true := by
  refine List.all_eq_true.2 fun x hx => List.any_eq_true.2 ?_
  obtain ⟨i, hi, rfl⟩ := Vector.mem_iff_getElem.1 (Vector.mem_toList_iff.1 hx)
  refine ⟨(waveNibble s waddr i).toNat, List.mem_range.2 (waveNibble s waddr i).isLt, ?_⟩
  simp [unpackWave]

/-- The voice a NOTEON creates is legal (R170, R190, R196, R201, R231). -/
theorem noteOf_legal {s : State} {i : Instr} (hpass : firstError (checksOf s i) = none) {v : Voice}
    (hnote : noteOf s i = some v) : s.configured = true ∧ LegalVoice s.trackLimit s.launch.romSize v := by
  cases i with
  | nop | cfg | reset | setpitch | setvol | release | trkfine | process | ended | getbuf | rdreg => cases hnote
  | noteonPcm trk l key vel adsr pp base midc loopPos endPos =>
    obtain rfl := Option.some.inj hnote
    obtain ⟨hs, htrk, hvalues⟩ := noteon_of_pass hpass
    simp only [pcmChecks, List.forall_mem_cons] at hvalues
    obtain ⟨hmidc, hloop, hrange, -, -⟩ := hvalues
    refine ⟨hs, htrk, (sourceLegal_of_pcm rfl).2 ⟨Nat.zero_le _, ?_, ?_, ?_⟩, rfl⟩
    · simpa [pcmData] using hrange
    · simpa [pcmData] using hmidc
    · simpa [pcmData] using hloop
  | noteonSq =>
    obtain rfl := Option.some.inj hnote
    obtain ⟨hs, htrk, -⟩ := noteon_of_pass hpass
    exact ⟨hs, htrk, rfl, rfl⟩
  | noteonWave trk key vel adsr pp waddr =>
    obtain rfl := Option.some.inj hnote
    obtain ⟨hs, htrk, -⟩ := noteon_of_pass hpass
    exact ⟨hs, htrk, (sourceLegal_of_wave rfl).2 ⟨Nat.zero_lt_succ 31, unpackWave_nibbles s waddr⟩, rfl⟩
  | noteonNoise trk p =>
    obtain rfl := Option.some.inj hnote
    obtain ⟨hs, htrk, -⟩ := noteon_of_pass hpass
    exact ⟨hs, htrk, (sourceLegal_of_noise rfl).2 (lfsrPeriod_pos p), rfl⟩

/-! ## The source of a voice over a frame -/

/-- What a tick and an output sample keep, a frame keeps (R245). -/
theorem voiceFrame_induction {s : State} {P : Voice → Prop} (htick : ∀ q v, P v → P (tickEnvelope s q v))
    (hsample : ∀ v, P v → P (afterSample v)) {v : Voice} (h : P v) : P (voiceFrame s v).2 := by
  have hrender (n : Nat) {v : Voice} (h : P v) : P (renderVoice s n v).2 := by
    induction n generalizing v with
    | zero => exact h
    | succ n ih => exact ih (hsample v h)
  have hsub (q : Nat) {v : Voice} (h : P v) : P (voiceSubBlock s v q).2 := hrender _ (htick q v h)
  exact hsub 3 (hsub 2 (hsub 1 (hsub 0 h)))

/-- The rules for a source speak of the source and of `ipos` alone (R53 iv). -/
theorem sourceLegal_congr {r : Nat} {v w : Voice} (hsource : w.source = v.source) (hipos : w.ipos = v.ipos) :
    w.sourceLegal r = v.sourceLegal r := by
  unfold Voice.sourceLegal
  rw [hsource, hipos]

/-- Nothing legal about a source depends on `eos` (R49, R178). -/
theorem setEos_sourceLegal (r : Nat) (v : Voice) : v.setEos.sourceLegal r = v.sourceLegal r := by
  cases hsrc : v.source with
  | pcm d =>
    have hset : v.setEos = { v with source := .pcm { d with eos := true } } := by rw [Voice.setEos, hsrc]
    rw [hset, Bool.eq_iff_iff, sourceLegal_of_pcm hsrc, sourceLegal_of_pcm rfl]
  | square | wave | noise => rw [Voice.setEos, hsrc]

theorem endStream_sourceLegal (r : Nat) (v : Voice) : (endStream v).sourceLegal r = v.sourceLegal r := by
  unfold endStream
  split
  · rw [sourceLegal_congr (releaseVoice_source ..) (releaseVoice_ipos ..), setEos_sourceLegal]
  · rfl

/-- The wrap of a source brings every position into its range (R160, R173). -/
theorem wrap_sourceLegal {r i : Nat} {v w : Voice} (h : v.sourceLegal r = true) (hsource : w.source = v.source)
    (hipos : w.ipos = BitVec.ofNat 32 (v.wrap i)) : w.sourceLegal r = true := by
  have hle : w.ipos.toNat ≤ v.wrap i := hipos ▸ Nat.mod_le _ _
  cases hsrc : v.source with
  | pcm d =>
    have hwrap : v.wrap i ≤ d.endPos.toNat := by
      rw [wrap_eq_wrappedTo, hsrc, wrappedTo]
      split
      · omega
      · split
        · next hloop => exact (loop_index_lt hloop _).le
        · exact le_rfl
    obtain ⟨-, hrest⟩ := (sourceLegal_of_pcm hsrc).1 h
    exact (sourceLegal_of_pcm (hsource.trans hsrc)).2 ⟨hle.trans hwrap, hrest⟩
  | square =>
    have hwrap : v.wrap i < 8 := by
      rw [Voice.wrap, hsrc]
      exact Nat.mod_lt i (by decide)
    exact (sourceLegal_of_square (hsource.trans hsrc)).2 (hle.trans_lt hwrap)
  | wave buf =>
    have hwrap : v.wrap i < 32 := by
      rw [Voice.wrap, hsrc]
      exact Nat.mod_lt i (by decide)
    obtain ⟨-, hbuf⟩ := (sourceLegal_of_wave hsrc).1 h
    exact (sourceLegal_of_wave (hsource.trans hsrc)).2 ⟨hle.trans_lt hwrap, hbuf⟩
  | noise p =>
    have hwrap : v.wrap i < lfsrPeriod p := by
      rw [Voice.wrap, hsrc]
      exact Nat.mod_lt i (lfsrPeriod_pos p)
    exact (sourceLegal_of_noise (hsource.trans hsrc)).2 (hle.trans_lt hwrap)

/-- An output sample keeps the source legal (R160, R178). -/
theorem afterSample_sourceLegal {r : Nat} {v : Voice} (h : v.sourceLegal r = true) :
    (afterSample v).sourceLegal r = true := by
  have hend : (stepVolumes (endStream v)).sourceLegal r = true := by
    rw [sourceLegal_congr (w := stepVolumes (endStream v)) (v := endStream v) rfl rfl, endStream_sourceLegal, h]
  exact wrap_sourceLegal hend rfl rfl

theorem tickEnvelope_sourceLegal {r : Nat} (s : State) (q : Nat) (v : Voice) :
    (tickEnvelope s q v).sourceLegal r = v.sourceLegal r :=
  sourceLegal_congr (tickEnvelope_source s v q) (tickEnvelope_ipos s v q)

/-! ## The envelope of a voice over a frame -/

/-- Level 0 in INIT, and a level at or above `sus` in DEC (R53 ii, R141). -/
def EnvelopeSound (v : Voice) : Prop :=
  (v.eState = .init → v.envLevel = 0) ∧ (v.eState = .dec → v.adsr.sus.toNat ≤ v.envLevel.toNat)

theorem envelopeLegal_iff (v : Voice) :
    v.envelopeLegal = true ↔ EnvelopeSound v ∧ v.eState ≠ .dead ∧ v.envInterStep = 0 := by
  simp only [Voice.envelopeLegal, EnvelopeSound, Bool.and_eq_true, Bool.or_eq_true, bne_iff_ne, beq_iff_eq,
    decide_eq_true_eq, and_assoc, imp_iff_not_or, ne_eq]
  tauto

/-- From REL on nothing is asked of the level. -/
theorem EnvelopeSound.of_rel {v : Voice} (h : v.eState = .rel ∨ v.eState = .dead) : EnvelopeSound v := by
  unfold EnvelopeSound
  obtain h | h := h <;> simp [h]

theorem EnvelopeSound.congr {v w : Voice} (hphase : w.eState = v.eState) (hlevel : w.envLevel = v.envLevel)
    (hadsr : w.adsr = v.adsr) (h : EnvelopeSound v) : EnvelopeSound w := by
  unfold EnvelopeSound at *
  rwa [hphase, hlevel, hadsr]

/-- Each arm leads to a sound envelope: an attack enters DEC at 255, and DEC keeps to `sus` (R122 to R127). -/
theorem stepEnvelope_sound (p : Launch) {v : Voice} (h : EnvelopeSound v) : EnvelopeSound (stepEnvelope p v) := by
  cases hphase : v.eState with
  | init => rw [stepEnvelope_init p hphase]; exact ⟨nofun, nofun⟩
  | atk =>
    rw [stepEnvelope_atk p hphase]
    refine ⟨fun h => ?_, fun h => ?_⟩ <;> dsimp only at h ⊢ <;> split at h
    · cases h
    · cases h
    · next htop =>
      rw [htop]
      exact Nat.le_of_lt_succ v.adsr.sus.isLt
    · cases h
  | dec =>
    rw [stepEnvelope_dec p hphase]
    refine ⟨fun h => ?_, fun _ => ?_⟩
    · dsimp only at h
      split at h <;> cases h
    · dsimp only
      rw [decayLevel_toNat]
      exact le_max_right _ _
  | sus =>
    rw [stepEnvelope_sus p hphase]
    refine ⟨fun h => ?_, fun h => ?_⟩ <;> dsimp only at h <;> split at h <;> cases h
  | rel =>
    rw [stepEnvelope_rel p hphase]
    refine .of_rel ?_
    dsimp only
    split
    · exact .inr rfl
    · exact .inl rfl
  | dead => rwa [stepEnvelope_dead p hphase]

/-- A tick makes one envelope step or none (R133). -/
theorem tickEnvelope_phase_cases (s : State) (q : Nat) (v : Voice) :
    ((tickEnvelope s q v).eState = (stepEnvelope s.launch v).eState ∧
      (tickEnvelope s q v).envLevel = (stepEnvelope s.launch v).envLevel) ∨
    ((tickEnvelope s q v).eState = v.eState ∧ (tickEnvelope s q v).envLevel = v.envLevel) := by
  by_cases h : tickAdvances s v = true
  · obtain ⟨hphase, hlevel, -⟩ := tickEnvelope_levels h q
    exact .inl ⟨hphase, hlevel⟩
  · rw [tickEnvelope_of_not_advances h]
    exact .inr ⟨rfl, rfl⟩

theorem tickEnvelope_sound (s : State) (q : Nat) {v : Voice} (h : EnvelopeSound v) : EnvelopeSound (tickEnvelope s q v) := by
  obtain ⟨hphase, hlevel⟩ | ⟨hphase, hlevel⟩ := tickEnvelope_phase_cases s q v
  · refine (stepEnvelope_sound s.launch h).congr hphase hlevel ?_
    rw [tickEnvelope_adsr, stepEnvelope_frame]
  · exact h.congr hphase hlevel (tickEnvelope_adsr s v q)

/-- A release leaves REL or, of a DEAD voice, DEAD (R130). -/
theorem releaseVoice_phase_cases (fast : Bool) (v : Voice) :
    (releaseVoice fast v).eState = .rel ∨ (v.eState = .dead ∧ (releaseVoice fast v).eState = .dead) := by
  rw [releaseVoice_eState]
  split
  · next h => exact .inr ⟨h, rfl⟩
  · exact .inl rfl

@[simp] theorem setEos_eState (v : Voice) : v.setEos.eState = v.eState := by
  unfold Voice.setEos
  cases v.source <;> rfl

/-- An output sample leaves the phase, or the end of stream takes it to REL (R178). -/
theorem afterSample_phase_cases (v : Voice) : (afterSample v).eState = v.eState ∨ (afterSample v).eState = .rel := by
  change (endStream v).eState = v.eState ∨ (endStream v).eState = .rel
  unfold endStream
  split
  · obtain h | ⟨hdead, h⟩ := releaseVoice_phase_cases true v.setEos
    · exact .inr h
    · rw [setEos_eState] at hdead
      exact .inl (h.trans hdead.symm)
  · exact .inl rfl

theorem afterSample_sound {v : Voice} (h : EnvelopeSound v) : EnvelopeSound (afterSample v) := by
  obtain hphase | hphase := afterSample_phase_cases v
  · exact h.congr hphase (afterSample_envLevel v) (afterSample_adsr v)
  · exact .of_rel (.inl hphase)

/-- Four ticks bring `envInterStep` round (R53 ii, R132). -/
theorem voiceFrame_envInterStep (s : State) (v : Voice) : (voiceFrame s v).2.envInterStep = v.envInterStep := by
  simp only [voiceFrame, voiceSubBlock, renderVoice_envInterStep, tickEnvelope_envInterStep]
  generalize v.envInterStep = n
  revert n
  decide

/-! ## What each origin keeps -/

theorem releaseVoice_legal {tracks r : Nat} {v : Voice} (h : LegalVoice tracks r v) (fast : Bool) :
    LegalVoice tracks r (releaseVoice fast v) := by
  obtain ⟨-, hlive, hcount⟩ := (envelopeLegal_iff v).1 h.envelope
  have hphase : (releaseVoice fast v).eState = .rel := by rw [releaseVoice_eState, if_neg hlive]
  refine ⟨by rw [releaseVoice_track]; exact h.track, ?_, (envelopeLegal_iff _).2 ⟨.of_rel (.inl hphase), ?_, ?_⟩⟩
  · rw [sourceLegal_congr (releaseVoice_source ..) (releaseVoice_ipos ..), h.source]
  · simp [hphase]
  · rw [releaseVoice_envInterStep, hcount]

theorem voiceFrame_legal {s : State} {tracks r : Nat} {v : Voice} (h : LegalVoice tracks r v)
    (hlive : (voiceFrame s v).2.eState ≠ .dead) : LegalVoice tracks r (voiceFrame s v).2 := by
  obtain ⟨hsound, -, hcount⟩ := (envelopeLegal_iff v).1 h.envelope
  refine ⟨?_, ?_, (envelopeLegal_iff _).2 ⟨?_, hlive, ?_⟩⟩
  · rw [← voiceUpTo_four, voiceUpTo_track]
    exact h.track
  · exact voiceFrame_induction (P := fun v => v.sourceLegal r = true)
      (fun q v hv => (tickEnvelope_sourceLegal s q v).trans hv) (fun _ hv => afterSample_sourceLegal hv) h.source
  · exact voiceFrame_induction (fun q _ hv => tickEnvelope_sound s q hv) (fun _ hv => afterSample_sound hv) hsound
  · rw [voiceFrame_envInterStep, hcount]

/-- A voice that comes from a legal pool is legal. -/
theorem SteppedFrom.legal {s : State} (hs : ∀ v ∈ s.pool, LegalVoice s.trackLimit s.launch.romSize v) {x : Voice}
    (hx : SteppedFrom s x) : LegalVoice s.trackLimit s.launch.romSize x := by
  cases hx with
  | kept hv => exact hs _ hv
  | released hv fast => exact releaseVoice_legal (hs _ hv) fast
  | repitched hv hfin => exact ⟨(hs _ hv).track, (hs _ hv).source, (hs _ hv).envelope⟩
  | rendered hv hlive => exact voiceFrame_legal (hs _ hv) hlive
  | created hpass hnote => exact (noteOf_legal hpass hnote).2

/-- A voice is left in a configured block, or comes from a voice of the pool. -/
theorem SteppedFrom.configured {s : State} {x : Voice} (hx : SteppedFrom s x) : s.configured = true ∨ s.pool ≠ [] := by
  cases hx with
  | kept hv | released hv | repitched hv | rendered hv => exact .inr (List.ne_nil_of_mem hv)
  | created hpass hnote => exact .inl (noteOf_legal hpass hnote).1

/-- Settles O55: every voice of the next pool comes from a legal one or from a NOTEON, and the tracks in use change only
before the first voice. -/
theorem stepKeepsPoolLegal : Obligations.StepKeepsPoolLegal := by
  intro s t hs h
  obtain ⟨hvoices, hempty⟩ := (poolLegal_iff s).1 hs
  have hconfigured : ∀ x ∈ t.pool, s.configured = true := fun x hx => by
    obtain hs | hne := (step_steppedFrom h hx).configured
    · exact hs
    · by_contra hnot
      exact hne (hempty (Bool.eq_false_iff.2 hnot))
  refine (poolLegal_iff t).2 ⟨fun x hx => ?_, fun ht => ?_⟩
  · obtain hnot | hlimit := step_trackLimit h
    · exact absurd (hconfigured x hx) (Bool.eq_false_iff.1 hnot)
    · obtain ⟨-, hlaunch, -⟩ := step_sameInputs h
      rw [hlimit, hlaunch]
      exact (step_steppedFrom h hx).legal hvoices
  · refine List.eq_nil_iff_forall_not_mem.2 fun x hx => ?_
    have hstays := (nothingIsForgotten s t h).1 (hconfigured x hx)
    exact absurd hstays (Bool.eq_false_iff.1 ht)

/-! ## Sample memory -/

/-- The voices of a legal pool are inside sample memory (R72, R76). -/
theorem samplesInMemory_of_poolLegal {s : State} (h : s.poolLegal) : s.samplesInMemory = true := by
  refine List.all_eq_true.2 fun v hv => ?_
  obtain ⟨-, hsource, -⟩ := h.1 v hv
  unfold Voice.inMemory
  cases hsrc : v.source with
  | pcm d =>
    obtain ⟨-, hrange, -⟩ := (sourceLegal_of_pcm hsrc).1 hsource
    exact decide_eq_true hrange
  | square | wave | noise => rfl

/-- The pool of every run is legal (R53, R65). -/
theorem poolLegal_of_reaches {p : Launch} {m : Memory} {ws : List Word} {s : State} (h : Reaches (launched p m ws) s) :
    s.poolLegal := by
  induction h with
  | refl => exact (empty_pool_legal rfl).1
  | step _ hstep ih => exact stepKeepsPoolLegal _ _ ih hstep

/-- A guarded command has a next state. -/
theorem guarded_ne_fault (s : State) (trk : BitVec 4) (n : Nat) (checks : List (Bool × ErrSub)) (effect : State → State)
    (f : Fault) : guarded s trk n checks effect ≠ .fault f := by
  unfold guarded
  split <;> exact fun h => by cases h

/-- With the voices inside sample memory no command leaves it (R72). -/
theorem exec_ne_sampleOutsideMemory {s : State} (hmem : s.samplesInMemory = true) (i : Instr) :
    exec i s ≠ .fault .sampleOutsideMemory := by
  by_cases hi : i = .process
  · rw [hi, exec_process_eq, if_neg (by simp [hmem])]
    exact guarded_ne_fault _ _ _ _ _ _
  · rw [exec_eq_guarded hi]
    exact guarded_ne_fault _ _ _ _ _ _

/-- Settles O58: the pool of a run is legal, so no voice of it reaches outside sample memory. -/
theorem noRunLeavesSampleMemory : Obligations.NoRunLeavesSampleMemory := by
  intro p m ws s h
  have hmem := samplesInMemory_of_poolLegal (poolLegal_of_reaches h)
  refine ⟨hmem, ?_⟩
  unfold step
  split
  · exact fun h => by cases h
  · split
    · exact fun h => by cases h
    · exact fun h => by cases h
    · exact fun h => by cases h
    · exact exec_ne_sampleOutsideMemory hmem _

end Sys2Proof.Machine
end

section
/-!
PROOFS. One sounding CGB voice for each track and kind (10_state R53 v; 44_voice_allocation R222, R224).
-/

namespace Sys2Proof.Machine

/-! ## Voices that are not brought back -/

/-- A voice and what became of it: on the same track, of the same kind, and before REL only if it was so. -/
structure NotRevived (v w : Voice) : Prop where
  track : w.track = v.track
  kind : w.kind = v.kind
  beforeRel : w.eState.beforeRel = true → v.eState.beforeRel = true

theorem NotRevived.refl (v : Voice) : NotRevived v v := ⟨rfl, rfl, id⟩

theorem NotRevived.trans {u v w : Voice} (huv : NotRevived u v) (hvw : NotRevived v w) : NotRevived u w :=
  ⟨hvw.track.trans huv.track, hvw.kind.trans huv.kind, huv.beforeRel ∘ hvw.beforeRel⟩

/-- The kind of a voice is that of its source (R45). -/
theorem kind_congr {v w : Voice} (h : w.source = v.source) : w.kind = v.kind := by
  rw [Voice.kind, h, Voice.kind]

theorem releaseVoice_notRevived (fast : Bool) (v : Voice) : NotRevived v (releaseVoice fast v) := by
  refine ⟨releaseVoice_track v fast, kind_congr (releaseVoice_source v fast), fun h => ?_⟩
  obtain hrel | ⟨-, hdead⟩ := releaseVoice_phase_cases fast v
  · rw [hrel] at h
    cases h
  · rw [hdead] at h
    cases h

/-- A voice that is released or left alone is not brought back. -/
theorem notRevived_of_release_if (b fast : Bool) (v : Voice) : NotRevived v (if b then releaseVoice fast v else v) := by
  cases b
  · exact .refl v
  · exact releaseVoice_notRevived fast v

/-- No envelope step leads back before REL (R129). -/
theorem beforeRel_of_stepsTo {a b : EState} (h : a.stepsTo b = true) (hb : b.beforeRel = true) : a.beforeRel = true := by
  have hle := EState.rank_le_of_stepsTo h
  unfold EState.beforeRel at *
  exact decide_eq_true (hle.trans_lt (of_decide_eq_true hb))

theorem tickEnvelope_notRevived (s : State) (q : Nat) (v : Voice) : NotRevived v (tickEnvelope s q v) := by
  refine ⟨tickEnvelope_track s v q, kind_congr (tickEnvelope_source s v q), fun h => ?_⟩
  obtain ⟨hphase, -⟩ | ⟨hphase, -⟩ := tickEnvelope_phase_cases s q v <;> rw [hphase] at h
  · exact beforeRel_of_stepsTo (stepEnvelope_stepsTo s.launch v) h
  · exact h

theorem setEos_kind (v : Voice) : v.setEos.kind = v.kind := by
  cases hsrc : v.source with
  | pcm d => rw [Voice.setEos, hsrc, Voice.kind, Voice.kind, hsrc]
  | square | wave | noise => rw [Voice.setEos, hsrc]

theorem endStream_kind (v : Voice) : (endStream v).kind = v.kind := by
  unfold endStream
  split
  · rw [kind_congr (releaseVoice_source ..), setEos_kind]
  · rfl

theorem afterSample_notRevived (v : Voice) : NotRevived v (afterSample v) := by
  refine ⟨afterSample_track v, (kind_congr (w := afterSample v) (v := endStream v) rfl).trans (endStream_kind v),
    fun h => ?_⟩
  obtain hphase | hphase := afterSample_phase_cases v <;> rw [hphase] at h
  · exact h
  · cases h

/-- A frame brings no voice back (R129, R178, R245). -/
theorem voiceFrame_notRevived (s : State) (v : Voice) : NotRevived v (voiceFrame s v).2 :=
  voiceFrame_induction (P := NotRevived v) (fun q w hw => hw.trans (tickEnvelope_notRevived s q w))
    (fun w hw => hw.trans (afterSample_notRevived w)) (.refl v)

/-! ## Compatible voices -/

theorem compatible_iff (v w : Voice) :
    v.compatible w = true ↔ v.kind = .pcm ∨ v.track ≠ w.track ∨ v.kind ≠ w.kind ∨ v.eState.beforeRel = false ∨
      w.eState.beforeRel = false := by
  simp only [Voice.compatible, Voice.isPcm, Bool.or_eq_true, beq_iff_eq, bne_iff_ne, Bool.not_eq_true', or_assoc]

/-- Compatible voices stay so while none of them is brought back. -/
theorem NotRevived.compatible {v v' w w' : Voice} (hv : NotRevived v v') (hw : NotRevived w w')
    (h : v.compatible w = true) : v'.compatible w' = true := by
  rw [compatible_iff] at h ⊢
  rw [hv.kind, hw.kind, hv.track, hw.track]
  obtain h | h | h | h | h := h
  · exact .inl h
  · exact .inr (.inl h)
  · exact .inr (.inr (.inl h))
  · exact .inr (.inr (.inr (.inl (Bool.eq_false_iff.2 fun hb => Bool.eq_false_iff.1 h (hv.beforeRel hb)))))
  · exact .inr (.inr (.inr (.inr (Bool.eq_false_iff.2 fun hb => Bool.eq_false_iff.1 h (hw.beforeRel hb)))))

/-- A PCM voice is compatible with every voice (R222). -/
theorem compatible_pcm (v : Voice) {w : Voice} (hw : w.kind = .pcm) : v.compatible w = true := by
  rw [compatible_iff, hw]
  tauto

/-- After preemption every voice is compatible with the new one (R224). -/
theorem compatible_preempted (v w : Voice) : (preemptVoice w.track w.kind v).compatible w = true := by
  have hold : NotRevived v (preemptVoice w.track w.kind v) := notRevived_of_release_if _ true v
  rw [compatible_iff, hold.track, hold.kind]
  by_cases htrack : v.track = w.track
  · by_cases hkind : v.kind = w.kind
    · exact .inr (.inr (.inr (.inl (preemptVoice_not_beforeRel htrack hkind))))
    · exact .inr (.inr (.inl hkind))
  · exact .inr (.inl htrack)

/-! ## Pools without two sounding CGB voices of one track and kind -/

/-- No two voices of a pool are CGB voices of one track and kind before REL (R53 v). -/
abbrev CgbUnique (pool : List Voice) : Prop := pool.Pairwise fun v w => v.compatible w = true

theorem CgbUnique.map {pool : List Voice} (h : CgbUnique pool) {f : Voice → Voice} (hf : ∀ v, NotRevived v (f v)) :
    CgbUnique (pool.map f) :=
  List.Pairwise.map f (fun v w hvw => (hf v).compatible (hf w) hvw) h

/-- A voice compatible with every other goes to the end of the pool. -/
theorem CgbUnique.append_one {pool : List Voice} (h : CgbUnique pool) {v : Voice}
    (hv : ∀ w ∈ pool, w.compatible v = true) : CgbUnique (pool ++ [v]) := by
  refine List.pairwise_append.2 ⟨h, List.pairwise_singleton _ _, fun w hw x hx => ?_⟩
  rw [List.mem_singleton.1 hx]
  exact hv w hw

/-- A PCM note keeps the rule, whatever voice it takes the place of (R226). -/
theorem admitPcm_cgbUnique {s : State} (h : CgbUnique s.pool) {v : Voice} (hv : v.kind = .pcm) :
    CgbUnique (s.admitPcm v).pool := by
  obtain hpool | hpool | ⟨i, w, -, hpool⟩ := admitPcm_pool s v <;> rw [hpool]
  · exact h.append_one fun w _ => compatible_pcm w hv
  · exact h
  · exact CgbUnique.append_one (h.sublist (List.eraseIdx_sublist s.pool i)) fun w _ => compatible_pcm w hv

/-- A CGB note keeps the rule by its preemption (R224). -/
theorem admitCgb_cgbUnique {s : State} (h : CgbUnique s.pool) (v : Voice) : CgbUnique (s.admitCgb v).pool := by
  have hpreempted : CgbUnique (s.pool.map (preemptVoice v.track v.kind)) := h.map fun w => notRevived_of_release_if _ true w
  obtain hpool | hpool := placeVoice_pool (s.cgbPreempt v.track v.kind) v <;>
    rw [State.admitCgb, hpool, cgbPreempt_pool_eq]
  · refine hpreempted.append_one fun x hx => ?_
    obtain ⟨w, -, rfl⟩ := List.mem_map.1 hx
    exact compatible_preempted w v
  · exact hpreempted

/-- SETPITCH removes voices and moves none to another track, kind or phase (R175). -/
theorem setpitchEffect_cgbUnique {s : State} (h : CgbUnique s.pool) (trk : BitVec 4) (anykey : Bool) (key : Byte)
    (pitch : BitVec 16) : CgbUnique (setpitchEffect trk anykey key pitch s).pool := by
  have hpool : CgbUnique (s.pool.filterMap (repitch s trk anykey key pitch)) := by
    rw [filterMap_repitch]
    refine CgbUnique.map (h.sublist List.filter_sublist) fun v => ?_
    unfold repitched
    split
    · exact ⟨rfl, rfl, id⟩
    · exact .refl v
  obtain heq | heq := setpitchEffect_cases trk anykey key pitch s <;> rw [heq]
  · rwa [takeError_pool]
  · exact hpool

/-- Every effect keeps the rule. -/
theorem effectOf_cgbUnique {s : State} (h : CgbUnique s.pool) (i : Instr) : CgbUnique (effectOf s i).pool := by
  cases i with
  | nop | cfg | setvol | trkfine | ended | getbuf | rdreg => exact h
  | reset => exact .nil
  | noteonPcm => exact admitPcm_cgbUnique h rfl
  | noteonSq | noteonWave | noteonNoise => exact admitCgb_cgbUnique h _
  | setpitch => exact setpitchEffect_cgbUnique h ..
  | release => exact h.map fun v => notRevived_of_release_if _ _ v
  | process =>
    have hframe : CgbUnique (s.pool.map fun v => (voiceFrame s v).2) := h.map (voiceFrame_notRevived s)
    rw [effectOf, processFrame_pool, produceFrame_eq]
    exact hframe.sublist List.filter_sublist

/-- Settles O57: an error leaves the pool, and every effect keeps the rule. -/
theorem stepKeepsCgbUnique : Obligations.StepKeepsCgbUnique := by
  intro s t hs h
  refine step_induction (P := fun s t => CgbUnique s.pool → CgbUnique t.pool) (fun s e trk n hs => ?_)
    (fun s i _ hs => effectOf_cgbUnique hs i) h hs
  rwa [takeError_pool]

end Sys2Proof.Machine
end

section
/-!
PROOFS. The position of a voice (10_state R47, R53 iii): the fraction stays between 0 and 1 through the advance of
41_resampler R160, and the pitch laws of 42_pcm_channel R174 and 43_cgb_channels R193, R199, R207 deliver nothing negative.
-/

namespace Sys2Proof

/-! ## Numbers that are not negative -/

theorem F32.unsigned_iff (x : F32) : x.unsigned = true ↔ (x.sign = true → x.mag = 0) := by
  cases h : x.sign <;> simp [F32.unsigned, h]

theorem F32.nonneg_iff (x : F32) : x.nonneg = true ↔ x.isFinite = true ∧ x.unsigned = true := by
  rw [F32.nonneg, Bool.and_eq_true]

/-- The value of a number that is not negative is its magnitude. -/
theorem F32.scaled_of_unsigned {x : F32} (h : x.unsigned = true) : x.scaled = x.mag := by
  rw [F32.unsigned_iff] at h
  unfold F32.scaled
  split
  · next hs => rw [h hs]; rfl
  · rfl

theorem F32.scaled_neg (x : F32) : x.neg.scaled = -x.scaled := by
  rw [F32.scaled, F32.scaled, F32.sign_neg, F32.mag_neg]
  cases x.sign <;> simp

theorem F32.unsigned_of_isPosFinite {x : F32} (h : x.isPosFinite = true) : x.unsigned = true := by
  obtain ⟨hsign, -⟩ := (F32.isPosFinite_iff x).1 h
  simp [F32.unsigned, hsign]

/-- Binary32 holds a natural of at most 24 significant bits: rounding leaves it. -/
theorem F32.mag_of_magBits_exact {x : F32} {f e : Nat} (hf : f < 2 ^ 24) (he : e ≤ 253)
    (h : x.magBits = roundMag (f * 2 ^ e) 1) : x.isFinite = true ∧ x.mag = f * 2 ^ e := by
  obtain ⟨z, hz, hmag⟩ := F32.exists_mag hf he
  have hbits : x.magBits = z.magBits := by
    rw [h, ← roundMag_mag z hz 1 Nat.one_pos, hmag, Nat.mul_one]
  rw [F32.isFinite_iff] at hz ⊢
  exact ⟨hbits ▸ hz, ((F32.mag_mono hbits.le).antisymm (F32.mag_mono hbits.ge)).trans hmag⟩

/-- A sum whose exact value is a natural number of units is not negative, and is the rounding of that number. -/
theorem F32.add_of_natCast {x y : F32} (hx : x.isFinite = true) (hy : y.isFinite = true) {n : Nat}
    (h : x.scaled + y.scaled = n) : (x.add y).unsigned = true ∧ (x.add y).magBits = roundMag n 1 := by
  rw [F32.add_of_finite hx hy, h]
  split
  · next hzero =>
    have hn : n = 0 := by omega
    rw [hn, roundMag_zero, F32.magBits_pack (by decide), F32.unsigned_iff]
    exact ⟨fun _ => F32.mag_pack_zero _, rfl⟩
  · have hsign : decide ((n : Int) < 0) = false := decide_eq_false (by omega)
    rw [hsign, F32.magBits_round, F32.unsigned_iff, F32.sign_round]
    exact ⟨nofun, rfl⟩

/-! ## The fraction of a position -/

/-- The largest finite magnitude. -/
theorem F32.mag_le_max {x : F32} (h : x.isFinite = true) : x.mag ≤ (2 ^ 24 - 1) * 2 ^ 253 := by
  obtain ⟨f, e, hf, he, hmag⟩ := F32.mag_eq_mul_pow h
  rw [hmag]
  exact Nat.mul_le_mul (by omega) (Nat.pow_le_pow_right (by decide) he)

/-- Less than 1 added to a finite number that is not negative gives such a number: the sum is nearer to the largest finite
number than to the next power of two. -/
theorem F32.add_fraction_nonneg {x y : F32} (hx : x.nonneg = true) (hfrac : x.mag < 2 ^ 149) (hy : y.nonneg = true) :
    (x.add y).nonneg = true := by
  obtain ⟨hxfin, hxun⟩ := (F32.nonneg_iff x).1 hx
  obtain ⟨hyfin, hyun⟩ := (F32.nonneg_iff y).1 hy
  have hsum : x.scaled + y.scaled = (x.mag + y.mag : Nat) := by
    rw [F32.scaled_of_unsigned hxun, F32.scaled_of_unsigned hyun, Nat.cast_add]
  obtain ⟨hun, hbits⟩ := F32.add_of_natCast hxfin hyfin hsum
  have htop : roundMag ((2 ^ 24 - 1) * 2 ^ 253 + 2 ^ 149) 1 < F32.infBits := by decide +kernel
  have hle : roundMag (x.mag + y.mag) 1 ≤ roundMag ((2 ^ 24 - 1) * 2 ^ 253 + 2 ^ 149) 1 := by
    refine roundMag_mono Nat.one_pos Nat.one_pos ?_
    have := F32.mag_le_max hyfin
    omega
  rw [F32.nonneg_iff, F32.isFinite_iff, hbits]
  exact ⟨hle.trans_lt htop, hun⟩

/-- The whole part and the fraction of a number of 24 significant bits have no more of them. -/
theorem exists_whole_and_fraction {f e : Nat} (hf : f < 2 ^ 24) (he : e ≤ 253) :
    (∃ f' e', f' < 2 ^ 24 ∧ e' ≤ 253 ∧ f * 2 ^ e / 2 ^ 149 * 2 ^ 149 = f' * 2 ^ e') ∧
    ∃ f' e', f' < 2 ^ 24 ∧ e' ≤ 253 ∧ f * 2 ^ e % 2 ^ 149 = f' * 2 ^ e' := by
  rcases Nat.le_total 149 e with hle | hle
  · obtain ⟨d, rfl⟩ := Nat.exists_eq_add_of_le hle
    have hdvd : 2 ^ 149 ∣ f * 2 ^ (149 + d) := Dvd.intro_left (f * 2 ^ d) (by rw [pow_add]; ring)
    exact ⟨⟨f, 149 + d, hf, he, Nat.div_mul_cancel hdvd⟩,
      ⟨0, 0, by decide, by decide, by rw [Nat.mod_eq_zero_of_dvd hdvd, Nat.zero_mul]⟩⟩
  · obtain ⟨d, hd⟩ := Nat.exists_eq_add_of_le hle
    have hsplit : 2 ^ 149 = 2 ^ d * 2 ^ e := by rw [hd, pow_add, Nat.mul_comm]
    refine ⟨⟨f / 2 ^ d, 149, (Nat.div_le_self _ _).trans_lt hf, by decide, ?_⟩,
      ⟨f % 2 ^ d, e, (Nat.mod_le _ _).trans_lt hf, he, ?_⟩⟩
    · rw [hsplit, Nat.mul_div_mul_right _ _ (by positivity)]
    · rw [hsplit, Nat.mul_mod_mul_right]

/-- The position of R160 after an advance: the whole part is subtracted exactly, and what is left is below 1. -/
theorem F32.sub_floorNat {t : F32} (ht : t.nonneg = true) :
    (t.sub (F32.ofNat t.floorNat)).nonneg = true ∧ (t.sub (F32.ofNat t.floorNat)).mag < 2 ^ 149 := by
  obtain ⟨hfin, hun⟩ := (F32.nonneg_iff t).1 ht
  obtain ⟨f, e, hf, he, hmag⟩ := F32.mag_eq_mul_pow hfin
  obtain ⟨⟨f₁, e₁, hf₁, he₁, hwhole⟩, ⟨f₂, e₂, hf₂, he₂, hrest⟩⟩ := exists_whole_and_fraction hf he
  rw [← hmag] at hwhole hrest
  have hround : F32.ofNat t.floorNat = F32.round false (f₁ * 2 ^ e₁ * 1) 1 := by
    rw [F32.ofNat, F32.floorNat_eq hun, hwhole, Nat.mul_one]
  obtain ⟨hcfin, hcmag⟩ := F32.round_exact hf₁ he₁ Nat.one_pos false
  rw [← hround] at hcfin hcmag
  have hcun : (F32.ofNat t.floorNat).unsigned = true := by
    rw [F32.unsigned_iff, hround, F32.sign_round]
    exact nofun
  have hdiff : t.scaled + (F32.ofNat t.floorNat).neg.scaled = (f₂ * 2 ^ e₂ : Nat) := by
    have hdm := Nat.div_add_mod' t.mag (2 ^ 149)
    rw [F32.scaled_neg, F32.scaled_of_unsigned hun, F32.scaled_of_unsigned hcun, hcmag]
    rw [hwhole, hrest] at hdm
    omega
  obtain ⟨hsun, hsbits⟩ := F32.add_of_natCast hfin (F32.isFinite_neg hcfin) hdiff
  obtain ⟨hsfin, hsmag⟩ := F32.mag_of_magBits_exact hf₂ he₂ hsbits
  rw [F32.sub_of_finite hfin hcfin, F32.nonneg_iff, hsmag, ← hrest]
  exact ⟨⟨hsfin, hsun⟩, Nat.mod_lt _ (by positivity)⟩

/-! ## Products and quotients -/

/-- Of a NaN nothing is asked; every other number is not negative. -/
def F32.NotNegative (x : F32) : Prop := x.isNaN = false → x.unsigned = true

/-- The zero of a rounding carries no value: a rounding that could be negative is one. -/
theorem F32.round_unsigned {s : Bool} {num den : Nat} (h : s = true → num = 0) : (F32.round s num den).unsigned = true := by
  rw [F32.unsigned_iff, F32.sign_round]
  intro hs
  rw [F32.mag_eq_zero, F32.magBits_round, h hs, roundMag_zero]

/-- An infinity that is not negative has no sign. -/
theorem F32.sign_of_isInf {x : F32} (hx : x.unsigned = true) (hinf : x.isInf = true) : x.sign = false := by
  rw [← Bool.not_eq_true]
  intro hs
  have hmag := (F32.unsigned_iff x).1 hx hs
  rw [F32.mag_eq_zero] at hmag
  rw [F32.isInf_iff, hmag] at hinf
  exact absurd hinf (by decide)

/-- The NaN of an operation is quiet (R14). -/
theorem F32.isNaN_nanResult (op : FpOp) (x y : F32) : (F32.nanResult op x y).isNaN = true := by
  have hexpo : (F32.nanResult op x y).expo = 255 := by
    have hnot := F32.nanResult_not_finite op x y
    simpa [F32.isFinite] using hnot
  have hquiet : (F32.nanResult op x y).frac.testBit 22 = true := by
    rw [F32.frac, BitVec.testBit_toNat, F32.nanResult]
    simp
  have hfrac : (F32.nanResult op x y).frac ≠ 0 := by
    intro hzero
    rw [hzero] at hquiet
    cases hquiet
  simp [F32.isNaN, hexpo, hfrac]

/-- A number that is not negative times a positive one is not negative. -/
theorem F32.mul_notNegative {x y : F32} (hx : x.unsigned = true) (hy : y.isPosFinite = true) :
    (x.mul y).NotNegative := by
  intro hnan
  obtain ⟨hysign, hybits, hyfin⟩ := (F32.isPosFinite_iff y).1 hy
  rw [← F32.isFinite_iff] at hyfin
  have hyzero : y.isZero = false := by simpa [F32.isZero, hyfin, F32.mag_eq_zero] using hybits
  cases hxnan : x.isNaN with
  | true =>
    have hprod : x.mul y = F32.nanResult .mul x y := by simp [F32.mul, hxnan]
    rw [hprod, F32.isNaN_nanResult] at hnan
    cases hnan
  | false =>
    cases hxinf : x.isInf with
    | true =>
      have hsign := F32.sign_of_isInf hx hxinf
      have hxzero : x.isZero = false := by
        have hnot : x.isFinite = false := by
          rw [← Bool.not_eq_true]
          intro hfin
          simp [F32.not_inf_of_finite hfin] at hxinf
        simp [F32.isZero, hnot]
      have hprod : x.mul y = F32.inf false := by
        simp [F32.mul, hxnan, F32.not_nan_of_finite hyfin, hxinf, hxzero, hyzero, hsign, hysign]
      rw [hprod]
      decide
    | false =>
      simp only [F32.mul, hxnan, F32.not_nan_of_finite hyfin, hxinf, F32.not_inf_of_finite hyfin, hysign, Bool.or_self,
        Bool.false_eq_true, if_false, Bool.bne_false]
      refine F32.round_unsigned fun hs => ?_
      rw [(F32.unsigned_iff x).1 hx hs, Nat.zero_mul]

/-- A finite quotient by a number without sign is not negative. -/
theorem F32.div_nonneg {x y : F32} (hx : x.NotNegative) (hy : y.sign = false) (hfin : (x.div y).isFinite = true) :
    (x.div y).nonneg = true := by
  rw [F32.nonneg_iff]
  refine ⟨hfin, ?_⟩
  have hinf (s : Bool) : (F32.inf s).isFinite = false := by cases s <;> decide
  unfold F32.div at hfin ⊢
  simp only [hy, Bool.bne_false] at hfin ⊢
  split at hfin
  · simp [F32.nanResult_not_finite] at hfin
  · next hnan =>
    rw [if_neg hnan]
    have hxun := hx (by simp at hnan; exact hnan.1)
    split at hfin
    · split at hfin <;> simp [F32.nanResult_not_finite, hinf] at hfin
    · next hxinf =>
      rw [if_neg hxinf]
      split
      · rw [F32.unsigned_iff]
        exact fun _ => F32.mag_pack_zero _
      · next hyinf =>
        rw [if_neg hyinf] at hfin
        split at hfin
        · split at hfin <;> simp [F32.nanResult_not_finite, hinf] at hfin
        · next hyzero =>
          rw [if_neg hyzero]
          refine F32.round_unsigned fun hs => ?_
          rw [(F32.unsigned_iff x).1 hxun hs, Nat.zero_mul]

/-! ## The argument of Exp2 -/

/-- A quotient of finite numbers is one rounding of their exact quotient. -/
theorem F32.div_of_finite {x y : F32} (hx : x.isFinite = true) (hy : y.isFinite = true) (hne : y.mag ≠ 0) :
    x.div y = F32.round (x.sign != y.sign) (x.mag * 2 ^ 149) y.mag := by
  simp [F32.div, F32.not_nan_of_finite hx, F32.not_nan_of_finite hy, F32.not_inf_of_finite hx, F32.not_inf_of_finite hy,
    hne]

/-- An integer up to a power of two is a finite number up to it. -/
theorem F32.ofInt_le {z : Int} {k : Nat} (hk : k ≤ 104) (hz : z.natAbs ≤ 2 ^ k) :
    (F32.ofInt z).isFinite = true ∧ (F32.ofInt z).mag ≤ 2 ^ k * 2 ^ 149 := by
  obtain ⟨y, hy, hmag⟩ := F32.exists_mag (f := 1) (e := k + 149) (by decide) (by omega)
  have hpow : y.mag = 2 ^ k * 2 ^ 149 := by rw [hmag, Nat.one_mul, pow_add]
  rw [← hpow]
  refine F32.round_le hy Nat.one_pos ?_ _
  rw [hpow, Nat.mul_one]
  exact Nat.mul_le_mul_right _ hz

/-- A pitch in cents is at most 32 octaves, inside the range of P-EXP2 (R17, R174). -/
theorem pitch_inExp2Range (pitch : BitVec 16) :
    ((F32.ofInt pitch.toInt).div (F32.ofNat 1200)).inExp2Range = true := by
  have hlo := pitch.le_toInt
  have hhi := pitch.toInt_lt
  obtain ⟨hfin, hmag⟩ := F32.ofInt_le (z := pitch.toInt) (k := 15) (by decide) (by omega)
  have hden : (F32.ofNat 1200).isFinite = true ∧ (F32.ofNat 1200).mag = 1200 * 2 ^ 149 := by decide
  obtain ⟨y, hy, hymag⟩ := F32.exists_mag (f := 1) (e := 154) (by decide) (by decide)
  have hle : (F32.ofInt pitch.toInt).mag * 2 ^ 149 ≤ y.mag * (F32.ofNat 1200).mag := by
    rw [hymag, hden.2]
    omega
  have hpos : 0 < (F32.ofNat 1200).mag := by
    rw [hden.2]
    decide
  rw [F32.div_of_finite hfin hden.1 hpos.ne', F32.inExp2Range, Bool.and_eq_true, decide_eq_true_eq]
  obtain ⟨hqfin, hqmag⟩ := F32.round_le hy hpos hle ((F32.ofInt pitch.toInt).sign != (F32.ofNat 1200).sign)
  refine ⟨hqfin, hqmag.trans ?_⟩
  rw [hymag]
  decide

end Sys2Proof

namespace Sys2Proof.Machine

/-! ## The pitch laws -/

/-- What of a legal launch the pitch laws read (R11, R17). -/
structure LegalRates (p : Launch) : Prop where
  exp2 : p.exp2Legal = true
  square : (sqRate0 p).unsigned = true
  wave : (waveRate0 p).unsigned = true
  noise : ∀ pitch, (noiseRate p pitch).unsigned = true

theorem legalRates_of_legal {p : Launch} (h : p.legal = true) : LegalRates p := by
  simp only [Launch.legal, Bool.and_eq_true] at h
  obtain ⟨⟨⟨⟨⟨⟨-, hsq⟩, hwave⟩, hexp2⟩, hnoise⟩, -⟩, -⟩ := h
  have hfree (w : Word) : (F32.unsignedOf w).unsigned = true := (F32.unsigned_iff _).2 (F32.unsignedOf_spec w)
  have hrate {rate : Option F32} (hall : rate.all F32.unsigned = true) (w : Word) :
      (rate.getD (F32.unsignedOf w)).unsigned = true := by
    cases rate with
    | none => exact hfree w
    | some r => exact hall
  exact ⟨hexp2, hrate hsq _, hrate hwave _,
    noiseRate_of_rows (P := fun r => r.unsigned = true) (List.all_eq_true.1 hnoise) (by decide)⟩

theorem ofNat_sign (n : Nat) : (F32.ofNat n).sign = false := F32.sign_round _ _ _

/-- The shape of the laws of R174, R193 and R199 delivers nothing negative. -/
theorem pitchedInc_nonneg {s : State} (hp : LegalRates s.launch) {rate : F32} (hrate : rate.unsigned = true)
    {pitch : BitVec 16} (hfin : (pitchedInc s rate pitch).isFinite = true) : (pitchedInc s rate pitch).nonneg = true :=
  F32.div_nonneg (F32.mul_notNegative hrate (exp2_isPosFinite hp.exp2 (pitch_inExp2Range pitch))) (ofNat_sign _) hfin

theorem noisePhaseInc_nonneg {s : State} (hp : LegalRates s.launch) {pitch : BitVec 16}
    (hfin : (noisePhaseInc s pitch).isFinite = true) : (noisePhaseInc s pitch).nonneg = true :=
  F32.div_nonneg (fun _ => hp.noise pitch) (ofNat_sign _) hfin

/-- The new `phaseInc` of a voice with a legal source (R175). -/
theorem phaseIncAt_nonneg {s : State} (hp : LegalRates s.launch) {r : Nat} {v : Voice} (hv : v.sourceLegal r = true)
    {pitch : BitVec 16} (hfin : (v.phaseIncAt s pitch).isFinite = true) : (v.phaseIncAt s pitch).nonneg = true := by
  unfold Voice.phaseIncAt at hfin ⊢
  cases hsrc : v.source with
  | pcm d =>
    obtain ⟨-, -, hmidc, -⟩ := (sourceLegal_of_pcm hsrc).1 hv
    rw [hsrc] at hfin
    exact pitchedInc_nonneg hp (F32.unsigned_of_isPosFinite hmidc) hfin
  | square =>
    rw [hsrc] at hfin
    exact pitchedInc_nonneg hp hp.square hfin
  | wave =>
    rw [hsrc] at hfin
    exact pitchedInc_nonneg hp hp.wave hfin
  | noise =>
    rw [hsrc] at hfin
    exact noisePhaseInc_nonneg hp hfin

/-! ## What each origin keeps of a position -/

theorem positionLegal_iff (v : Voice) :
    v.positionLegal = true ↔ v.fpos.nonneg = true ∧ v.fpos.mag < 2 ^ 149 ∧ v.phaseInc.nonneg = true := by
  simp only [Voice.positionLegal, Bool.and_eq_true, decide_eq_true_eq, and_assoc]

theorem positionLegal_congr {v w : Voice} (hfpos : w.fpos = v.fpos) (hinc : w.phaseInc = v.phaseInc) :
    w.positionLegal = v.positionLegal := by
  rw [Voice.positionLegal, hfpos, hinc, Voice.positionLegal]

/-- An output sample leaves `phaseInc` and brings the fraction below 1 again (R160). -/
theorem afterSample_positionLegal {v : Voice} (h : v.positionLegal = true) : (afterSample v).positionLegal = true := by
  obtain ⟨hfpos, hlt, hinc⟩ := (positionLegal_iff v).1 h
  obtain ⟨hnonneg, hbelow⟩ := F32.sub_floorNat (F32.add_fraction_nonneg hfpos hlt hinc)
  rw [positionLegal_iff, afterSample_phaseInc, afterSample_eq]
  exact ⟨hnonneg, hbelow, hinc⟩

theorem voiceFrame_positionLegal {s : State} {v : Voice} (h : v.positionLegal = true) :
    (voiceFrame s v).2.positionLegal = true :=
  voiceFrame_induction (P := fun v => v.positionLegal = true)
    (fun q v hv => (positionLegal_congr (tickEnvelope_fpos s v q) (tickEnvelope_phaseInc s v q)).trans hv)
    (fun _ hv => afterSample_positionLegal hv) h

/-- A note starts at position 0, with the `phaseInc` of its kind, which its PHASE check found finite (R170, R231). -/
theorem noteOf_phaseInc {s : State} {i : Instr} (hpass : firstError (checksOf s i) = none) {v : Voice}
    (hnote : noteOf s i = some v) :
    v.fpos = F32.zero ∧ v.phaseInc = v.phaseIncAt s v.pitch ∧ v.phaseInc.isFinite = true := by
  cases i with
  | nop | cfg | reset | setpitch | setvol | release | trkfine | process | ended | getbuf | rdreg => cases hnote
  | noteonPcm | noteonSq | noteonWave | noteonNoise =>
    obtain rfl := Option.some.inj hnote
    obtain ⟨-, -, hvalues⟩ := noteon_of_pass hpass
    refine ⟨rfl, rfl, ?_⟩
    simpa using hvalues (!_, .phase) (by simp [pcmChecks, newVoice])

/-- A voice that comes from a legal pool with legal positions has a legal position. -/
theorem SteppedFrom.positionLegal {s : State} (hp : LegalRates s.launch) (hs : s.poolLegal) (hpos : s.positionsLegal)
    {x : Voice} (hx : SteppedFrom s x) : x.positionLegal = true := by
  cases hx with
  | kept hv => exact hpos _ hv
  | released hv fast =>
    rw [positionLegal_congr (releaseVoice_fpos ..) (releaseVoice_phaseInc ..)]
    exact hpos _ hv
  | repitched hv hfin =>
    obtain ⟨-, hsource, -⟩ := hs.1 _ hv
    obtain ⟨hfpos, hlt, -⟩ := (positionLegal_iff _).1 (hpos _ hv)
    exact (positionLegal_iff _).2 ⟨hfpos, hlt, phaseIncAt_nonneg hp hsource hfin⟩
  | rendered hv => exact voiceFrame_positionLegal (hpos _ hv)
  | created hpass hnote =>
    obtain ⟨-, hlegal⟩ := noteOf_legal hpass hnote
    obtain ⟨hfpos, hinc, hfin⟩ := noteOf_phaseInc hpass hnote
    have hnonneg := phaseIncAt_nonneg hp hlegal.source (hinc ▸ hfin)
    rw [positionLegal_iff, hfpos, hinc]
    exact ⟨by decide, by decide, hnonneg⟩

/-- Settles O56: every voice of the next pool has one of the origins, and each keeps or sets a legal position. -/
theorem stepKeepsPositionsLegal : Obligations.StepKeepsPositionsLegal := by
  intro s t hlegal hs hpos h x hx
  exact (step_steppedFrom h hx).positionLegal (legalRates_of_legal hlegal) hs hpos

end Sys2Proof.Machine
end
